-- ==== Sys2Proof/Word.lean ====
section
/-! DEFINITION. The word types of the UP AES-GCM envelope core: a byte, a 32-bit bus word (R60, R102) and a 16-byte
Block (R9). Only the types stand here; every operation on them is in Sys2Proof/Machine/Bytes.lean. -/

namespace Sys2Proof

/-- One byte of a byte sequence (R9). -/
abbrev Byte := BitVec 8

/-- One 32-bit bus word: a register (R60), a buffer word (R100) or a command word (R130). -/
abbrev Word := BitVec 32

/-- A Block (R9) held in the field-element view of R10: the 128-bit integer `int_be(block)`, so byte 0 of the
Block is the most significant byte. The cipher-state view of R10 is reached byte by byte (`Machine.blockByte`). -/
abbrev Block := BitVec 128

/-- The 12 bytes of an envelope nonce (R290, R296), byte 0 the most significant, as for `Block`. -/
abbrev Nonce := BitVec 96

end Sys2Proof
end

