-- ==== Sys2Proof/Config.lean ====
section
/-! DEFINITION. What an implementation fixes (the parameters of R7) and what nothing fixes (the nonce draw of R296). -/

namespace Sys2Proof

/-- The parameters of R7 that differ between instances. `BUF_BYTES` and `KR_SLOTS` are reported in PARAMS (R49);
`BASE` is the bus address of offset 0 (R102, R115). -/
structure Params where
  /-- `BUF_BYTES`: the size in bytes of each of the AAD, IN and OUT buffers. -/
  bufBytes : Nat
  /-- `KR_SLOTS`: the number of key-ring slots. -/
  krSlots : Nat
  /-- `BASE`: where the 16 KiB window starts in the platform's address map. -/
  base : Nat
  deriving DecidableEq, Repr

/-- The ranges R7 gives the parameters: `BUF_BYTES` a multiple of 16 with 64 <= BUF_BYTES <= 4096, 1 <= KR_SLOTS <= 16,
`BASE` 16 KiB aligned. -/
abbrev Params.legal (p : Params) : Prop :=
  p.bufBytes % 16 = 0 ∧ 64 ≤ p.bufBytes ∧ p.bufBytes ≤ 4096 ∧ 1 ≤ p.krSlots ∧ p.krSlots ≤ 16 ∧ p.base % 0x4000 = 0

/-- The reference values of R7 (BUF_BYTES 4096, KR_SLOTS 4). DESIGN CHOICE (log 2): R7 gives BASE no reference value;
the model takes 0. No rule depends on BASE. -/
def Params.reference : Params := { bufBytes := 4096, krSlots := 4, base := 0 }

/-- FREE VALUE (R13, R296; log 4): the n-th nonce the random source delivers when the environment has not
put one into `State.rng`. It has no body, so nothing constrains it; no two draws are assumed to differ. -/
opaque Config.freeNonce : Nat → Nonce

end Sys2Proof
end

