-- ==== Sys2Proof/Syntax.lean ====
section
/-! DEFINITION. The commands of the core (R131), one constructor per row of spec/opcode_table.json; the names of the
reasons a command word is illegal (R134); and the host-sequence syntax of R137 and R138. -/

namespace Sys2Proof

/-- The counter-increment policies of CTR (R133, R222). POL = 2 and 3 are reserved and have no constructor. -/
inductive CounterPolicy where
  /-- POL = 0, `NONE`: the first keystream block encrypts the counter as given. -/
  | none
  /-- POL = 1, `PRE_INCREMENT`: the counter is incremented once first. -/
  | preIncrement
  deriving DecidableEq, Repr

/-- The commands of R131. The only operand fields are POL (CTR) and SLOT (ENV_ENCODE), R130. -/
inductive Instr where
  /-- OP 0x00 NOP (R324). -/
  | nop
  /-- OP 0x01 EXPAND_KEY (R195). -/
  | expandKey
  /-- OP 0x02 ENCRYPT_BLOCK (R196). -/
  | encryptBlock
  /-- OP 0x03 GF8_XTIME (R166). -/
  | gf8Xtime
  /-- OP 0x04 GF8_MUL (R167). -/
  | gf8Mul
  /-- OP 0x05 GF128_HALVE (R168). -/
  | gf128Halve
  /-- OP 0x06 GF128_MUL (R169). -/
  | gf128Mul
  /-- OP 0x07 CTR with its POL field (R225). -/
  | ctr (pol : CounterPolicy)
  /-- OP 0x08 GHASH (R245). -/
  | ghash
  /-- OP 0x09 GCM_ENCRYPT (R270). -/
  | gcmEncrypt
  /-- OP 0x0A GCM_DECRYPT (R271). -/
  | gcmDecrypt
  /-- OP 0x0B ENV_ENCODE with its 4-bit SLOT field (R300). -/
  | envEncode (slot : Fin 16)
  /-- OP 0x0C ENV_DECODE (R301). -/
  | envDecode
  /-- OP 0x0D SIZE_FOR_CT (R303). -/
  | sizeForCt
  /-- OP 0x0E SIZE_FOR_PT (R304). -/
  | sizeForPt
  /-- OP 0x0F ZEROIZE (R325). -/
  | zeroize
  deriving DecidableEq, Repr

/-- Why `decode` answers ILLEGAL (R134), one name per check, in the order of the checks. -/
inductive IllegalReason where
  /-- a bit of the reserved field [31:14] is set. -/
  | reservedBits
  /-- OP is 0x10-0xFF (R135). -/
  | reservedOpcode
  /-- SLOT is not 0 in a word that is not ENV_ENCODE. -/
  | unusedSlot
  /-- POL is not 0 in a word that is not CTR. -/
  | unusedPolicy
  /-- an ENV_ENCODE word with SLOT >= KR_SLOTS (R132). -/
  | slotOutOfRange
  /-- a CTR word with POL = 2 or 3 (R133). -/
  | reservedPolicy
  deriving DecidableEq, Repr

/-- The statements of a host sequence (R137). Offsets are byte offsets from BASE. -/
inductive HostStmt where
  /-- `WR <off>, <val>`: one 32-bit host write. -/
  | wr (off : Nat) (val : Word)
  /-- `RD <off>`: one 32-bit host read. -/
  | rd (off : Nat)
  /-- `RD <off> == <val>`: a read whose expected value is `<val>`, an assertion of the example. -/
  | rdExpect (off : Nat) (val : Word)
  /-- `POLL <off>, <mask>, <val>`: repeat `RD <off>` until `(value & mask) == val`. -/
  | poll (off : Nat) (mask val : Word)
  deriving DecidableEq, Repr

/-- The blocks and buffers a pseudo-statement of R138 can load. -/
inductive LoadTarget where
  | blockA | blockB | bufAad | bufIn | bufNonce
  deriving DecidableEq, Repr

/-- The pseudo-statements of R138. -/
inductive PseudoStmt where
  /-- `CMD <MNEMONIC>`, with its pol= or slot= operand inside the command. -/
  | cmd (i : Instr)
  /-- `WAIT`. -/
  | wait
  /-- `CHECK <code>`. -/
  | check (code : BitVec 4)
  /-- `LDKEY <n>, <hex bytes>`, n the KEYLEN. -/
  | ldKey (keylen : BitVec 2) (bytes : List Byte)
  /-- `LDBLK <A or B>, <16 hex bytes>` and `LDBUF <AAD or IN or NONCE>, <hex bytes>`. -/
  | load (t : LoadTarget) (bytes : List Byte)
  /-- `CLR`. -/
  | clr
  deriving DecidableEq, Repr

end Sys2Proof
end

