-- ==== Sys2Proof/WellFormed.lean ====
section
/-! DEFINITION. Which commands have a command word: the one check on an operand that the syntax does not already rule
out is ENV_ENCODE's SLOT against the instance's KR_SLOTS (R132). -/

namespace Sys2Proof

/-- An instruction is well formed on an instance with `krSlots` key-ring slots when R134 has a legal word for it:
ENV_ENCODE names an existing slot (R132); the other commands have no operand that can be out of range. -/
def Instr.wf (krSlots : Nat) : Instr → Bool
  | .envEncode slot => decide (slot.val < krSlots)
  | .nop => true
  | .expandKey => true
  | .encryptBlock => true
  | .gf8Xtime => true
  | .gf8Mul => true
  | .gf128Halve => true
  | .gf128Mul => true
  | .ctr _ => true
  | .ghash => true
  | .gcmEncrypt => true
  | .gcmDecrypt => true
  | .envDecode => true
  | .sizeForCt => true
  | .sizeForPt => true
  | .zeroize => true

end Sys2Proof
end

