-- ==== Sys2Proof/Decode.lean ====
section
/-! DEFINITION. Decoding a command word (R130-R135), total on every 32-bit word, and the encoder beside it. -/

namespace Sys2Proof

/-- OP, bits 7:0 (R130). -/
def opField (w : Word) : BitVec 8 := w.extractLsb' 0 8

/-- SLOT, bits 11:8 (R130). -/
def slotField (w : Word) : BitVec 4 := w.extractLsb' 8 4

/-- POL, bits 13:12 (R130). -/
def polField (w : Word) : BitVec 2 := w.extractLsb' 12 2

/-- The reserved field, bits 31:14 (R130). -/
def reservedField (w : Word) : BitVec 18 := w.extractLsb' 14 18

/-- The policy POL = 0 or 1 stands for (R133); `none` for the reserved values 2 and 3. -/
def policyOf (pol : BitVec 2) : Option CounterPolicy :=
  match pol.toNat with
  | 0 => some .none
  | 1 => some .preIncrement
  | _ => none

/-- The opcode map of R131, for a word whose fields have passed the checks of R134. -/
def commandOf (op : BitVec 8) (slot : BitVec 4) (pol : CounterPolicy) : Option Instr :=
  match op.toNat with
  | 0x00 => some .nop
  | 0x01 => some .expandKey
  | 0x02 => some .encryptBlock
  | 0x03 => some .gf8Xtime
  | 0x04 => some .gf8Mul
  | 0x05 => some .gf128Halve
  | 0x06 => some .gf128Mul
  | 0x07 => some (.ctr pol)
  | 0x08 => some .ghash
  | 0x09 => some .gcmEncrypt
  | 0x0A => some .gcmDecrypt
  | 0x0B => some (.envEncode slot.toFin)
  | 0x0C => some .envDecode
  | 0x0D => some .sizeForCt
  | 0x0E => some .sizeForPt
  | 0x0F => some .zeroize
  | _ => none

/-- `decode(w)` of R134 on an instance with `krSlots` slots: the checks in the rule's order, each illegal word rejected
by the name of the check it fails. -/
def decode (krSlots : Nat) (w : Word) : Except IllegalReason Instr :=
  if reservedField w ≠ 0 then .error .reservedBits
  else if 0x0F < (opField w).toNat then .error .reservedOpcode
  else if opField w ≠ 0x0B ∧ slotField w ≠ 0 then .error .unusedSlot
  else if opField w ≠ 0x07 ∧ polField w ≠ 0 then .error .unusedPolicy
  else if opField w = 0x0B ∧ krSlots ≤ (slotField w).toNat then .error .slotOutOfRange
  else
    match policyOf (polField w) with
    | none => .error .reservedPolicy
    | some pol =>
      match commandOf (opField w) (slotField w) pol with
      | some i => .ok i
      | none => .error .reservedOpcode

/-- The OP value of each command (R131). -/
def Instr.opcode : Instr → BitVec 8
  | .nop => 0x00
  | .expandKey => 0x01
  | .encryptBlock => 0x02
  | .gf8Xtime => 0x03
  | .gf8Mul => 0x04
  | .gf128Halve => 0x05
  | .gf128Mul => 0x06
  | .ctr _ => 0x07
  | .ghash => 0x08
  | .gcmEncrypt => 0x09
  | .gcmDecrypt => 0x0A
  | .envEncode _ => 0x0B
  | .envDecode => 0x0C
  | .sizeForCt => 0x0D
  | .sizeForPt => 0x0E
  | .zeroize => 0x0F

/-- The POL value of a policy (R133). -/
def CounterPolicy.polBits : CounterPolicy → BitVec 2
  | .none => 0
  | .preIncrement => 1

/-- The SLOT field of a command's word: ENV_ENCODE's slot, 0 for every other command (R134). -/
def Instr.slotBits : Instr → BitVec 4
  | .envEncode slot => BitVec.ofFin slot
  | _ => 0

/-- The POL field of a command's word: CTR's policy, 0 for every other command (R134). -/
def Instr.polBits : Instr → BitVec 2
  | .ctr pol => pol.polBits
  | _ => 0

/-- The command word of a command (R130): reserved bits 31:14 zero, then POL, SLOT and OP. -/
def encode (i : Instr) : Word := 0#18 ++ i.polBits ++ i.slotBits ++ i.opcode

/-- What the decoder reads from a row of spec/opcode_table.json whose bits are `w`: a command word is one 32-bit word
(R130), numbered as the table numbers it. The instance is the reference one (R7). -/
def decodeTableWord (nbits w : Nat) : Option Instr :=
  if nbits ≤ 32 ∧ w < 2 ^ nbits then
    match decode Params.reference.krSlots (BitVec.ofNat 32 w) with
    | .ok i => some i
    | .error _ => none
  else none

end Sys2Proof
end

