-- ==== Sys2Proof/Machine/Bytes.lean ====
section
/-! DEFINITION. Byte sequences, Blocks and bus words (R8-R10, R100, R101): the conversions between them, said once. -/

namespace Sys2Proof.Machine

/-- `zeros(n)` of R9. -/
def zeros (n : Nat) : List Byte := List.replicate n 0

/-- `be_N(v)` of R9: the N-byte big-endian encoding, most significant byte first. -/
def beBytes : Nat → Nat → List Byte
  | 0, _ => []
  | n + 1, v => BitVec.ofNat 8 (v / 2 ^ (8 * n)) :: beBytes n v

/-- `int_be(s)` of R9. -/
def intBe (s : List Byte) : Nat := s.foldl (fun acc x => acc * 256 + x.toNat) 0

/-- `s[i .. i+n)` of R9. -/
def slice (s : List Byte) (i n : Nat) : List Byte := (s.drop i).take n

/-- `a xor b` on byte sequences of equal length, byte by byte (R8). -/
def xorBytes (s t : List Byte) : List Byte := List.zipWith (· ^^^ ·) s t

/-- The Block whose bytes are the 16 bytes `s` (R10). -/
def blockOfBytes (s : List Byte) : Block := BitVec.ofNat 128 (intBe s)

/-- The 16 bytes of a Block, byte 0 first (R10). -/
def bytesOfBlock (x : Block) : List Byte := beBytes 16 x.toNat

/-- `block[j]` for j in 0..15: byte 0 is the most significant byte of the field-element view (R10). -/
def blockByte (x : Block) (j : Nat) : Byte := x.extractLsb' (8 * (15 - j)) 8

/-- The Block with `block[j] = f j` for j in 0..15. -/
def blockOfFn (f : Nat → Byte) : Block := blockOfBytes ((List.range 16).map f)

/-- A partial block padded with zero bytes to 16 (R241). -/
def padBlock (s : List Byte) : Block := blockOfBytes (s ++ zeros (16 - s.length))

/-- The first `n` 16-byte chunks of a byte sequence; the last one may be shorter. -/
def chunksN : Nat → List Byte → List (List Byte)
  | 0, _ => []
  | n + 1, s => s.take 16 :: chunksN n (s.drop 16)

/-- The chunks `data[16j .. min(16j + 16, len(data)))` for j in 0 ..< ceil(len(data) / 16) (R221, R240). A remainder of
0 bytes is no chunk (90_conflicts.md C11). -/
def chunks (s : List Byte) : List (List Byte) := chunksN ((s.length + 15) / 16) s

/-- Byte lane k of a bus word: bits [8k+7 : 8k] (R100). -/
def laneByte (w : Word) (k : Nat) : Byte := w.extractLsb' (8 * k) 8

/-- The four bytes of a bus word in lane order (R100). -/
def lanes (w : Word) : List Byte := [laneByte w 0, laneByte w 1, laneByte w 2, laneByte w 3]

/-- The bus word holding four bytes, byte k in lane k (R100). -/
def wordOfLanes (x0 x1 x2 x3 : Byte) : Word := x3 ++ x2 ++ x1 ++ x0

/-- The bus word a host reads for word n of a Block register (R50). -/
def laneWord (x : Block) (n : Nat) : Word :=
  wordOfLanes (blockByte x (4 * n)) (blockByte x (4 * n + 1)) (blockByte x (4 * n + 2)) (blockByte x (4 * n + 3))

/-- A Block register after a host write of `w` to its word n (R50, R100). -/
def setLaneWord (x : Block) (n : Nat) (w : Word) : Block :=
  blockOfFn fun j => if j / 4 = n then laneByte w (j % 4) else blockByte x j

/-- The 32 key bytes held in eight key words in lane order (R43, R54). -/
def keyWordBytes (k : Vector Word 8) : List Byte := k.toList.flatMap lanes

/-- The 12 bytes of a nonce, byte 0 first (R290). -/
def nonceToBytes (x : Nonce) : List Byte := beBytes 12 x.toNat

end Sys2Proof.Machine
end

