-- ==== Sys2Proof/Machine/State.lean ====
section
/-! DEFINITION. The state of the core (R30): every register of R60, the byte arrays, the key ring, the sequencer of R55;
and, beside them, the model's own inputs (what the host, the random source and the reset line do next) and its one
output (the response of the last host access). All of it is plain data. -/

namespace Sys2Proof.Machine

/-- Why the machine stops with a fault. There is no such reason: an error of a command is a completion with ERR set
(R340, R347), a bus error is the result of an access (R341), and nothing traps, halts or locks. The type is empty,
so `step` cannot fault. -/
inductive Fault where
  deriving DecidableEq, Repr

/-- Why an instruction has no meaning. -/
inductive Refusal where
  /-- Raised by `exec` for an instruction that has no meaning yet (safe). No arm of `exec` raises it. -/
  | notModelled (mnemonic : String)
  deriving DecidableEq, Repr

/-- A legal key size of R7, R185. KEYLEN = 3 is no key size (R42). -/
inductive KeySize where
  | aes128 | aes192 | aes256
  deriving DecidableEq, Repr

/-- CTRL (R32); bits 31:3 are reserved and read 0. -/
structure Ctrl where
  /-- bit 0 IRQ_EN (R35). -/
  irqEn : Bool
  /-- bit 1 HARDEN (R34). -/
  harden : Bool
  /-- bit 2 CT_CMP (R33). -/
  ctCmp : Bool
  deriving DecidableEq, Repr

/-- The command error codes of R340. Codes 7 to 15 are never written (R41), so they have no name. -/
inductive ErrCode where
  | ok | authenticationFailure | unknownKeyVersion | malformedEnvelope | invalidKeyMaterial | illegalCommand
  | lengthError
  deriving DecidableEq, Repr

/-- STATUS (R37) but for BUSY, which is the sequencer's state (R55). -/
structure Status where
  /-- bit 1 DONE (R39). -/
  done : Bool
  /-- bit 2 OVR (R40). -/
  ovr : Bool
  /-- bits 7:4 ERR (R41). -/
  err : ErrCode
  deriving DecidableEq, Repr

/-- KEYCFG (R42) and KR_CFG (R54), which have one layout; bits 30:2 are reserved and read 0. -/
structure KeyCfg where
  /-- bits 1:0 KEYLEN; 3 is storable and no legal size. -/
  keylen : BitVec 2
  /-- bit 31 VALID. -/
  valid : Bool
  deriving DecidableEq, Repr

/-- One key-ring slot (R54). -/
structure Slot where
  /-- KR_TAG bits 23:0, tag byte k at bits [8k+7:8k]; bits 31:24 are reserved and read 0. -/
  tag : BitVec 24
  /-- KR_CFG. -/
  cfg : KeyCfg
  /-- KR_KEY words 0..7, the slot's 32 key bytes in lane order. -/
  key : Vector Word 8
  deriving DecidableEq, Repr

/-- The sequencer state of R55. `STATUS.BUSY` is 1 exactly when it is `running`. -/
inductive Seq where
  | idle
  | running (cmdword : Word)
  deriving DecidableEq, Repr

/-- The byte arrays of R11 and R52, R53. -/
inductive Buf where
  | aad | input | output | nonce | sched
  deriving DecidableEq, Repr

/-- The contents of the byte arrays: (window offset, byte) pairs in one canonical form (`Memory.wf`). Byte j of an
array stands at the array's window offset plus j (R60, R100). -/
abbrev Memory := List Host.Cell

/-- A mapped register, or word of an array, of the register map R60. `n` counts words, `s` counts slots. -/
inductive Target where
  | id | ctrl | cmd | status | keycfg | aadLen | inLen | nonceLen | outLen | sizeArg | result | schedInfo | params
  | key (n : Nat)
  | a (n : Nat)
  | b (n : Nat)
  | r (n : Nat)
  | krTag (s : Nat)
  | krCfg (s : Nat)
  | krKey (s n : Nat)
  | buf (x : Buf) (n : Nat)
  deriving DecidableEq, Repr

/-- The width of a host access (R103). Only 32-bit accesses are answered without a bus error. -/
inductive AccessWidth where
  | bits8 | bits16 | bits32
  deriving DecidableEq, Repr

/-- What a host access does. A write carries the 32-bit data of the bus; a narrower write is a bus error. -/
inductive AccessOp where
  | read
  | write (val : Word)
  deriving DecidableEq, Repr

/-- One host access: a bus address, a width and an operation (R102, R103). -/
structure Access where
  addr : Nat
  width : AccessWidth
  op : AccessOp
  deriving DecidableEq, Repr

/-- How the core answers an access it receives. -/
inductive BusResult where
  /-- a read's value (R106). -/
  | value (w : Word)
  /-- a write was answered without error; a dropped write (R105) and a write to a read-only target (R59) too. -/
  | written
  /-- `BUS_ERROR` (R341): wrong width, misaligned (R103) or unmapped (R104). -/
  | busError
  deriving DecidableEq, Repr

/-- What the environment makes happen at one step: a host access reaches the core, the engine takes its step
(R322), or the platform pulses the reset input (R382). -/
inductive Event where
  | bus (a : Access)
  | engine
  | reset
  deriving DecidableEq, Repr

/-- The classes of R327, which fix what a command clears on error (R343). -/
inductive CmdClass where
  | none | r | out | size
  deriving DecidableEq, Repr

/-- A key a command uses: its size and its bytes (R44, R295). -/
structure Key where
  size : KeySize
  bytes : List Byte
  deriving DecidableEq, Repr

/-- The state of the core (R30). -/
structure State where
  /-- the instance's parameters (R7); no step changes them. PARAMS reports two of them (R49). -/
  params : Params
  /-- CTRL (R32). -/
  ctrl : Ctrl
  /-- CMD: the last accepted command word (R36). -/
  cmd : Word
  /-- the sequencer (R55); STATUS.BUSY is read from it. -/
  seq : Seq
  /-- STATUS.DONE, OVR and ERR (R37). -/
  status : Status
  /-- KEYCFG (R42). -/
  keyCfg : KeyCfg
  /-- KEY0..KEY7: the 32 bytes of KEYREG in lane order (R43). -/
  keyReg : Vector Word 8
  /-- AAD_LEN (R45). -/
  aadLen : Word
  /-- IN_LEN (R45). -/
  inLen : Word
  /-- NONCE_LEN (R45). -/
  nonceLen : Word
  /-- OUT_LEN (R46). -/
  outLen : Word
  /-- SIZE_ARG (R47). -/
  sizeArg : Word
  /-- RESULT (R47). -/
  result : Word
  /-- SCHED_INFO (R48): `none` is VALID = 0, NR = 0; `some k` is VALID = 1 with the round count of `k`. -/
  schedInfo : Option KeySize
  /-- Block register A (R50). -/
  a : Block
  /-- Block register B (R50). -/
  b : Block
  /-- Block register R (R50, R51). -/
  r : Block
  /-- the key-ring slots 0 .. KR_SLOTS-1, in order (R54). -/
  ring : List Slot
  /-- the contents of AAD, IN, OUT, NONCE (R52) and SCHED (R53). -/
  mem : Memory
  /-- MODEL'S OWN (log 5): what the environment does next, oldest first. -/
  schedule : List Event
  /-- MODEL'S OWN (log 5): the core's answer to the last host access it received; `none` before the first. -/
  response : Option BusResult
  /-- MODEL'S OWN (log 4): nonces the random source is about to deliver, oldest first; when empty the draw is free. -/
  rng : List Nonce
  /-- MODEL'S OWN (log 4): how many free nonces have been drawn, the argument of `Config.freeNonce`. -/
  draws : Nat
  deriving DecidableEq, Repr

/-- KEYCFG and KR_CFG after reset and ZEROIZE: VALID = 0, KEYLEN = 0. -/
def KeyCfg.zero : KeyCfg := { keylen := 0, valid := false }

/-- A slot after reset and ZEROIZE: absent, all zero (R380). -/
def Slot.zero : Slot := { tag := 0, cfg := KeyCfg.zero, key := Vector.replicate 8 0 }

/-- The reset state of R380 on an instance with parameters `p`. -/
def State.resetWith (p : Params) : State :=
  { params := p
    ctrl := { irqEn := false, harden := true, ctCmp := true }
    cmd := 0
    seq := .idle
    status := { done := false, ovr := false, err := .ok }
    keyCfg := KeyCfg.zero
    keyReg := Vector.replicate 8 0
    aadLen := 0
    inLen := 0
    nonceLen := 0
    outLen := 0
    sizeArg := 0
    result := 0
    schedInfo := none
    a := 0
    b := 0
    r := 0
    ring := List.replicate p.krSlots Slot.zero
    mem := []
    schedule := []
    response := none
    rng := []
    draws := 0 }

/-- The machine right after reset (R380), on the reference instance of R7. -/
def State.reset : State := State.resetWith Params.reference

end Sys2Proof.Machine
end

