-- ==== Sys2Proof/Machine/Keys.lean ====
section
/-! DEFINITION. The sizes that go with a key size (R7, R185) and the KEYLEN encoding (R42). -/

namespace Sys2Proof.Machine

/-- `Nk`, the number of 4-byte key words (R185). -/
def KeySize.nk : KeySize → Nat
  | .aes128 => 4
  | .aes192 => 6
  | .aes256 => 8

/-- `Nr = Nk + 6`, the number of rounds (R185). -/
def KeySize.nr (k : KeySize) : Nat := k.nk + 6

/-- `KEY_BYTES` = 16, 24 or 32 (R185). -/
def KeySize.keyBytes (k : KeySize) : Nat := 4 * k.nk

/-- The schedule's length `16 * (Nr + 1)`: 176, 208 or 240 bytes (R185). -/
def KeySize.schedBytes (k : KeySize) : Nat := 16 * (k.nr + 1)

/-- KEYLEN 0, 1, 2 name 16, 24, 32 bytes; 3 is no legal size (R42). -/
def KeySize.ofKeylen (x : BitVec 2) : Option KeySize :=
  match x.toNat with
  | 0 => some .aes128
  | 1 => some .aes192
  | 2 => some .aes256
  | _ => none

end Sys2Proof.Machine
end

