-- ==== Sys2Proof/Machine/Flags.lean ====
section
/-! DEFINITION. The register words made of fields (STATUS, CTRL, KEYCFG, KR_CFG, SCHED_INFO, PARAMS), the numeric error
codes, and the interrupt output. "Flags" of a command means STATUS only (R323). -/

namespace Sys2Proof.Machine

/-- The numeric code of R340, R41. -/
def ErrCode.code : ErrCode → BitVec 4
  | .ok => 0
  | .authenticationFailure => 1
  | .unknownKeyVersion => 2
  | .malformedEnvelope => 3
  | .invalidKeyMaterial => 4
  | .illegalCommand => 5
  | .lengthError => 6

/-- `STATUS.BUSY`: 1 exactly while a command runs (R38, R55). -/
def State.busy (s : State) : Bool :=
  match s.seq with
  | .idle => false
  | .running _ => true

/-- STATUS as the host reads it (R37): reserved [31:8], ERR [7:4], reserved [3], OVR, DONE, BUSY. -/
def State.statusWord (s : State) : Word :=
  0#24 ++ s.status.err.code ++ 0#1 ++ BitVec.ofBool s.status.ovr ++ BitVec.ofBool s.status.done ++
    BitVec.ofBool s.busy

/-- CTRL as the host reads it (R32). -/
def Ctrl.toWord (c : Ctrl) : Word :=
  0#29 ++ BitVec.ofBool c.ctCmp ++ BitVec.ofBool c.harden ++ BitVec.ofBool c.irqEn

/-- CTRL after a host write of `w`: reserved bits ignore the write (R32, R59). -/
def Ctrl.ofWord (w : Word) : Ctrl :=
  { irqEn := w.getLsbD 0, harden := w.getLsbD 1, ctCmp := w.getLsbD 2 }

/-- KEYCFG or KR_CFG as the host reads it (R42, R54). -/
def KeyCfg.toWord (c : KeyCfg) : Word := BitVec.ofBool c.valid ++ 0#29 ++ c.keylen

/-- KEYCFG or KR_CFG after a host write of `w`: reserved bits ignore the write (R42, R54, R59). -/
def KeyCfg.ofWord (w : Word) : KeyCfg := { keylen := w.extractLsb' 0 2, valid := w.getLsbD 31 }

/-- SCHED_INFO as the host reads it (R48): NR in bits [15:8], VALID in bit 0, other bits 0. -/
def schedInfoWord : Option KeySize → Word
  | none => 0
  | some k => 0#16 ++ BitVec.ofNat 8 k.nr ++ 0#7 ++ 1#1

/-- PARAMS (R49): NONCE_BUF_BYTES (64) in [31:24], KR_SLOTS in [23:16], BUF_BYTES in [15:0]. -/
def paramsWord (p : Params) : Word := 64#8 ++ BitVec.ofNat 8 p.krSlots ++ BitVec.ofNat 16 p.bufBytes

/-- The constant the ID register reads (R31). -/
def idWord : Word := 0x55504743

/-- The interrupt output `irq = STATUS.DONE and CTRL.IRQ_EN`, a function of the state (R350). -/
def State.irq (s : State) : Bool := s.status.done && s.ctrl.irqEn

end Sys2Proof.Machine
end

