-- ==== Sys2Proof/Machine/Ops.lean ====
section
/-! DEFINITION. The named operations every command and every host access is written with: the byte arrays (R11, R100),
the writes a command makes, completion and error (R323, R343; the core's only analogue of a trap, R347), acceptance
(R320), and reset (R380, R381). -/

namespace Sys2Proof.Machine

/-! ### The byte arrays -/

/-- What an unlisted address reads as: the byte arrays are zero at reset (R380). -/
def Memory.unlisted : Byte := 0

/-- One byte of the byte arrays. -/
def Memory.readByte : Memory → Nat → Byte
  | [], _ => Memory.unlisted
  | c :: m, x => if c.1 = x then c.2 else Memory.readByte m x

/-- The cells that hold the bytes `bs` from address `base` on; a byte equal to the unlisted one needs no cell. -/
def Memory.cells : Nat → List Byte → Memory
  | _, [] => []
  | base, x :: bs =>
    if x = Memory.unlisted then Memory.cells (base + 1) bs else (base, x) :: Memory.cells (base + 1) bs

/-- The byte arrays after the bytes `bs` are written from address `base` on. -/
def Memory.writeBytes (m : Memory) (base : Nat) (bs : List Byte) : Memory :=
  m.filter (fun c => decide (c.1 < base)) ++ Memory.cells base bs ++
    m.filter (fun c => decide (base + bs.length ≤ c.1))

/-- The `n` bytes from address `base` on. -/
def Memory.readBytes (m : Memory) (base n : Nat) : List Byte :=
  (List.range n).map fun i => m.readByte (base + i)

/-- The canonical form: addresses strictly rising, and no cell equal to what an unlisted address reads as. -/
abbrev Memory.wf (m : Memory) : Prop :=
  m.Pairwise (fun c d => c.1 < d.1) ∧ ∀ c ∈ m, c.2 ≠ Memory.unlisted

/-- The window offset of each byte array (R60). -/
def Buf.base : Buf → Nat
  | .aad => 0x1000
  | .input => 0x2000
  | .output => 0x3000
  | .nonce => 0x100
  | .sched => 0x600

/-- The size in bytes of each byte array (R52, R53). -/
def Buf.size (p : Params) : Buf → Nat
  | .aad => p.bufBytes
  | .input => p.bufBytes
  | .output => p.bufBytes
  | .nonce => 64
  | .sched => 240

/-- `MemRead(BUF, off, n)` of R11. -/
def State.memRead (s : State) (x : Buf) (off n : Nat) : List Byte := s.mem.readBytes (x.base + off) n

/-- `MemWrite(BUF, off, len(bs), bs)` of R11. -/
def State.memWrite (s : State) (x : Buf) (off : Nat) (bs : List Byte) : State :=
  { s with mem := s.mem.writeBytes (x.base + off) bs }

/-! ### The writes a command makes -/

/-- `x[R] <- v`. -/
def State.setR (s : State) (v : Block) : State := { s with r := v }

/-- `x[RESULT] <- v`. -/
def State.setResult (s : State) (v : Word) : State := { s with result := v }

/-- `MemWrite(OUT, 0, n, bs); x[OUT_LEN] <- n` with n the number of bytes (R225, R270, R271, R300, R301). -/
def State.writeOut (s : State) (bs : List Byte) : State :=
  { s.memWrite .output 0 bs with outLen := BitVec.ofNat 32 bs.length }

/-- `MemWrite(SCHED, 0, 240, sched || zeros(240 - len(sched))); x[SCHED_INFO] <- (VALID = 1, NR)` (R195, R270, R271,
R300, R301). -/
def State.storeSchedule (s : State) (k : KeySize) (sched : List Byte) : State :=
  { s.memWrite .sched 0 (sched ++ zeros (240 - sched.length)) with schedInfo := some k }

/-- `harden_zeroize()` of R326. The command's working values of R56 are no part of the state. -/
def State.hardenZeroize (s : State) : State :=
  { s.memWrite .sched 0 (zeros 240) with schedInfo := none }

/-! ### Completion, error and acceptance -/

/-- The class of a command (R327). -/
def cmdClass : Instr → CmdClass
  | .nop => .none
  | .expandKey => .none
  | .zeroize => .none
  | .encryptBlock => .r
  | .gf8Xtime => .r
  | .gf8Mul => .r
  | .gf128Halve => .r
  | .gf128Mul => .r
  | .ghash => .r
  | .ctr _ => .out
  | .gcmEncrypt => .out
  | .gcmDecrypt => .out
  | .envEncode _ => .out
  | .envDecode => .out
  | .sizeForCt => .size
  | .sizeForPt => .size

/-- The composite commands (R14, R327): the OUT-class commands other than CTR, to which hardening applies. -/
def isComposite : Instr → Bool
  | .gcmEncrypt => true
  | .gcmDecrypt => true
  | .envEncode _ => true
  | .envDecode => true
  | .nop => false
  | .expandKey => false
  | .encryptBlock => false
  | .gf8Xtime => false
  | .gf8Mul => false
  | .gf128Halve => false
  | .gf128Mul => false
  | .ctr _ => false
  | .ghash => false
  | .sizeForCt => false
  | .sizeForPt => false
  | .zeroize => false

/-- Acceptance of a command word (R320). STATUS.OVR is unchanged. -/
def State.accept (s : State) (w : Word) : State :=
  { s with
    cmd := w
    seq := .running w
    status := { s.status with done := false, err := .ok } }

/-- Completion with a code (R323): ERR, DONE = 1, BUSY = 0. -/
def State.complete (s : State) (e : ErrCode) : State :=
  { s with
    seq := .idle
    status := { s.status with done := true, err := e } }

/-- The register writes of `on_error(cmd)`, by the command's class (R343). -/
def State.onError (s : State) (i : Instr) : State :=
  match cmdClass i with
  | .none => s
  | .r => { s with r := 0 }
  | .out => { s with outLen := 0, r := 0 }
  | .size => { s with result := 0 }

/-- The exit of a command that decoded: the hardening cleanup on every exit of a composite command when CTRL.HARDEN
is 1 (R326, R34), then completion with `e` (R323). CTRL cannot change while the command runs (R108), so HARDEN is
read here. -/
def State.finish (s : State) (i : Instr) (e : ErrCode) : State :=
  (if isComposite i && s.ctrl.harden then s.hardenZeroize else s).complete e

/-- `raise E` inside command `i` (R12, R343, R347): taking an error. It records the code in STATUS.ERR (CMD already
holds the word), clears what the class clears, and completes; no vector, no mode, no saved pc. -/
def State.raise (s : State) (i : Instr) (e : ErrCode) : State := (s.onError i).finish i e

/-- `raise ILLEGAL_COMMAND` from decoding: nothing but STATUS changes (R343, R321). -/
def State.illegal (s : State) : State := s.complete .illegalCommand

/-- A host write of `w` to STATUS (R37): the acknowledgement of a completion, the nearest thing to a return from a
trap (R348). Bits 1 and 2 are write-1-to-clear; every other bit ignores the write. -/
def State.writeStatus (s : State) (w : Word) : State :=
  { s with
    status := { s.status with done := s.status.done && !w.getLsbD 1, ovr := s.status.ovr && !w.getLsbD 2 } }

/-- A host write dropped because BUSY = 1 (R105, R40). -/
def State.dropWrite (s : State) : State := { s with status := { s.status with ovr := true } }

/-! ### Reset and the random source -/

/-- The reset input (R380, R381): every element of the core's state takes its reset value. What the environment does
afterwards and what the random source delivers are not the core's state and stay. -/
def State.resetPulse (s : State) : State :=
  { State.resetWith s.params with schedule := s.schedule, rng := s.rng, draws := s.draws }

/-- `draw(12)` (R296): the next nonce the random source delivers, free when the environment has fixed none. -/
def State.nextNonce (s : State) : Nonce :=
  match s.rng with
  | x :: _ => x
  | [] => Config.freeNonce s.draws

/-- The random source after one draw (R296). -/
def State.advanceRng (s : State) : State :=
  match s.rng with
  | _ :: rest => { s with rng := rest }
  | [] => { s with draws := s.draws + 1 }

end Sys2Proof.Machine
end

