-- ==== Sys2Proof/Machine/Operands.lean ====
section
/-! DEFINITION. Where each command's operands come from (R136): the key of KEYREG or of a slot, the length registers,
the buffers, the stored schedule, the key-ring lookup. -/

namespace Sys2Proof.Machine

/-- The key a configuration word and its 32 key bytes hold: absent when VALID = 0 and of no legal size when
KEYLEN = 3, both INVALID_KEY_MATERIAL; otherwise the first 16, 24 or 32 bytes (R44, R295). -/
def keyOf (cfg : KeyCfg) (words : Vector Word 8) : Option Key :=
  if cfg.valid then
    match KeySize.ofKeylen cfg.keylen with
    | some k => some { size := k, bytes := (keyWordBytes words).take k.keyBytes }
    | none => none
  else none

/-- `key_from_reg()` of R44; `none` is `raise INVALID_KEY_MATERIAL`. -/
def State.keyFromReg (s : State) : Option Key := keyOf s.keyCfg s.keyReg

/-- The key of a slot (R295, R300, R301); `none` is `raise INVALID_KEY_MATERIAL`. -/
def Slot.keyOperand (x : Slot) : Option Key := keyOf x.cfg x.key

/-- Slot s of the key ring; a slot beyond the last reads as an absent one. -/
def State.slot (s : State) (n : Nat) : Slot := s.ring.getD n Slot.zero

/-- `lookup(v)` of R294: the lowest-numbered slot with VALID = 1 and the tag `v`. -/
def lookupSlot (ring : List Slot) (v : BitVec 24) : Option Slot :=
  ring.find? fun x => x.cfg.valid && decide (x.tag = v)

/-- The value `v[0] | v[1] << 8 | v[2] << 16` of three tag bytes (R294). -/
def tagOfBytes (v : List Byte) : BitVec 24 := v.getD 2 0 ++ v.getD 1 0 ++ v.getD 0 0

/-- Bytes 0..2 of a version tag in lane order (R54). -/
def tagBytes (t : BitVec 24) : List Byte := [t.extractLsb' 0 8, t.extractLsb' 8 8, t.extractLsb' 16 8]

/-- `AAD[0 .. AAD_LEN)` (R45). -/
def State.aadBytes (s : State) : List Byte := s.memRead .aad 0 s.aadLen.toNat

/-- `IN[0 .. IN_LEN)` (R45). -/
def State.inBytes (s : State) : List Byte := s.memRead .input 0 s.inLen.toNat

/-- `NONCE[0 .. NONCE_LEN)` (R45). -/
def State.nonceBytes (s : State) : List Byte := s.memRead .nonce 0 s.nonceLen.toNat

/-- `MemRead(SCHED, 0, 16*(nr+1))` for a stored schedule of size `k` (R196, R225). -/
def State.schedBytes (s : State) (k : KeySize) : List Byte := s.memRead .sched 0 k.schedBytes

/-- `x[IN_LEN] > BUF_BYTES` (R345). -/
abbrev State.inTooLong (s : State) : Prop := s.params.bufBytes < s.inLen.toNat

/-- `x[AAD_LEN] > BUF_BYTES` (R345). -/
abbrev State.aadTooLong (s : State) : Prop := s.params.bufBytes < s.aadLen.toNat

/-- `x[NONCE_LEN] > 64` (R345). -/
abbrev State.nonceTooLong (s : State) : Prop := 64 < s.nonceLen.toNat

end Sys2Proof.Machine
end

