-- ==== Sys2Proof/Machine/Bus.lean ====
section
/-! DEFINITION. The bus slave (R100-R106): the register map of R60, and what a host read or write of each target does,
idle and busy (R59, R105). -/

namespace Sys2Proof.Machine

/-- The window offset of a bus address: the core answers only the 16 KiB window at BASE (R102). -/
def busOffset (p : Params) (addr : Nat) : Option Nat :=
  if p.base ≤ addr ∧ addr < p.base + 0x4000 then some (addr - p.base) else none

/-- The single registers of R60, by offset. -/
def scalarMap : List (Nat × Target) := [
  (0x000, .id), (0x004, .ctrl), (0x008, .cmd), (0x00C, .status), (0x010, .keycfg), (0x014, .aadLen), (0x018, .inLen),
  (0x01C, .nonceLen), (0x020, .outLen), (0x024, .sizeArg), (0x028, .result), (0x02C, .schedInfo), (0x030, .params)]

/-- The register arrays of R60 outside the key ring: (offset, size in bytes, target of word n). -/
def arrayMap (p : Params) : List (Nat × Nat × (Nat → Target)) := [
  (0x040, 32, .key), (0x060, 16, .a), (0x070, 16, .b), (0x080, 16, .r),
  (Buf.nonce.base, Buf.nonce.size p, .buf .nonce), (Buf.sched.base, Buf.sched.size p, .buf .sched),
  (Buf.aad.base, Buf.aad.size p, .buf .aad), (Buf.input.base, Buf.input.size p, .buf .input),
  (Buf.output.base, Buf.output.size p, .buf .output)]

/-- The register at offset `x` inside a slot's 0x40 bytes; +0x08 to +0x1C are unmapped (R54, R104). -/
def slotMap (n x : Nat) : Option Target :=
  if x = 0x00 then some (.krTag n)
  else if x = 0x04 then some (.krCfg n)
  else if 0x20 ≤ x then some (.krKey n ((x - 0x20) / 4))
  else none

/-- The target at a 4-byte-aligned offset, `none` where nothing is mapped (R60, R104). -/
def regMap (p : Params) (off : Nat) : Option Target :=
  match scalarMap.lookup off with
  | some t => some t
  | none =>
    if 0x200 ≤ off ∧ off < 0x200 + 0x40 * p.krSlots then slotMap ((off - 0x200) / 0x40) ((off - 0x200) % 0x40)
    else
      (arrayMap p).findSome? fun row =>
        if row.1 ≤ off ∧ off < row.1 + row.2.1 then some (row.2.2 ((off - row.1) / 4)) else none

/-- The table of R60 read the other way: the offset at which each register, or word of an array, stands on the instance;
`none` where the index names nothing. Written apart from `regMap`, with the table's own numbers, so that the two can be held
against each other. -/
def offsetOf (p : Params) : Target → Option Nat
  | .id => some 0x000
  | .ctrl => some 0x004
  | .cmd => some 0x008
  | .status => some 0x00C
  | .keycfg => some 0x010
  | .aadLen => some 0x014
  | .inLen => some 0x018
  | .nonceLen => some 0x01C
  | .outLen => some 0x020
  | .sizeArg => some 0x024
  | .result => some 0x028
  | .schedInfo => some 0x02C
  | .params => some 0x030
  | .key n => if n < 8 then some (0x040 + 4 * n) else none
  | .a n => if n < 4 then some (0x060 + 4 * n) else none
  | .b n => if n < 4 then some (0x070 + 4 * n) else none
  | .r n => if n < 4 then some (0x080 + 4 * n) else none
  | .krTag s => if s < p.krSlots then some (0x200 + 0x40 * s) else none
  | .krCfg s => if s < p.krSlots then some (0x204 + 0x40 * s) else none
  | .krKey s n => if s < p.krSlots ∧ n < 8 then some (0x220 + 0x40 * s + 4 * n) else none
  | .buf .nonce n => if n < 16 then some (0x100 + 4 * n) else none
  | .buf .sched n => if n < 60 then some (0x600 + 4 * n) else none
  | .buf .aad n => if 4 * n < p.bufBytes then some (0x1000 + 4 * n) else none
  | .buf .input n => if 4 * n < p.bufBytes then some (0x2000 + 4 * n) else none
  | .buf .output n => if 4 * n < p.bufBytes then some (0x3000 + 4 * n) else none

/-- Word n of a byte array in lane order (R100). -/
def State.bufWord (s : State) (x : Buf) (n : Nat) : Word :=
  wordOfLanes (s.mem.readByte (x.base + 4 * n)) (s.mem.readByte (x.base + 4 * n + 1))
    (s.mem.readByte (x.base + 4 * n + 2)) (s.mem.readByte (x.base + 4 * n + 3))

/-- The value a host read of a target returns while BUSY = 0 (R60). Write-only registers read 0 (R59). -/
def State.readTarget (s : State) : Target → Word
  | .id => idWord
  | .ctrl => s.ctrl.toWord
  | .cmd => s.cmd
  | .status => s.statusWord
  | .keycfg => s.keyCfg.toWord
  | .aadLen => s.aadLen
  | .inLen => s.inLen
  | .nonceLen => s.nonceLen
  | .outLen => s.outLen
  | .sizeArg => s.sizeArg
  | .result => s.result
  | .schedInfo => schedInfoWord s.schedInfo
  | .params => paramsWord s.params
  | .key _ => 0
  | .a n => laneWord s.a n
  | .b n => laneWord s.b n
  | .r n => laneWord s.r n
  | .krTag n => (s.slot n).tag.setWidth 32
  | .krCfg n => (s.slot n).cfg.toWord
  | .krKey _ _ => 0
  | .buf x n => s.bufWord x n

/-- The targets a host can read while a command runs (R105). -/
def Target.readableBusy : Target → Bool
  | .id => true
  | .ctrl => true
  | .cmd => true
  | .status => true
  | .params => true
  | .keycfg => false
  | .aadLen => false
  | .inLen => false
  | .nonceLen => false
  | .outLen => false
  | .sizeArg => false
  | .result => false
  | .schedInfo => false
  | .key _ => false
  | .a _ => false
  | .b _ => false
  | .r _ => false
  | .krTag _ => false
  | .krCfg _ => false
  | .krKey _ _ => false
  | .buf _ _ => false

/-- The state after a host write of `w` to word n of a byte array: OUT and SCHED are read-only (R52, R53, R59). -/
def State.writeBufWord (s : State) (x : Buf) (n : Nat) (w : Word) : State :=
  match x with
  | .aad => s.memWrite .aad (4 * n) (lanes w)
  | .input => s.memWrite .input (4 * n) (lanes w)
  | .nonce => s.memWrite .nonce (4 * n) (lanes w)
  | .output => s
  | .sched => s

/-- The state after slot n is changed by `f`; a slot that does not exist is not changed. -/
def State.updateSlot (s : State) (n : Nat) (f : Slot → Slot) : State := { s with ring := s.ring.modify n f }

/-- The state after a host write of `w` to a target while BUSY = 0 (R60). Reserved bits ignore the write and a write
to a read-only target has no effect (R59). -/
def State.writeTarget (s : State) (w : Word) : Target → State
  | .id => s
  | .ctrl => { s with ctrl := Ctrl.ofWord w }
  | .cmd => s.accept w
  | .status => s.writeStatus w
  | .keycfg => { s with keyCfg := KeyCfg.ofWord w }
  | .aadLen => { s with aadLen := w }
  | .inLen => { s with inLen := w }
  | .nonceLen => { s with nonceLen := w }
  | .outLen => s
  | .sizeArg => { s with sizeArg := w }
  | .result => s
  | .schedInfo => s
  | .params => s
  | .key n => { s with keyReg := s.keyReg.setIfInBounds n w }
  | .a n => { s with a := setLaneWord s.a n w }
  | .b n => { s with b := setLaneWord s.b n w }
  | .r _ => s
  | .krTag n => s.updateSlot n fun x => { x with tag := w.extractLsb' 0 24 }
  | .krCfg n => s.updateSlot n fun x => { x with cfg := KeyCfg.ofWord w }
  | .krKey n k => s.updateSlot n fun x => { x with key := x.key.setIfInBounds k w }
  | .buf x n => s.writeBufWord x n w

/-- A host read of a mapped target: while BUSY = 1 only ID, CTRL, CMD, STATUS and PARAMS are readable and every other
target reads 0 (R105). -/
def State.hostRead (s : State) (t : Target) : Word :=
  if s.busy && !t.readableBusy then 0 else s.readTarget t

/-- A host write to a mapped target: while BUSY = 1 only a write to STATUS is performed, every other one is dropped
and sets STATUS.OVR (R105). -/
def State.hostWrite (s : State) (w : Word) (t : Target) : State :=
  if s.busy && !decide (t = .status) then s.dropWrite else s.writeTarget w t

/-- The target of an access at window offset `off`: `none` (a bus error) for a width other than 32 bits, an offset that
is not a multiple of 4 (R103) or an unmapped one (R104). Bus errors come before the busy-time rule (R105). -/
def accessTarget (p : Params) (off : Nat) : AccessWidth → Option Target
  | .bits8 => none
  | .bits16 => none
  | .bits32 => if off % 4 = 0 then regMap p off else none

/-- One host access at window offset `off` (R103-R106): a bus error changes no state of the core. -/
def State.hostAccess (s : State) (off : Nat) (width : AccessWidth) (op : AccessOp) : State :=
  match accessTarget s.params off width with
  | none => { s with response := some .busError }
  | some t =>
    match op with
    | .read => { s with response := some (.value (s.hostRead t)) }
    | .write w => { s.hostWrite w t with response := some .written }

/-- A host access on the bus: one outside the window is not this core's and changes nothing (R102). -/
def State.busEvent (s : State) (x : Access) : State :=
  match busOffset s.params x.addr with
  | none => s
  | some off => s.hostAccess off x.width x.op

end Sys2Proof.Machine
end

