-- ==== Sys2Proof/Machine/Control.lean ====
section
/-! DEFINITION. The housekeeping commands NOP (R324) and ZEROIZE (R325). -/

namespace Sys2Proof.Machine

/-- `MemWrite(BUF, 0, size, zeros(size))` for each byte array, in the order of R325. -/
def clearedArrays (p : Params) (m : Memory) : Memory :=
  [Buf.aad, .input, .output, .nonce, .sched].foldl (fun m x => m.writeBytes x.base (zeros (x.size p))) m

/-- The writes of ZEROIZE before completion (R325). CTRL, CMD, STATUS.OVR, ID and PARAMS are kept. -/
def State.zeroizeAll (s : State) : State :=
  { s with
    mem := clearedArrays s.params s.mem
    keyReg := Vector.replicate 8 0
    keyCfg := KeyCfg.zero
    a := 0
    b := 0
    r := 0
    aadLen := 0
    inLen := 0
    nonceLen := 0
    outLen := 0
    sizeArg := 0
    result := 0
    schedInfo := none
    ring := s.ring.map fun _ => Slot.zero }

/-- NOP (R324). -/
def execNop (s : State) : Host.Outcome State Fault Refusal := .next (s.finish .nop .ok)

/-- ZEROIZE (R325). -/
def execZeroize (s : State) : Host.Outcome State Fault Refusal := .next (s.zeroizeAll.finish .zeroize .ok)

end Sys2Proof.Machine
end

