-- ==== Sys2Proof/Machine/Galois.lean ====
section
/-! DEFINITION. GF(2^8) and GF(2^128) (R160-R165) and the commands GF8_XTIME, GF8_MUL, GF128_HALVE, GF128_MUL
(R166-R169). -/

namespace Sys2Proof.Machine

/-- `xtime(b)`, doubling in GF(2^8) (R160). -/
def xtime (x : Byte) : Byte := (x <<< 1) ^^^ (if x.getLsbD 7 then 0x1b else 0x00)

/-- `gf8_mul(a, b)`: double and add, scanning `b` from its most significant bit (R161). -/
def gf8Mul (x y : Byte) : Byte :=
  [7, 6, 5, 4, 3, 2, 1, 0].foldl
    (fun acc i => if y.getLsbD i then xtime acc ^^^ x else xtime acc) 0x00

/-- `halve(V)`, the source's divideByTwo (R164): shift right by one, then XOR 0xe1 into byte 0 if a 1 fell out. -/
def halve (v : Block) : Block := (v >>> 1) ^^^ (if v.getLsbD 0 then 0xe1#8 ++ 0#120 else 0#128)

/-- `bit(X, i)` of R163: bit 0 is the most significant bit of byte 0. -/
def blockBit (x : Block) (i : Nat) : Bool := x.getMsbD i

/-- One pass of the loop of R165: (Z, V) after bit i of X. -/
def mulStep (x : Block) (zv : Block × Block) (i : Nat) : Block × Block :=
  (if blockBit x i then zv.1 ^^^ zv.2 else zv.1, halve zv.2)

/-- `mulGF128(X, Y)` (R165). -/
def mulGF128 (x y : Block) : Block := ((List.range 128).foldl (mulStep x) (0, y)).1

/-- GF8_XTIME (R166): `x[R] <- xtime(x[A][0]) || zeros(15)`. -/
def execGf8Xtime (s : State) : Host.Outcome State Fault Refusal :=
  .next ((s.setR (xtime (blockByte s.a 0) ++ 0#120)).finish .gf8Xtime .ok)

/-- GF8_MUL (R167): `x[R] <- gf8_mul(x[A][0], x[B][0]) || zeros(15)`. -/
def execGf8Mul (s : State) : Host.Outcome State Fault Refusal :=
  .next ((s.setR (gf8Mul (blockByte s.a 0) (blockByte s.b 0) ++ 0#120)).finish .gf8Mul .ok)

/-- GF128_HALVE (R168): `x[R] <- halve(x[A])`. -/
def execGf128Halve (s : State) : Host.Outcome State Fault Refusal :=
  .next ((s.setR (halve s.a)).finish .gf128Halve .ok)

/-- GF128_MUL (R169): `x[R] <- mulGF128(x[A], x[B])`. -/
def execGf128Mul (s : State) : Host.Outcome State Fault Refusal :=
  .next ((s.setR (mulGF128 s.a s.b)).finish .gf128Mul .ok)

end Sys2Proof.Machine
end

