-- ==== Sys2Proof/Machine/Rijndael.lean ====
section
/-! DEFINITION. The forward Rijndael cipher (R180-R191, R197) and the commands EXPAND_KEY and ENCRYPT_BLOCK (R195, R196). -/

namespace Sys2Proof.Machine

/-- The table of R180, one 16-byte row per high nibble; the leftmost byte of a row is column 0. -/
def sboxRows : List Block := [
  0x637c777bf26b6fc53001672bfed7ab76,
  0xca82c97dfa5947f0add4a2af9ca472c0,
  0xb7fd9326363ff7cc34a5e5f171d83115,
  0x04c723c31896059a071280e2eb27b275,
  0x09832c1a1b6e5aa0523bd6b329e32f84,
  0x53d100ed20fcb15b6acbbe394a4c58cf,
  0xd0efaafb434d338545f9027f503c9fa8,
  0x51a3408f929d38f5bcb6da2110fff3d2,
  0xcd0c13ec5f974417c4a77e3d645d1973,
  0x60814fdc222a908846eeb814de5e0bdb,
  0xe0323a0a4906245cc2d3ac629195e479,
  0xe7c8376d8dd54ea96c56f4ea657aae08,
  0xba78252e1ca6b4c6e8dd741f4bbd8b8a,
  0x703eb5664803f60e613557b986c11d9e,
  0xe1f8981169d98e949b1e87e9ce5528df,
  0x8ca1890dbfe6426841992d0fb054bb16]

/-- `SBOX[0x10*hi + lo]`: row `hi`, column `lo` (R180). -/
def sbox (x : Byte) : Byte := blockByte (sboxRows.getD (x.toNat / 16) 0) (x.toNat % 16)

/-! ### The round transform; byte r + 4c of a Block is row r, column c (R10) -/

/-- `SubBytes(s)` (R181). -/
def subBytes (x : Block) : Block := blockOfFn fun j => sbox (blockByte x j)

/-- `ShiftRows(s)[r + 4c] = s[r + 4*((c + r) mod 4)]` (R182). -/
def shiftRows (x : Block) : Block := blockOfFn fun j => blockByte x (j % 4 + 4 * ((j / 4 + j % 4) % 4))

/-- `m2(x)` of R183. -/
def m2 (x : Byte) : Byte := xtime x

/-- `m3(x)` of R183. -/
def m3 (x : Byte) : Byte := xtime x ^^^ x

/-- Row r of a mixed column `a0 a1 a2 a3` (R183). -/
def mixColumnByte (a0 a1 a2 a3 : Byte) : Nat → Byte
  | 0 => m2 a0 ^^^ m3 a1 ^^^ a2 ^^^ a3
  | 1 => a0 ^^^ m2 a1 ^^^ m3 a2 ^^^ a3
  | 2 => a0 ^^^ a1 ^^^ m2 a2 ^^^ m3 a3
  | _ => m3 a0 ^^^ a1 ^^^ a2 ^^^ m2 a3

/-- `MixColumns(s)` (R183): each column from that column alone. -/
def mixColumns (x : Block) : Block :=
  blockOfFn fun j =>
    mixColumnByte (blockByte x (4 * (j / 4))) (blockByte x (4 * (j / 4) + 1)) (blockByte x (4 * (j / 4) + 2))
      (blockByte x (4 * (j / 4) + 3)) (j % 4)

/-- `AddRoundKey(s, k)`, byte by byte (R184), on two Blocks. -/
def addRoundKey (x k : Block) : Block := x ^^^ k

/-- Round key r of a schedule, `sched[16r .. 16r+16)` (R184, R188). -/
def roundKey (sched : List Byte) (r : Nat) : Block := blockOfBytes (slice sched (16 * r) 16)

/-- Iteration r of the loop of R190, of `nr`: no MixColumns in the last one. -/
def cipherRound (sched : List Byte) (nr : Nat) (x : Block) (r : Nat) : Block :=
  let y := shiftRows (subBytes (addRoundKey x (roundKey sched r)))
  if r = nr - 1 then y else mixColumns y

/-- `encryptBlock(sched, in)` with `Nr = len(sched)/16 - 1` (R190). -/
def encryptBlock (sched : List Byte) (x : Block) : Block :=
  let nr := sched.length / 16 - 1
  addRoundKey ((List.range nr).foldl (cipherRound sched nr) x) (roundKey sched nr)

/-! ### The key schedule. A 4-byte word is held with its byte 0 most significant. -/

/-- `RotWord(t) = (t[1], t[2], t[3], t[0])` (R186). -/
def rotWord (t : BitVec 32) : BitVec 32 := t.rotateLeft 8

/-- `SubWord(t)` (R186). -/
def subWord (t : BitVec 32) : BitVec 32 :=
  sbox (t.extractLsb' 24 8) ++ sbox (t.extractLsb' 16 8) ++ sbox (t.extractLsb' 8 8) ++ sbox (t.extractLsb' 0 8)

/-- `w[i] = key[4i .. 4i+4)` for i in 0 ..< Nk (R186). -/
def keyWord (key : List Byte) (i : Nat) : BitVec 32 := BitVec.ofNat 32 (intBe (slice key (4 * i) 4))

/-- The loop of R186 from word i on, `n` words; `ws` holds the words so far, the latest first, so `w[i-1]` is its head
and `w[i-Nk]` its entry Nk - 1. -/
def expandLoop (nk : Nat) : Nat → Nat → Byte → List (BitVec 32) → List (BitVec 32)
  | 0, _, _, ws => ws
  | n + 1, i, rcon, ws =>
    let t := ws.headD 0
    let back := ws.getD (nk - 1) 0
    if i % nk = 0 then
      expandLoop nk n (i + 1) (xtime rcon) ((back ^^^ (subWord (rotWord t) ^^^ (rcon ++ 0#24))) :: ws)
    else if nk = 8 ∧ i % nk = 4 then
      expandLoop nk n (i + 1) rcon ((back ^^^ subWord t) :: ws)
    else
      expandLoop nk n (i + 1) rcon ((back ^^^ t) :: ws)

/-- The words `w[0] .. w[4*Nr + 3]` of the schedule (R186). -/
def expandWords (k : KeySize) (key : List Byte) : List (BitVec 32) :=
  (expandLoop k.nk (4 * (k.nr + 1) - k.nk) k.nk 0x01 ((List.range k.nk).map (keyWord key)).reverse).reverse

/-- `expandKey(key)`: `w[0] || w[1] || ... || w[4*Nr + 3]` (R186, R188). -/
def expandKey (key : Key) : List Byte := (expandWords key.size key.bytes).flatMap fun w => beBytes 4 w.toNat

/-- The GHASH key `H = Encrypt(zero-block)` (R191, R243, R261). -/
def hashKey (sched : List Byte) : Block := encryptBlock sched 0

/-! ### The commands -/

/-- EXPAND_KEY (R195). -/
def execExpandKey (s : State) : Host.Outcome State Fault Refusal :=
  match s.keyFromReg with
  | none => .next (s.raise .expandKey .invalidKeyMaterial)
  | some key => .next ((s.storeSchedule key.size (expandKey key)).finish .expandKey .ok)

/-- ENCRYPT_BLOCK (R196). -/
def execEncryptBlock (s : State) : Host.Outcome State Fault Refusal :=
  match s.schedInfo with
  | none => .next (s.raise .encryptBlock .invalidKeyMaterial)
  | some k => .next ((s.setR (encryptBlock (s.schedBytes k) s.a)).finish .encryptBlock .ok)

end Sys2Proof.Machine
end

