-- ==== Sys2Proof/Machine/CounterMode.lean ====
section
/-! DEFINITION. The counter and the keystream XOR (R220-R224) and the command CTR (R225). -/

namespace Sys2Proof.Machine

/-- `inc128(C)`: the whole Block as one big-endian integer, plus one, modulo 2^128 (R220). -/
def inc128 (c : Block) : Block := c + 1#128

/-- The first counter of `ctr_apply` (R221, R222). -/
def firstCounter (c0 : Block) : CounterPolicy → Block
  | .none => c0
  | .preIncrement => inc128 c0

/-- One chunk XORed with the first bytes of its keystream block (R221). -/
def ctrChunk (sched : List Byte) (c : Block) (chunk : List Byte) : List Byte :=
  xorBytes chunk ((bytesOfBlock (encryptBlock sched c)).take chunk.length)

/-- The loop of R221 over the chunks: the output bytes and the counter after the last increment. -/
def ctrChunks (sched : List Byte) : Block → List (List Byte) → List Byte × Block
  | c, [] => ([], c)
  | c, chunk :: rest =>
    let tail := ctrChunks sched (inc128 c) rest
    (ctrChunk sched c chunk ++ tail.1, tail.2)

/-- `ctr_apply(sched, C0, pol, data)` (R221, R223). -/
def ctrApply (sched : List Byte) (c0 : Block) (pol : CounterPolicy) (data : List Byte) : List Byte × Block :=
  ctrChunks sched (firstCounter c0 pol) (chunks data)

/-- CTR (R225). -/
def execCtr (pol : CounterPolicy) (s : State) : Host.Outcome State Fault Refusal :=
  if s.inTooLong then .next (s.raise (.ctr pol) .lengthError)
  else
    match s.schedInfo with
    | none => .next (s.raise (.ctr pol) .invalidKeyMaterial)
    | some k =>
      let res := ctrApply (s.schedBytes k) s.a pol s.inBytes
      .next (((s.writeOut res.1).setR res.2).finish (.ctr pol) .ok)

end Sys2Proof.Machine
end

