-- ==== Sys2Proof/Machine/Ghash.lean ====
section
/-! DEFINITION. The GHASH tag pipeline (R240-R244) and the command GHASH (R245). -/

namespace Sys2Proof.Machine

/-- One block folded into the accumulator: XOR, then multiply by H (R240). -/
def ghashBlock (h : Block) (acc : Block) (chunk : List Byte) : Block := mulGF128 (acc ^^^ padBlock chunk) h

/-- The data item `data` folded into the accumulator, partial last block zero-padded; an empty item folds nothing in
(R240, R241). -/
def ghashData (h : Block) (acc : Block) (data : List Byte) : Block := (chunks data).foldl (ghashBlock h) acc

/-- The length block `be_8(8 * len(aad)) || be_8(8 * len(ct))` (R242). -/
def lengthBlock (aadLen ctLen : Nat) : Block :=
  blockOfBytes (beBytes 8 (8 * aadLen) ++ beBytes 8 (8 * ctLen))

/-- `ghash(H, aad, ct, acc0)` (R240). -/
def ghash (h : Block) (aad ct : List Byte) (acc0 : Block) : Block :=
  mulGF128 (ghashData h (ghashData h acc0 aad) ct ^^^ lengthBlock aad.length ct.length) h

/-- GHASH (R245): A is H, B the initial accumulator. -/
def execGhash (s : State) : Host.Outcome State Fault Refusal :=
  if s.aadTooLong ∨ s.inTooLong then .next (s.raise .ghash .lengthError)
  else .next ((s.setR (ghash s.a s.aadBytes s.inBytes s.b)).finish .ghash .ok)

end Sys2Proof.Machine
end

