-- ==== Sys2Proof/Machine/Gcm.lean ====
section
/-! DEFINITION. AES-GCM authenticated encryption and decryption (R260-R267) and the commands GCM_ENCRYPT and GCM_DECRYPT
(R270, R271). -/

namespace Sys2Proof.Machine

/-- `derive_j0(H, nonce)` (R262): the fast path for 12 bytes, GHASH for every other length, 0 included. -/
def deriveJ0 (h : Block) (nonce : List Byte) : Block :=
  if nonce.length = 12 then blockOfBytes (nonce ++ [0x00, 0x00, 0x00, 0x01]) else ghash h [] nonce 0

/-- ComputeTag of R263 and R265: `encryptBlock(sched, J0) xor ghash(H, A, C, zeros(16))`. -/
def gcmTag (sched : List Byte) (j0 : Block) (aad ct : List Byte) : Block :=
  encryptBlock sched j0 ^^^ ghash (hashKey sched) aad ct 0

/-- `gcm_encrypt(key, nonce, P, A) -> (C, T)` (R263). -/
def gcmEncrypt (key : Key) (nonce pt aad : List Byte) : List Byte × Block :=
  let sched := expandKey key
  let j0 := deriveJ0 (hashKey sched) nonce
  let ct := (ctrApply sched j0 .preIncrement pt).1
  (ct, gcmTag sched j0 aad ct)

/-- `tag_equal(E, T)` (R266): all 16 bytes equal, whatever CTRL.CT_CMP is (R33). -/
def tagEqual (e t : Block) : Bool := decide (e = t)

/-- `gcm_decrypt(key, nonce, C, A, T)` (R265), verify then decrypt; `none` is AUTHENTICATION_FAILURE. -/
def gcmDecrypt (key : Key) (nonce ct aad : List Byte) (t : Block) : Option (List Byte) :=
  let sched := expandKey key
  let j0 := deriveJ0 (hashKey sched) nonce
  if tagEqual (gcmTag sched j0 aad ct) t then some (ctrApply sched j0 .preIncrement ct).1 else none

/-- GCM_ENCRYPT (R270). -/
def execGcmEncrypt (s : State) : Host.Outcome State Fault Refusal :=
  if s.aadTooLong ∨ s.inTooLong ∨ s.nonceTooLong then .next (s.raise .gcmEncrypt .lengthError)
  else
    match s.keyFromReg with
    | none => .next (s.raise .gcmEncrypt .invalidKeyMaterial)
    | some key =>
      let res := gcmEncrypt key s.nonceBytes s.inBytes s.aadBytes
      .next ((((s.storeSchedule key.size (expandKey key)).writeOut res.1).setR res.2).finish .gcmEncrypt .ok)

/-- GCM_DECRYPT (R271). The schedule is written before the tag check. -/
def execGcmDecrypt (s : State) : Host.Outcome State Fault Refusal :=
  if s.aadTooLong ∨ s.inTooLong ∨ s.nonceTooLong then .next (s.raise .gcmDecrypt .lengthError)
  else
    match s.keyFromReg with
    | none => .next (s.raise .gcmDecrypt .invalidKeyMaterial)
    | some key =>
      match gcmDecrypt key s.nonceBytes s.inBytes s.aadBytes s.b with
      | none =>
        .next ((s.storeSchedule key.size (expandKey key)).raise .gcmDecrypt .authenticationFailure)
      | some pt =>
        .next ((((s.storeSchedule key.size (expandKey key)).writeOut pt).setR 0).finish .gcmDecrypt .ok)

end Sys2Proof.Machine
end

