-- ==== Sys2Proof/Machine/Envelope.lean ====
section
/-! DEFINITION. The versioned envelope (R290-R299, R302) and the commands ENV_ENCODE, ENV_DECODE, SIZE_FOR_CT and
SIZE_FOR_PT (R300, R301, R303, R304). -/

namespace Sys2Proof.Machine

/-- The envelope overhead `3 + 12 + 16` (R7, R290, R293): also the minimum envelope length. -/
def envOverhead : Nat := 31

/-- `env_encode(tag3, key, P)` with its nonce draw as an argument (R298): `tag3 || nonce || C || T`, empty AAD
(R292). -/
def envEncode (tag : BitVec 24) (key : Key) (nonce : Nonce) (pt : List Byte) : List Byte :=
  let res := gcmEncrypt key (nonceToBytes nonce) pt []
  tagBytes tag ++ nonceToBytes nonce ++ res.1 ++ bytesOfBlock res.2

/-- The tag bytes of an envelope, `env[0 .. 3)` (R290). -/
def envTag (env : List Byte) : BitVec 24 := tagOfBytes (slice env 0 3)

/-- The last step of `env_decode(env)` (R299) with the key of the matched slot: slice the fields of R290 and decrypt
with empty AAD (R292). -/
def envOpen (key : Key) (env : List Byte) : Option (List Byte) :=
  gcmDecrypt key (slice env 3 12) (slice env 15 (env.length - envOverhead)) []
    (blockOfBytes (slice env (env.length - 16) 16))

/-- `sizeForCiphertext(p) = p + 31` (R302). -/
def sizeForCiphertext (p : Word) : Word := p + 31

/-- `sizeForPlaintext(x) = x - 31`, defined for x >= 31 (R302). -/
def sizeForPlaintext (x : Word) : Word := x - 31

/-- ENV_ENCODE (R300). SLOT >= KR_SLOTS is an illegal word (R132, R134); `decode` never yields it, and the command
then completes as one. -/
def execEnvEncode (slot : Fin 16) (s : State) : Host.Outcome State Fault Refusal :=
  if s.params.krSlots ≤ slot.val then .next s.illegal
  else if s.params.bufBytes - envOverhead < s.inLen.toNat then .next (s.raise (.envEncode slot) .lengthError)
  else
    match (s.slot slot.val).keyOperand with
    | none => .next (s.raise (.envEncode slot) .invalidKeyMaterial)
    | some key =>
      let env := envEncode (s.slot slot.val).tag key s.nextNonce s.inBytes
      .next ((((s.storeSchedule key.size (expandKey key)).advanceRng.writeOut env).setR 0).finish
        (.envEncode slot) .ok)

/-- ENV_DECODE (R301). -/
def execEnvDecode (s : State) : Host.Outcome State Fault Refusal :=
  if s.inTooLong then .next (s.raise .envDecode .lengthError)
  else if s.inLen.toNat < envOverhead then .next (s.raise .envDecode .malformedEnvelope)
  else
    match lookupSlot s.ring (envTag s.inBytes) with
    | none => .next (s.raise .envDecode .unknownKeyVersion)
    | some slot =>
      match slot.keyOperand with
      | none => .next (s.raise .envDecode .invalidKeyMaterial)
      | some key =>
        match envOpen key s.inBytes with
        | none =>
          .next ((s.storeSchedule key.size (expandKey key)).raise .envDecode .authenticationFailure)
        | some pt =>
          .next ((((s.storeSchedule key.size (expandKey key)).writeOut pt).setR 0).finish .envDecode .ok)

/-- SIZE_FOR_CT (R303): LENGTH_ERROR when the sum does not fit in 32 bits. -/
def execSizeForCt (s : State) : Host.Outcome State Fault Refusal :=
  if 2 ^ 32 - 1 - envOverhead < s.sizeArg.toNat then .next (s.raise .sizeForCt .lengthError)
  else .next ((s.setResult (sizeForCiphertext s.sizeArg)).finish .sizeForCt .ok)

/-- SIZE_FOR_PT (R304): MALFORMED_ENVELOPE below the minimum envelope length. -/
def execSizeForPt (s : State) : Host.Outcome State Fault Refusal :=
  if s.sizeArg.toNat < envOverhead then .next (s.raise .sizeForPt .malformedEnvelope)
  else .next ((s.setResult (sizeForPlaintext s.sizeArg)).finish .sizeForPt .ok)

end Sys2Proof.Machine
end

