-- ==== Sys2Proof/Machine/Dispatch.lean ====
section
/-! DEFINITION. Dispatch of a decoded command to its meaning (R321). -/

namespace Sys2Proof.Machine

def exec (i : Instr) (s : State) : Host.Outcome State Fault Refusal :=
  match i with
  | .nop => Sys2Proof.Machine.execNop s
  | .expandKey => Sys2Proof.Machine.execExpandKey s
  | .encryptBlock => Sys2Proof.Machine.execEncryptBlock s
  | .gf8Xtime => Sys2Proof.Machine.execGf8Xtime s
  | .gf8Mul => Sys2Proof.Machine.execGf8Mul s
  | .gf128Halve => Sys2Proof.Machine.execGf128Halve s
  | .gf128Mul => Sys2Proof.Machine.execGf128Mul s
  | .ctr pol => Sys2Proof.Machine.execCtr pol s
  | .ghash => Sys2Proof.Machine.execGhash s
  | .gcmEncrypt => Sys2Proof.Machine.execGcmEncrypt s
  | .gcmDecrypt => Sys2Proof.Machine.execGcmDecrypt s
  | .envEncode slot => Sys2Proof.Machine.execEnvEncode slot s
  | .envDecode => Sys2Proof.Machine.execEnvDecode s
  | .sizeForCt => Sys2Proof.Machine.execSizeForCt s
  | .sizeForPt => Sys2Proof.Machine.execSizeForPt s
  | .zeroize => Sys2Proof.Machine.execZeroize s

end Sys2Proof.Machine
end

