-- ==== Sys2Proof/Machine/Step.lean ====
section
/-! DEFINITION. One step of the machine: the next event of the environment's schedule (R107, R322, R381). -/

namespace Sys2Proof.Machine

/-- The engine step (R321, R322): the running command's word is decoded and its whole pseudocode runs. Nothing
happens while the core is idle. -/
def engineStep (s : State) : Host.Outcome State Fault Refusal :=
  match s.seq with
  | .idle => .next s
  | .running w =>
    match decode s.params.krSlots w with
    | .error _ => .next s.illegal
    | .ok i => exec i s

/-- One step (R107): the oldest event of the schedule happens. With no event left the engine goes on by itself, so
that a running command always completes (R328), and an idle core stays as it is (R365). -/
def step (s : State) : Host.Outcome State Fault Refusal :=
  match s.schedule with
  | [] => engineStep s
  | .engine :: rest => engineStep { s with schedule := rest }
  | .bus x :: rest => .next ({ s with schedule := rest }.busEvent x)
  | .reset :: rest => .next ({ s with schedule := rest }.resetPulse)

/-- `s` with the command word `w` accepted (R320) and the engine's turn next: the core fetches nothing (R112), so its
next instruction is the word in CMD, and the very next step runs it. -/
def State.withFetchWord (s : State) (nbits w : Nat) : State :=
  { s.accept (BitVec.ofNat 32 (w % 2 ^ nbits)) with schedule := .engine :: s.schedule }

end Sys2Proof.Machine
end

