-- ==== Sys2Proof/Machine/HostSequence.lean ====
section
/-! DEFINITION. Host sequences (R137, R138): the accesses a statement makes, the expansions of the pseudo-statements, and
what a read asserts. -/

namespace Sys2Proof.Machine

/-- A 32-bit host access at a window offset. -/
def Access.word (p : Params) (off : Nat) (op : AccessOp) : Access :=
  { addr := p.base + off, width := .bits32, op := op }

/-- The access a statement of R137 makes; a POLL repeats its one. -/
def stmtAccess (p : Params) : HostStmt → Access
  | .wr off val => Access.word p off (.write val)
  | .rd off => Access.word p off .read
  | .rdExpect off _ => Access.word p off .read
  | .poll off _ _ => Access.word p off .read

/-- The events of a statement with the engine's step at the first poll (R137). A POLL is written with one engine step
and one read, one of the interleavings R322 allows (log 9). -/
def stmtEvents (p : Params) (x : HostStmt) : List Event :=
  match x with
  | .wr _ _ => [.bus (stmtAccess p x)]
  | .rd _ => [.bus (stmtAccess p x)]
  | .rdExpect _ _ => [.bus (stmtAccess p x)]
  | .poll _ _ _ => [.engine, .bus (stmtAccess p x)]

/-- Whether the response of a statement's access is what the statement asks for: the expected value of a
`RD == `, the condition of a POLL, an answer without a bus error otherwise (R137). -/
def stmtMet (x : HostStmt) (resp : Option BusResult) : Bool :=
  match x, resp with
  | .rdExpect _ val, some (.value w) => decide (w = val)
  | .poll _ mask val, some (.value w) => decide (w &&& mask = val)
  | .rd _, some (.value _) => true
  | .wr _ _, some .written => true
  | _, _ => false

/-- The bus words that hold a byte sequence in lane order, the last one zero-padded (R100, R138), `n` of them. -/
def laneWords : Nat → List Byte → List Word
  | 0, _ => []
  | n + 1, s => wordOfLanes (s.getD 0 0) (s.getD 1 0) (s.getD 2 0) (s.getD 3 0) :: laneWords n (s.drop 4)

/-- `WR` of each word of a byte sequence from offset `off` on (R138). -/
def writeWords (off : Nat) (bytes : List Byte) : List HostStmt :=
  (laneWords ((bytes.length + 3) / 4) bytes).zipIdx.map fun x => .wr (off + 4 * x.2) x.1

/-- Where a load of R138 puts its bytes. -/
def loadOffset : LoadTarget → Nat
  | .blockA => 0x060
  | .blockB => 0x070
  | .bufAad => 0x1000
  | .bufIn => 0x2000
  | .bufNonce => 0x100

/-- The length register a load of R138 writes last; a Block has none. -/
def loadLengthOffset : LoadTarget → Option Nat
  | .blockA => none
  | .blockB => none
  | .bufAad => some 0x014
  | .bufIn => some 0x018
  | .bufNonce => some 0x01C

/-- The expansion of a pseudo-statement (R138). -/
def expandPseudo : PseudoStmt → List HostStmt
  | .cmd i => [.wr 0x008 (encode i)]
  | .wait => [.poll 0x00C 0x00000001 0x00000000]
  | .check code => [.rdExpect 0x00C (0#24 ++ code ++ 2#4)]
  | .ldKey keylen bytes => writeWords 0x040 bytes ++ [.wr 0x010 (0x80000000 ||| keylen.setWidth 32)]
  | .load t bytes =>
    writeWords (loadOffset t) bytes ++
      match loadLengthOffset t with
      | some off => [.wr off (BitVec.ofNat 32 bytes.length)]
      | none => []
  | .clr => [.wr 0x00C 0x00000006]

end Sys2Proof.Machine
end

