-- ==== Sys2Proof/Safety.lean ====
section
/-! DEFINITION. What holds of the core in every state it can be in: the invariant claims are stated with. -/

namespace Sys2Proof.Machine

/-- Every listed byte lies inside one of the instance's byte arrays (R52, R53, R104). -/
abbrev Memory.inArrays (p : Params) (m : Memory) : Prop :=
  ∀ c ∈ m, ∃ x : Buf, x.base ≤ c.1 ∧ c.1 < x.base + x.size p

/-- SCHED_INFO tells the truth about SCHED (R48, R53): VALID = 0 with SCHED all zero, or VALID = 1 with the schedule of
some key of that size followed by zero bytes to offset 239. -/
abbrev State.schedTruthful (s : State) : Prop :=
  match s.schedInfo with
  | none => s.memRead .sched 0 240 = zeros 240
  | some k =>
    ∃ key : Key, key.size = k ∧ key.bytes.length = k.keyBytes ∧
      s.memRead .sched 0 240 = expandKey key ++ zeros (240 - (expandKey key).length)

/-- While a command runs, the sequencer's word is CMD, and DONE = 0, ERR = 0 (R36, R37, R320). -/
abbrev State.runningMatchesCmd (s : State) : Prop :=
  ∀ w, s.seq = .running w → s.cmd = w ∧ s.status.done = false ∧ s.status.err = .ok

/-- The machine's invariant. -/
structure State.Inv (s : State) : Prop where
  /-- the parameters are in the ranges of R7. -/
  legal : s.params.legal
  /-- there are KR_SLOTS slots (R54). -/
  ringLength : s.ring.length = s.params.krSlots
  /-- the byte arrays are in canonical form. -/
  memCanonical : s.mem.wf
  /-- no byte is listed outside the arrays. -/
  memInArrays : s.mem.inArrays s.params
  /-- OUT_LEN counts bytes of OUT (R46). -/
  outLenFits : s.outLen.toNat ≤ s.params.bufBytes
  /-- SCHED_INFO and SCHED agree. -/
  sched : s.schedTruthful
  /-- the sequencer, CMD and STATUS agree. -/
  running : s.runningMatchesCmd

end Sys2Proof.Machine
end

