-- ==== Sys2Proof/Certificates/Slice0/Obligations.lean ====
section
/-! DEFINITION. The statements for the provers, each a def Obligations.<Name> : Prop, and the few definitions they share.
A command's result is stated as an equation for the whole next state, `t = (s with ...)`: every field that is not named on
the right is unchanged, so the equation is the command's frame as well. Where a command stores bytes, `t.mem` is given by
what it reads as: the stored bytes, and for every other address the byte read before. -/

open Sys2Proof Sys2Proof.Machine

namespace Sys2Proof.Claim

/-- Every byte outside the `n` bytes from address `base` on reads as before. -/
def SameOutside (m m' : Memory) (base n : Nat) : Prop :=
  ∀ x, ¬(base ≤ x ∧ x < base + n) → m'.readByte x = m.readByte x

/-- Every byte outside SCHED (0x600, 240 bytes) and outside the first `n` bytes of OUT (0x3000) reads as before. -/
def SameOutsideSchedAndOut (m m' : Memory) (n : Nat) : Prop :=
  ∀ x, ¬(0x600 ≤ x ∧ x < 0x600 + 240) → ¬(0x3000 ≤ x ∧ x < 0x3000 + n) → m'.readByte x = m.readByte x

/-- STATUS after completion with code `e` (R323): DONE = 1, ERR = e, OVR as before. -/
def doneStatus (s : State) (e : ErrCode) : Status := { done := true, ovr := s.status.ovr, err := e }

/-- What SCHED reads as, and SCHED_INFO holds, after a composite command that stored the schedule of `key` (R270, R326,
R34): all zero and VALID = 0 when CTRL.HARDEN is 1, else the schedule, zero-filled to 240 bytes. -/
def SchedAfterComposite (s t : State) (key : Key) : Prop :=
  if s.ctrl.harden then t.schedInfo = none ∧ t.memRead .sched 0 240 = zeros 240
  else t.schedInfo = some key.size ∧
    t.memRead .sched 0 240 = expandKey key ++ zeros (240 - (expandKey key).length)

/-- The checks of the table in R342, in its order: the first one that fails names the code. Authentication is the last
check, after the lengths, the key and the lookup have passed. -/
def firstError (s : State) : Instr → ErrCode
  | .nop => .ok
  | .zeroize => .ok
  | .gf8Xtime => .ok
  | .gf8Mul => .ok
  | .gf128Halve => .ok
  | .gf128Mul => .ok
  | .expandKey => if s.keyCfg.valid = false ∨ s.keyCfg.keylen = 3 then .invalidKeyMaterial else .ok
  | .encryptBlock => if s.schedInfo = none then .invalidKeyMaterial else .ok
  | .ctr _ =>
    if s.params.bufBytes < s.inLen.toNat then .lengthError
    else if s.schedInfo = none then .invalidKeyMaterial
    else .ok
  | .ghash =>
    if s.params.bufBytes < s.aadLen.toNat ∨ s.params.bufBytes < s.inLen.toNat then .lengthError else .ok
  | .gcmEncrypt =>
    if s.params.bufBytes < s.aadLen.toNat ∨ s.params.bufBytes < s.inLen.toNat ∨ 64 < s.nonceLen.toNat then .lengthError
    else if s.keyCfg.valid = false ∨ s.keyCfg.keylen = 3 then .invalidKeyMaterial
    else .ok
  | .gcmDecrypt =>
    if s.params.bufBytes < s.aadLen.toNat ∨ s.params.bufBytes < s.inLen.toNat ∨ 64 < s.nonceLen.toNat then .lengthError
    else
      match s.keyFromReg with
      | none => .invalidKeyMaterial
      | some key =>
        if gcmDecrypt key s.nonceBytes s.inBytes s.aadBytes s.b = none then .authenticationFailure else .ok
  | .envEncode slot =>
    if s.params.bufBytes - 31 < s.inLen.toNat then .lengthError
    else if (s.slot slot.val).cfg.valid = false ∨ (s.slot slot.val).cfg.keylen = 3 then .invalidKeyMaterial
    else .ok
  | .envDecode =>
    if s.params.bufBytes < s.inLen.toNat then .lengthError
    else if s.inLen.toNat < 31 then .malformedEnvelope
    else
      match lookupSlot s.ring (envTag s.inBytes) with
      | none => .unknownKeyVersion
      | some x =>
        match x.keyOperand with
        | none => .invalidKeyMaterial
        | some key => if envOpen key s.inBytes = none then .authenticationFailure else .ok
  | .sizeForCt => if 0xFFFFFFE0 < s.sizeArg.toNat then .lengthError else .ok
  | .sizeForPt => if s.sizeArg.toNat < 31 then .malformedEnvelope else .ok

/-- The affine map of R180: bit i of the result. -/
def affineBit (x : Byte) (i : Nat) : Bool :=
  x.getLsbD i ^^ x.getLsbD ((i + 4) % 8) ^^ x.getLsbD ((i + 5) % 8) ^^ x.getLsbD ((i + 6) % 8) ^^
    x.getLsbD ((i + 7) % 8) ^^ (0x63#8).getLsbD i

/-- The round constant after `n` doublings (R187). -/
def rcon : Nat → Byte
  | 0 => 0x01
  | n + 1 => xtime (rcon n)

/-- `halve` of R164 on the bytes of a Block: `be_16(int_be(V) >> 1)`, then 0xe1 XORed into byte 0 if bit 0 of byte 15 of
`V` is 1. -/
def halveBytes (v : List Byte) : List Byte :=
  if (v.getD 15 0).getLsbD 0 then (beBytes 16 (intBe v / 2)).modify 0 (· ^^^ 0xe1) else beBytes 16 (intBe v / 2)

/-- `ct` and `tag` are what R261 to R263 give for the plaintext `pt`: the schedule, H, the pre-counter block J0 (the fast path
for a 12-byte nonce, GHASH for every other length), each ciphertext byte under the cipher of J0 + 1 + j div 16, and the tag
over the ciphertext. -/
def IsGcmResult (key : Key) (nonce pt aad ct : List Byte) (tag : Block) : Prop :=
  ∃ (sched : List Byte) (h j0 : Block), sched = expandKey key ∧ h = encryptBlock sched 0 ∧
    (nonce.length = 12 → bytesOfBlock j0 = nonce ++ [0x00, 0x00, 0x00, 0x01]) ∧
    (nonce.length ≠ 12 → j0 = ghash h [] nonce 0) ∧
    ct.length = pt.length ∧
    (∀ j < pt.length, ct.getD j 0 =
      pt.getD j 0 ^^^ blockByte (encryptBlock sched (BitVec.ofNat 128 (j0.toNat + 1 + j / 16))) (j % 16)) ∧
    tag = encryptBlock sched j0 ^^^ ghash h aad ct 0

/-- A state whose two key stores (KEYREG and the slots' keys) are replaced, everything else kept. -/
def withKeys (s : State) (keyReg : Vector Word 8) (keys : List (Vector Word 8)) : State :=
  { s with keyReg := keyReg, ring := s.ring.zipWith (fun x k => { x with key := k }) keys }

/-- `s` with the contents of OUT copied to IN and the tag in R copied to B, as a host does to decrypt what it
encrypted: IN_LEN becomes OUT_LEN. -/
def handedBack (s : State) : State :=
  { s with
    mem := s.mem.writeBytes 0x2000 (s.memRead .output 0 s.outLen.toNat)
    inLen := s.outLen
    b := s.r }

/-- `x` with bit `j` of the byte at position `i` flipped. -/
def flipBit (x : List Byte) (i j : Nat) : List Byte := x.modify i (· ^^^ ((1 : Byte) <<< j))

end Sys2Proof.Claim

open Sys2Proof.Claim

/-! ### Encoding -/

/-- A word decodes to a command exactly when the command is well formed on the instance and the word is its encoding
(R130-R134): no bit is dropped, every word has one meaning. -/
def Obligations.DecodeAndEncodeAgree : Prop :=
  ∀ (krSlots : Nat) (w : Word) (i : Instr), decode krSlots w = .ok i ↔ i.wf krSlots = true ∧ encode i = w

/-- R134: the words that decode as ILLEGAL. -/
def Obligations.IllegalWordsAreThoseOfTheDecodeRule : Prop :=
  ∀ (krSlots : Nat) (w : Word),
    (∃ e, decode krSlots w = .error e) ↔
      (w.extractLsb' 14 18 ≠ 0 ∨ 0x0F < (w.extractLsb' 0 8).toNat ∨
        (w.extractLsb' 0 8 ≠ 0x0B ∧ w.extractLsb' 8 4 ≠ 0) ∨ (w.extractLsb' 0 8 ≠ 0x07 ∧ w.extractLsb' 12 2 ≠ 0) ∨
        (w.extractLsb' 0 8 = 0x0B ∧ krSlots ≤ (w.extractLsb' 8 4).toNat) ∨
        (w.extractLsb' 0 8 = 0x07 ∧ 2 ≤ (w.extractLsb' 12 2).toNat))

/-- R131: the words of the opcode map, written out, on an instance with 4 slots. -/
def Obligations.OpcodeMapWords : Prop :=
  [0x00000000, 0x00000001, 0x00000002, 0x00000003, 0x00000004, 0x00000005, 0x00000006, 0x00000007, 0x00001007,
    0x00000008, 0x00000009, 0x0000000A, 0x0000000B, 0x0000030B, 0x0000000C, 0x0000000D, 0x0000000E,
    0x0000000F].map (fun w => (decode 4 w).toOption) =
  [some .nop, some .expandKey, some .encryptBlock, some .gf8Xtime, some .gf8Mul, some .gf128Halve, some .gf128Mul,
    some (.ctr .none), some (.ctr .preIncrement), some .ghash, some .gcmEncrypt, some .gcmDecrypt,
    some (.envEncode 0), some (.envEncode 3), some .envDecode, some .sizeForCt, some .sizeForPt, some .zeroize]

/-! ### The step -/

/-- R321: when it is the engine's turn and a command runs, the step is the meaning of the decoded command, or the
ILLEGAL_COMMAND completion when the word is illegal; when the core is idle the engine's turn keeps all state (R365). Whose
turn it is, is the model's choice: the schedule of events is log 5, and that the engine steps when no event is left, an idle
one without effect, is log 7 (DESIGN CHOICE, both). -/
def Obligations.EngineStepRunsTheDecodedCommand : Prop :=
  ∀ s s' : State,
    ((s.schedule = [] ∧ s' = s) ∨ ∃ rest, s.schedule = .engine :: rest ∧ s' = { s with schedule := rest }) →
    (s.seq = .idle → step s = .next s') ∧
    (∀ w i, s.seq = .running w → decode s.params.krSlots w = .ok i → step s = exec i s') ∧
    (∀ w e, s.seq = .running w → decode s.params.krSlots w = .error e →
      step s = .next { s' with seq := .idle, status := doneStatus s .illegalCommand })

/-- R328, R347: nothing traps, halts or locks; every step answers a next state. -/
def Obligations.EveryStepAnswersANextState : Prop := ∀ s : State, ∃ t, step s = .next t

/-- R323: completion. Whatever word runs, the engine step answers a state with BUSY = 0, DONE = 1 and the code in ERR;
no other flag changes, the word stays in CMD, and the interrupt output is IRQ_EN. -/
def Obligations.EngineStepCompletesTheCommand : Prop :=
  ∀ (s : State) (w : Word), s.seq = .running w →
    ∃ t e, engineStep s = .next t ∧ t.seq = .idle ∧ t.busy = false ∧
      t.status = { done := true, ovr := s.status.ovr, err := e } ∧ t.cmd = s.cmd ∧ t.irq = s.ctrl.irqEn

/-- R320: a 32-bit write to CMD is accepted while BUSY = 0, every word; while BUSY = 1 it is dropped. -/
def Obligations.CmdWriteIsAcceptedWhenIdle : Prop :=
  ∀ (s : State) (w : Word),
    (s.busy = false → s.hostAccess 0x008 .bits32 (.write w) =
      { s with cmd := w, seq := .running w, status := { done := false, ovr := s.status.ovr, err := .ok },
               response := some .written }) ∧
    (s.busy = true → s.hostAccess 0x008 .bits32 (.write w) =
      { s with status := { s.status with ovr := true }, response := some .written })

/-- R322: between acceptance and the engine step the only state a host access can change is STATUS (its W1C bits and
OVR); BUSY and ERR stay. -/
def Obligations.OnlyStatusCanChangeWhileACommandRuns : Prop :=
  ∀ (s : State) (x : Access), s.busy = true →
    s.busEvent x = { s with status := (s.busEvent x).status, response := (s.busEvent x).response } ∧
    (s.busEvent x).status.err = s.status.err ∧
    ((s.busEvent x).status.done = true → s.status.done = true)

/-- R107, R102: a bus event of the schedule is one host access of the core at the access's offset from BASE; one outside the
16 KiB window is not addressed to the core and changes nothing but the schedule (DEDUCED, log 3). -/
def Obligations.BusEventsAreServedOneAtATime : Prop :=
  (∀ (s : State) (rest : List Event) (off : Nat) (width : AccessWidth) (op : AccessOp), off < 0x4000 →
    s.schedule = .bus { addr := s.params.base + off, width := width, op := op } :: rest →
    step s = .next (({ s with schedule := rest } : State).hostAccess off width op)) ∧
  ∀ (s : State) (rest : List Event) (x : Access), x.addr < s.params.base ∨ s.params.base + 0x4000 ≤ x.addr →
    s.schedule = .bus x :: rest → step s = .next { s with schedule := rest }

/-- R381, R380: a reset at any time, while a command runs too, leaves the reset state and loses the command. -/
def Obligations.ResetEndsARunningCommand : Prop :=
  ∀ (s : State) (rest : List Event), s.schedule = .reset :: rest →
    ∃ t, step s = .next t ∧
      t = { State.resetWith s.params with schedule := rest, rng := s.rng, draws := s.draws } ∧
      t.busy = false ∧ t.irq = false

/-! ### The bus -/

/-- R103: an access of any other width, or at an offset that is not a multiple of 4, is answered with a bus error and
has no effect on any state. -/
def Obligations.NarrowOrMisalignedAccessIsABusError : Prop :=
  ∀ (s : State) (off : Nat) (width : AccessWidth) (op : AccessOp), (width ≠ .bits32 ∨ off % 4 ≠ 0) →
    s.hostAccess off width op = { s with response := some .busError }

/-- R104: the mapped offsets are exactly those of the register map, each with the register that R60's table puts there
(`offsetOf`); an access to any other offset is a bus error without effect, and an idle 32-bit access to a
mapped one reads that register or performs the write of that register. -/
def Obligations.MappedOffsetsAreThoseOfTheRegisterMap : Prop :=
  ∀ (s : State) (off : Nat), s.params.legal →
    (∀ t, accessTarget s.params off .bits32 = some t ↔ offsetOf s.params t = some off) ∧
    (∀ t, offsetOf s.params t = some off → s.busy = false →
      s.hostAccess off .bits32 .read = { s with response := some (.value (s.readTarget t)) } ∧
      ∀ w, s.hostAccess off .bits32 (.write w) = { s.writeTarget w t with response := some .written }) ∧
    (off % 4 = 0 → ∀ op,
      ((s.hostAccess off .bits32 op).response = some .busError ↔
        ¬(off ≤ 0x030 ∨ (0x040 ≤ off ∧ off < 0x090) ∨ (0x100 ≤ off ∧ off < 0x140) ∨
          (∃ n, n < s.params.krSlots ∧
            (off = 0x200 + 0x40 * n ∨ off = 0x204 + 0x40 * n ∨ (0x220 + 0x40 * n ≤ off ∧ off < 0x240 + 0x40 * n))) ∨
          (0x600 ≤ off ∧ off < 0x6F0) ∨ (0x1000 ≤ off ∧ off < 0x1000 + s.params.bufBytes) ∨
          (0x2000 ≤ off ∧ off < 0x2000 + s.params.bufBytes) ∨ (0x3000 ≤ off ∧ off < 0x3000 + s.params.bufBytes))) ∧
      ((s.hostAccess off .bits32 op).response = some .busError →
        s.hostAccess off .bits32 op = { s with response := some .busError }))

/-- R31, R32, R36, R37, R41, R42, R45 to R49, R54: where the fields of the register words stand, the numbers of the error
codes, what a written word reads back as while BUSY = 0, and that a write to CTRL, KEYCFG, a length register or SIZE_ARG only
stores the value (R106). -/
def Obligations.RegisterFieldsStandWhereTheRulesPutThem : Prop :=
  ∀ (s : State) (w : Word) (n : Nat),
    ((s.readTarget .status).getLsbD 0 = s.busy ∧ (s.readTarget .status).getLsbD 1 = s.status.done ∧
      (s.readTarget .status).getLsbD 2 = s.status.ovr ∧ (s.readTarget .status).extractLsb' 4 4 = s.status.err.code) ∧
    [ErrCode.ok, .authenticationFailure, .unknownKeyVersion, .malformedEnvelope, .invalidKeyMaterial, .illegalCommand,
      .lengthError].map ErrCode.code = [0, 1, 2, 3, 4, 5, 6] ∧
    ((s.readTarget .ctrl).getLsbD 0 = s.ctrl.irqEn ∧ (s.readTarget .ctrl).getLsbD 1 = s.ctrl.harden ∧
      (s.readTarget .ctrl).getLsbD 2 = s.ctrl.ctCmp) ∧
    s.writeTarget w .ctrl =
      { s with ctrl := { irqEn := w.getLsbD 0, harden := w.getLsbD 1, ctCmp := w.getLsbD 2 } } ∧
    s.writeTarget w .keycfg = { s with keyCfg := { keylen := w.extractLsb' 0 2, valid := w.getLsbD 31 } } ∧
    (s.writeTarget w .ctrl).readTarget .ctrl = w &&& 0x00000007 ∧
    (s.writeTarget w .keycfg).readTarget .keycfg = w &&& 0x80000003 ∧
    (s.writeTarget w .aadLen = { s with aadLen := w } ∧ s.writeTarget w .inLen = { s with inLen := w } ∧
      s.writeTarget w .nonceLen = { s with nonceLen := w } ∧ s.writeTarget w .sizeArg = { s with sizeArg := w }) ∧
    (s.readTarget .aadLen = s.aadLen ∧ s.readTarget .inLen = s.inLen ∧ s.readTarget .nonceLen = s.nonceLen ∧
      s.readTarget .sizeArg = s.sizeArg ∧ s.readTarget .outLen = s.outLen ∧ s.readTarget .result = s.result ∧
      s.readTarget .cmd = s.cmd ∧ s.readTarget .id = 0x55504743) ∧
    (s.params.legal → (s.readTarget .params).extractLsb' 0 16 = BitVec.ofNat 16 s.params.bufBytes ∧
      (s.readTarget .params).extractLsb' 16 8 = BitVec.ofNat 8 s.params.krSlots ∧
      (s.readTarget .params).extractLsb' 24 8 = 64) ∧
    (n < s.ring.length →
      (s.writeTarget w (.krTag n)).readTarget (.krTag n) = w &&& 0x00FFFFFF ∧
      (s.writeTarget w (.krCfg n)).readTarget (.krCfg n) = w &&& 0x80000003) ∧
    (s.schedInfo = none → s.readTarget .schedInfo = 0) ∧
    (∀ k, s.schedInfo = some k → s.readTarget .schedInfo = BitVec.ofNat 32 (1 + k.nr * 2 ^ 8))

/-- R105: the busy-time rule, for every mapped target; a bus error (a width, an alignment or an offset that R103 and R104
refuse) comes before it. -/
def Obligations.BusyTimeAccessRule : Prop :=
  (∀ (s : State) (off : Nat) (width : AccessWidth) (op : AccessOp), s.busy = true →
    accessTarget s.params off width = none → s.hostAccess off width op = { s with response := some .busError }) ∧
  ∀ (s : State) (off : Nat) (t : Target), s.busy = true → accessTarget s.params off .bits32 = some t →
    (∀ w, t = .status → s.hostAccess off .bits32 (.write w) =
      { s with status := { done := s.status.done && !w.getLsbD 1, ovr := s.status.ovr && !w.getLsbD 2,
                           err := s.status.err },
               response := some .written }) ∧
    (∀ w, t ≠ .status → s.hostAccess off .bits32 (.write w) =
      { s with status := { s.status with ovr := true }, response := some .written }) ∧
    (t = .id ∨ t = .ctrl ∨ t = .cmd ∨ t = .status ∨ t = .params →
      s.hostAccess off .bits32 .read = { s with response := some (.value (s.readTarget t)) }) ∧
    (¬(t = .id ∨ t = .ctrl ∨ t = .cmd ∨ t = .status ∨ t = .params) →
      s.hostAccess off .bits32 .read = { s with response := some (.value 0) })

/-- R106: reads have no side effects; the same read twice gives the same value, and nothing but the response changes. -/
def Obligations.ReadsHaveNoSideEffects : Prop :=
  ∀ (s : State) (off : Nat) (width : AccessWidth),
    s.hostAccess off width .read = { s with response := (s.hostAccess off width .read).response } ∧
    (s.hostAccess off width .read).hostAccess off width .read = s.hostAccess off width .read

/-- R360: key registers are write-only. Two states that differ only in KEYREG and the slots' keys answer every host
access alike. -/
def Obligations.KeyBytesAreNeverReadableThroughTheBus : Prop :=
  ∀ (s : State) (keyReg : Vector Word 8) (keys : List (Vector Word 8)) (off : Nat) (width : AccessWidth)
    (op : AccessOp), keys.length = s.ring.length →
    ((withKeys s keyReg keys).hostAccess off width op).response = (s.hostAccess off width op).response

/-- R59: reserved bits read 0 and a write to them is ignored; a host write to a read-only register, to the read-only bits
of STATUS, or to the OUT or SCHED window has no effect and is answered without error; a host read of a write-only register
returns 0. In addition to the busy-time rule: the write clauses are those of BUSY = 0. -/
def Obligations.ReservedReadOnlyAndWriteOnlyRule : Prop :=
  ∀ (s : State) (w : Word) (n k off : Nat),
    (∀ t, t = .id ∨ t = .outLen ∨ t = .result ∨ t = .schedInfo ∨ t = .params ∨ t = .r n ∨ t = .buf .output n ∨
      t = .buf .sched n →
      s.writeTarget w t = s ∧
      (s.busy = false → accessTarget s.params off .bits32 = some t →
        s.hostAccess off .bits32 (.write w) = { s with response := some .written })) ∧
    s.hostAccess 0x00C .bits32 (.write w) =
      { s with
        status := { done := s.status.done && !w.getLsbD 1, ovr := s.status.ovr && !w.getLsbD 2, err := s.status.err }
        response := some .written } ∧
    (∀ t, t = .key n ∨ t = .krKey n k → s.readTarget t = 0 ∧
      (accessTarget s.params off .bits32 = some t →
        s.hostAccess off .bits32 .read = { s with response := some (.value 0) })) ∧
    (s.writeTarget w .ctrl = s.writeTarget (w &&& 0x00000007) .ctrl ∧
      s.writeTarget w .keycfg = s.writeTarget (w &&& 0x80000003) .keycfg ∧
      s.writeTarget w (.krCfg n) = s.writeTarget (w &&& 0x80000003) (.krCfg n) ∧
      s.writeTarget w (.krTag n) = s.writeTarget (w &&& 0x00FFFFFF) (.krTag n)) ∧
    (s.readTarget .ctrl).extractLsb' 3 29 = 0 ∧
    (s.readTarget .status).extractLsb' 8 24 = 0 ∧ (s.readTarget .status).getLsbD 3 = false ∧
    (s.readTarget .keycfg).extractLsb' 2 29 = 0 ∧
    (s.readTarget (.krCfg n)).extractLsb' 2 29 = 0 ∧ (s.readTarget (.krTag n)).extractLsb' 24 8 = 0 ∧
    (s.readTarget .schedInfo).extractLsb' 1 7 = 0 ∧ (s.readTarget .schedInfo).extractLsb' 16 16 = 0

/-- R52, R100: every word of a byte array reads its bytes in lane order, and the bytes a command reads (`memRead`, R11) are
those same bytes in rising order; a word written to the AAD, IN or NONCE buffer reads
back, its byte k is bits [8k+7:8k], no other byte and no other part of the state changes, and no other array with it. -/
def Obligations.BufferWordReadsBackInLaneOrder : Prop :=
  (∀ (s : State) (x : Buf) (n k : Nat), s.busy = false → k < 4 →
    (s.hostRead (.buf x n)).extractLsb' (8 * k) 8 = s.mem.readByte (x.base + 4 * n + k)) ∧
  (∀ (s : State) (x : Buf) (off n : Nat), (s.memRead x off n).length = n ∧
    ∀ j < n, (s.memRead x off n).getD j 0 = s.mem.readByte (x.base + off + j)) ∧
  (∀ (s : State) (x y : Buf) (n : Nat) (w : Word), s.params.legal → 4 * n < x.size s.params → y ≠ x →
    (s.hostWrite w (.buf x n)).memRead y 0 (y.size s.params) = s.memRead y 0 (y.size s.params)) ∧
  ∀ (s : State) (x : Buf) (n : Nat) (w : Word), s.busy = false → x = .aad ∨ x = .input ∨ x = .nonce →
    ∃ t, s.hostWrite w (.buf x n) = t ∧ t = { s with mem := t.mem } ∧ t.hostRead (.buf x n) = w ∧
      (∀ k < 4, t.mem.readByte (x.base + 4 * n + k) = w.extractLsb' (8 * k) 8) ∧
      SameOutside s.mem t.mem (x.base + 4 * n) 4

/-- R50: word n of A, B or R holds bytes 4n .. 4n+3 of the Block at bits [8k+7:8k]; a word written to A or B reads back and
the other words stay. Byte 0 of a Block is the most significant byte of its 128-bit integer (R10), and a Block is its 16
bytes. -/
def Obligations.BlockRegisterWordsAreInLaneOrder : Prop :=
  (∀ (x : Block) (j : Nat), j < 16 →
    (bytesOfBlock x).getD j 0 = blockByte x j ∧ blockByte x j = x.extractLsb' (8 * (15 - j)) 8) ∧
  (∀ x : Block, blockOfBytes (bytesOfBlock x) = x) ∧
  (∀ bs : List Byte, bs.length = 16 → bytesOfBlock (blockOfBytes bs) = bs) ∧
  ∀ (s : State) (n m : Nat) (w : Word), s.busy = false → n < 4 → m < 4 →
    (∃ t, s.hostWrite w (.a n) = t ∧ t = { s with a := t.a } ∧ t.hostRead (.a n) = w ∧
      (m ≠ n → t.hostRead (.a m) = s.hostRead (.a m)) ∧
      ∀ k < 4, (bytesOfBlock t.a).getD (4 * n + k) 0 = w.extractLsb' (8 * k) 8) ∧
    (∃ t, s.hostWrite w (.b n) = t ∧ t = { s with b := t.b } ∧ t.hostRead (.b n) = w ∧
      (m ≠ n → t.hostRead (.b m) = s.hostRead (.b m)) ∧
      ∀ k < 4, (bytesOfBlock t.b).getD (4 * n + k) 0 = w.extractLsb' (8 * k) 8) ∧
    (∀ k < 4, (s.hostRead (.a n)).extractLsb' (8 * k) 8 = (bytesOfBlock s.a).getD (4 * n + k) 0 ∧
      (s.hostRead (.b n)).extractLsb' (8 * k) 8 = (bytesOfBlock s.b).getD (4 * n + k) 0 ∧
      (s.hostRead (.r n)).extractLsb' (8 * k) 8 = (bytesOfBlock s.r).getD (4 * n + k) 0)

/-- R43: word KEYn holds bytes KEYREG[4n + k] at bits [8k+7:8k]; a write changes those four bytes only, and reads 0. -/
def Obligations.KeyRegisterWordsAreInLaneOrder : Prop :=
  ∀ (s : State) (n : Nat) (w : Word), s.busy = false → n < 8 →
    ∃ t, s.hostWrite w (.key n) = t ∧ t = { s with keyReg := t.keyReg } ∧ t.hostRead (.key n) = 0 ∧
      ∀ j < 32, (keyWordBytes t.keyReg).getD j 0 =
        if j / 4 = n then w.extractLsb' (8 * (j % 4)) 8 else (keyWordBytes s.keyReg).getD j 0

/-- R54: the three registers of a slot; a write changes its own register of its own slot only. -/
def Obligations.SlotRegistersHoldWhatTheHostWrites : Prop :=
  ∀ (s : State) (n : Nat) (w : Word), s.busy = false → n < s.ring.length →
    (∃ t, s.hostWrite w (.krTag n) = t ∧ t = { s with ring := t.ring } ∧ t.ring.length = s.ring.length ∧
      t.slot n = { s.slot n with tag := w.extractLsb' 0 24 } ∧ ∀ m, m ≠ n → t.slot m = s.slot m) ∧
    (∃ t, s.hostWrite w (.krCfg n) = t ∧ t = { s with ring := t.ring } ∧ t.ring.length = s.ring.length ∧
      t.slot n = { s.slot n with cfg := { keylen := w.extractLsb' 0 2, valid := w.getLsbD 31 } } ∧
      ∀ m, m ≠ n → t.slot m = s.slot m) ∧
    (∀ k < 8, ∃ t, s.hostWrite w (.krKey n k) = t ∧ t = { s with ring := t.ring } ∧
      t.ring.length = s.ring.length ∧ (∀ m, m ≠ n → t.slot m = s.slot m) ∧
      t.slot n = { s.slot n with key := (t.slot n).key } ∧
      ∀ j < 32, (keyWordBytes (t.slot n).key).getD j 0 =
        if j / 4 = k then w.extractLsb' (8 * (j % 4)) 8 else (keyWordBytes (s.slot n).key).getD j 0)

/-- R40: STATUS.OVR is sticky. One step clears it only by a host write of 1 to bit 2 of STATUS, or by reset. -/
def Obligations.OvrIsSticky : Prop :=
  ∀ s t : State, step s = .next t → s.status.ovr = true → t.status.ovr = false →
    (∃ rest, s.schedule = .reset :: rest) ∨
    ∃ x rest w, s.schedule = .bus x :: rest ∧ x.width = .bits32 ∧ x.addr = s.params.base + 0x00C ∧
      x.op = .write w ∧ w.getLsbD 2 = true

/-- R350: the interrupt output is DONE and IRQ_EN. It rises only when a command completes with IRQ_EN = 1 or the host
sets IRQ_EN while DONE = 1; it falls only when the host writes 1 to STATUS bit 1, a CMD write is accepted, the host
clears IRQ_EN, or at reset. -/
def Obligations.InterruptRisesAndFallsOnlyAsTheRuleSays : Prop :=
  (∀ s : State, s.irq = (s.status.done && s.ctrl.irqEn)) ∧
  ∀ s t : State, step s = .next t →
    (s.irq = false → t.irq = true →
      (s.busy = true ∧ t.busy = false ∧ s.ctrl.irqEn = true) ∨
      (s.busy = false ∧ s.status.done = true ∧ ∃ x rest w, s.schedule = .bus x :: rest ∧
        x.addr = s.params.base + 0x004 ∧ x.op = .write w ∧ w.getLsbD 0 = true)) ∧
    (s.irq = true → t.irq = false →
      (∃ rest, s.schedule = .reset :: rest) ∨
      ∃ x rest w, s.schedule = .bus x :: rest ∧ x.op = .write w ∧
        ((x.addr = s.params.base + 0x00C ∧ w.getLsbD 1 = true) ∨
          (x.addr = s.params.base + 0x008 ∧ s.busy = false) ∨
          (x.addr = s.params.base + 0x004 ∧ w.getLsbD 0 = false)))

/-- R380: the reset values, on any instance, read as the host reads them where a register is a word; `State.reset` is that state at
the reference values of R7 (BASE apart, log 2). -/
def Obligations.ResetStateHasTheResetValues : Prop :=
  (State.reset = State.resetWith State.reset.params ∧ State.reset.params.bufBytes = 4096 ∧
    State.reset.params.krSlots = 4) ∧
  ∀ p : Params, p.legal → ∃ s, State.resetWith p = s ∧ s.params = p ∧ s.readTarget .id = 0x55504743 ∧
    (s.readTarget .params).toNat = p.bufBytes + p.krSlots * 2 ^ 16 + 64 * 2 ^ 24 ∧
    s.readTarget .ctrl = 0x00000006 ∧ s.cmd = 0 ∧ s.readTarget .status = 0 ∧ s.readTarget .keycfg = 0 ∧
    keyWordBytes s.keyReg = zeros 32 ∧ s.aadLen = 0 ∧ s.inLen = 0 ∧ s.nonceLen = 0 ∧ s.outLen = 0 ∧
    s.sizeArg = 0 ∧ s.result = 0 ∧ s.readTarget .schedInfo = 0 ∧ s.a = 0 ∧ s.b = 0 ∧ s.r = 0 ∧
    (∀ x : Buf, s.memRead x 0 (x.size p) = zeros (x.size p)) ∧
    s.ring.length = p.krSlots ∧
    (∀ n < p.krSlots, s.readTarget (.krTag n) = 0 ∧ s.readTarget (.krCfg n) = 0 ∧
      keyWordBytes (s.slot n).key = zeros 32) ∧
    s.seq = .idle ∧ s.irq = false

/-! ### The invariant -/

/-- The invariant holds at reset, on every instance R7 allows. -/
def Obligations.InvariantHoldsAtReset : Prop := ∀ p : Params, p.legal → (State.resetWith p).Inv

/-- Every step keeps the invariant: the parameters stay in range, the byte arrays stay canonical and inside their
windows, OUT_LEN fits OUT, SCHED_INFO tells the truth about SCHED, and the sequencer agrees with CMD and STATUS. -/
def Obligations.EveryStepKeepsTheInvariant : Prop := ∀ s t : State, s.Inv → step s = .next t → t.Inv

/-! ### Commands: results, frames, completion -/

/-- R324: NOP writes no register but STATUS. -/
def Obligations.NopChangesOnlyStatus : Prop :=
  ∀ s : State, exec .nop s = .next { s with seq := .idle, status := doneStatus s .ok }

/-- R166, R167: the GF(2^8) commands. -/
def Obligations.Gf8CommandsWriteByteZeroOfR : Prop :=
  ∀ s : State,
    exec .gf8Xtime s = .next { s with
      r := blockOfBytes (xtime ((bytesOfBlock s.a).getD 0 0) :: zeros 15), seq := .idle
      status := doneStatus s .ok } ∧
    exec .gf8Mul s = .next { s with
      r := blockOfBytes (gf8Mul ((bytesOfBlock s.a).getD 0 0) ((bytesOfBlock s.b).getD 0 0) :: zeros 15)
      seq := .idle, status := doneStatus s .ok }

/-- R168, R169: the GF(2^128) commands, `halve` spelled out on the bytes of A as R164 gives it. -/
def Obligations.Gf128CommandsWriteR : Prop :=
  ∀ s : State,
    exec .gf128Halve s = .next { s with
      r := blockOfBytes (halveBytes (bytesOfBlock s.a)), seq := .idle, status := doneStatus s .ok } ∧
    exec .gf128Mul s = .next { s with r := mulGF128 s.a s.b, seq := .idle, status := doneStatus s .ok }

/-- R44, R295: the key operand of KEYREG and of a key-ring slot: absent or of no legal size, or the first 16, 24 or 32 bytes
by KEYLEN; and a command whose key operand is missing, its earlier checks passed, reports INVALID_KEY_MATERIAL. -/
def Obligations.KeyOperandOfKeyreg : Prop :=
  (∀ s : State,
    (s.keyFromReg = none ↔ s.keyCfg.valid = false ∨ s.keyCfg.keylen = 3) ∧
    (∀ key, s.keyFromReg = some key →
      key.bytes = (keyWordBytes s.keyReg).take key.size.keyBytes ∧
      key.size.keyBytes = [16, 24, 32].getD s.keyCfg.keylen.toNat 0 ∧ key.bytes.length = key.size.keyBytes)) ∧
  (∀ x : Slot,
    (x.keyOperand = none ↔ x.cfg.valid = false ∨ x.cfg.keylen = 3) ∧
    (∀ key, x.keyOperand = some key →
      key.bytes = (keyWordBytes x.key).take key.size.keyBytes ∧
      key.size.keyBytes = [16, 24, 32].getD x.cfg.keylen.toNat 0 ∧ key.bytes.length = key.size.keyBytes)) ∧
  (∀ s : State, s.keyFromReg = none →
    (∃ t, exec .expandKey s = .next t ∧ t.status = doneStatus s .invalidKeyMaterial) ∧
    (s.aadLen.toNat ≤ s.params.bufBytes → s.inLen.toNat ≤ s.params.bufBytes → s.nonceLen.toNat ≤ 64 →
      (∃ t, exec .gcmEncrypt s = .next t ∧ t.status = doneStatus s .invalidKeyMaterial) ∧
      ∃ t, exec .gcmDecrypt s = .next t ∧ t.status = doneStatus s .invalidKeyMaterial)) ∧
  (∀ (s : State) (slot : Fin 16), slot.val < s.params.krSlots → s.inLen.toNat ≤ s.params.bufBytes - 31 →
    (s.slot slot.val).keyOperand = none →
    ∃ t, exec (.envEncode slot) s = .next t ∧ t.status = doneStatus s .invalidKeyMaterial) ∧
  ∀ (s : State) (x : Slot), s.inLen.toNat ≤ s.params.bufBytes → 31 ≤ s.inLen.toNat →
    lookupSlot s.ring (tagOfBytes ((s.memRead .input 0 s.inLen.toNat).take 3)) = some x → x.keyOperand = none →
    ∃ t, exec .envDecode s = .next t ∧ t.status = doneStatus s .invalidKeyMaterial

/-- R195: EXPAND_KEY stores the schedule, zero-filled to 240 bytes, and SCHED_INFO; without a key it changes only
STATUS. -/
def Obligations.ExpandKeyStoresTheSchedule : Prop :=
  ∀ s : State,
    (∀ key, s.keyFromReg = some key →
      ∃ t, exec .expandKey s = .next t ∧
        t = { s with mem := t.mem, schedInfo := some key.size, seq := .idle, status := doneStatus s .ok } ∧
        t.memRead .sched 0 240 = expandKey key ++ zeros (240 - (expandKey key).length) ∧
        schedInfoWord t.schedInfo = BitVec.ofNat 32 (1 + (key.bytes.length / 4 + 6) * 2 ^ 8) ∧
        SameOutside s.mem t.mem 0x600 240) ∧
    (s.keyFromReg = none →
      exec .expandKey s = .next { s with seq := .idle, status := doneStatus s .invalidKeyMaterial })

/-- R196: ENCRYPT_BLOCK. -/
def Obligations.EncryptBlockUsesTheStoredSchedule : Prop :=
  ∀ s : State,
    (∀ k, s.schedInfo = some k →
      exec .encryptBlock s = .next { s with
        r := encryptBlock (s.memRead .sched 0 (16 * (k.nr + 1))) s.a, seq := .idle, status := doneStatus s .ok }) ∧
    (s.schedInfo = none →
      exec .encryptBlock s = .next { s with r := 0, seq := .idle, status := doneStatus s .invalidKeyMaterial })

/-- R225: CTR, every policy: the output of `ctrApply` in OUT, the next counter in R, and where it fails. -/
def Obligations.CtrAppliesTheKeystream : Prop :=
  ∀ (s : State) (pol : CounterPolicy),
    (s.inLen.toNat ≤ s.params.bufBytes → ∀ k, s.schedInfo = some k →
      ∃ t, exec (.ctr pol) s = .next t ∧
        t = { s with
          mem := t.mem, outLen := s.inLen
          r := (ctrApply (s.memRead .sched 0 (16 * (k.nr + 1))) s.a pol (s.memRead .input 0 s.inLen.toNat)).2
          seq := .idle, status := doneStatus s .ok } ∧
        t.memRead .output 0 s.inLen.toNat =
          (ctrApply (s.memRead .sched 0 (16 * (k.nr + 1))) s.a pol (s.memRead .input 0 s.inLen.toNat)).1 ∧
        SameOutside s.mem t.mem 0x3000 s.inLen.toNat) ∧
    (s.params.bufBytes < s.inLen.toNat →
      exec (.ctr pol) s = .next { s with
        outLen := 0, r := 0, seq := .idle, status := doneStatus s .lengthError }) ∧
    (s.inLen.toNat ≤ s.params.bufBytes → s.schedInfo = none →
      exec (.ctr pol) s = .next { s with
        outLen := 0, r := 0, seq := .idle, status := doneStatus s .invalidKeyMaterial })

/-- R245: GHASH. -/
def Obligations.GhashCommandWritesTheHash : Prop :=
  ∀ s : State,
    (s.aadLen.toNat ≤ s.params.bufBytes → s.inLen.toNat ≤ s.params.bufBytes →
      exec .ghash s = .next { s with
        r := ghash s.a (s.memRead .aad 0 s.aadLen.toNat) (s.memRead .input 0 s.inLen.toNat) s.b
        seq := .idle, status := doneStatus s .ok }) ∧
    (s.params.bufBytes < s.aadLen.toNat ∨ s.params.bufBytes < s.inLen.toNat →
      exec .ghash s = .next { s with r := 0, seq := .idle, status := doneStatus s .lengthError })

/-- R270: GCM_ENCRYPT with legal lengths and a key; and what `gcmEncrypt` gives is what R261 to R263 say, for every key,
nonce, plaintext and associated data. -/
def Obligations.GcmEncryptWritesCiphertextAndTag : Prop :=
  (∀ (key : Key) (nonce pt aad : List Byte),
    IsGcmResult key nonce pt aad (gcmEncrypt key nonce pt aad).1 (gcmEncrypt key nonce pt aad).2) ∧
  ∀ (s : State) (key : Key), s.aadLen.toNat ≤ s.params.bufBytes → s.inLen.toNat ≤ s.params.bufBytes →
    s.nonceLen.toNat ≤ 64 → s.keyFromReg = some key →
    ∃ t, exec .gcmEncrypt s = .next t ∧
      t = { s with
        mem := t.mem, outLen := s.inLen, schedInfo := t.schedInfo
        r := (gcmEncrypt key (s.memRead .nonce 0 s.nonceLen.toNat) (s.memRead .input 0 s.inLen.toNat)
          (s.memRead .aad 0 s.aadLen.toNat)).2
        seq := .idle, status := doneStatus s .ok } ∧
      t.memRead .output 0 s.inLen.toNat =
        (gcmEncrypt key (s.memRead .nonce 0 s.nonceLen.toNat) (s.memRead .input 0 s.inLen.toNat)
          (s.memRead .aad 0 s.aadLen.toNat)).1 ∧
      SchedAfterComposite s t key ∧ SameOutsideSchedAndOut s.mem t.mem s.inLen.toNat

/-- R271: GCM_DECRYPT with legal lengths and a key: the plaintext, or AUTHENTICATION_FAILURE with nothing written to
OUT; and `gcmDecrypt` gives a plaintext exactly when R261 to R263 give that ciphertext and that tag for it (R265). -/
def Obligations.GcmDecryptVerifiesThenDecrypts : Prop :=
  (∀ (key : Key) (nonce pt ct aad : List Byte) (tag : Block),
    gcmDecrypt key nonce ct aad tag = some pt ↔ IsGcmResult key nonce pt aad ct tag) ∧
  ∀ (s : State) (key : Key), s.aadLen.toNat ≤ s.params.bufBytes → s.inLen.toNat ≤ s.params.bufBytes →
    s.nonceLen.toNat ≤ 64 → s.keyFromReg = some key →
    (∀ pt, gcmDecrypt key (s.memRead .nonce 0 s.nonceLen.toNat) (s.memRead .input 0 s.inLen.toNat)
        (s.memRead .aad 0 s.aadLen.toNat) s.b = some pt →
      ∃ t, exec .gcmDecrypt s = .next t ∧
        t = { s with
          mem := t.mem, outLen := s.inLen, schedInfo := t.schedInfo, r := 0, seq := .idle
          status := doneStatus s .ok } ∧
        t.memRead .output 0 s.inLen.toNat = pt ∧
        SchedAfterComposite s t key ∧ SameOutsideSchedAndOut s.mem t.mem s.inLen.toNat) ∧
    (gcmDecrypt key (s.memRead .nonce 0 s.nonceLen.toNat) (s.memRead .input 0 s.inLen.toNat)
        (s.memRead .aad 0 s.aadLen.toNat) s.b = none →
      ∃ t, exec .gcmDecrypt s = .next t ∧
        t = { s with
          mem := t.mem, outLen := 0, schedInfo := t.schedInfo, r := 0, seq := .idle
          status := doneStatus s .authenticationFailure } ∧
        SchedAfterComposite s t key ∧ SameOutside s.mem t.mem 0x600 240)

/-- R300: ENV_ENCODE from a present slot with a plaintext whose envelope fits OUT; whatever the nonce drawn. Exactly one
nonce is drawn (the model's own fields rng and draws, log 4). -/
def Obligations.EnvEncodeWritesTheEnvelope : Prop :=
  ∀ (s : State) (slot : Fin 16) (key : Key), s.params.legal → slot.val < s.params.krSlots →
    s.inLen.toNat ≤ s.params.bufBytes - 31 → (s.slot slot.val).keyOperand = some key →
    ∃ (t : State) (nonce : Nonce), exec (.envEncode slot) s = .next t ∧
      (∀ x rest, s.rng = x :: rest → nonce = x ∧ t.rng = rest ∧ t.draws = s.draws) ∧
      (s.rng = [] → t.rng = [] ∧ t.draws = s.draws + 1) ∧
      (nonceToBytes nonce).length = 12 ∧ (∀ j < 12, (nonceToBytes nonce).getD j 0 = nonce.extractLsb' (8 * (11 - j)) 8) ∧
      t = { s with
        mem := t.mem, outLen := s.inLen + 31, schedInfo := t.schedInfo, r := 0, seq := .idle
        status := doneStatus s .ok, rng := t.rng, draws := t.draws } ∧
      t.memRead .output 0 (s.inLen.toNat + 31) =
        tagBytes (s.slot slot.val).tag ++ nonceToBytes nonce ++
          (gcmEncrypt key (nonceToBytes nonce) (s.memRead .input 0 s.inLen.toNat) []).1 ++
          bytesOfBlock (gcmEncrypt key (nonceToBytes nonce) (s.memRead .input 0 s.inLen.toNat) []).2 ∧
      SchedAfterComposite s t key ∧ SameOutsideSchedAndOut s.mem t.mem (s.inLen.toNat + 31)

/-- R301: ENV_DECODE of an envelope whose tag selects a slot with a key: the plaintext, or AUTHENTICATION_FAILURE with
nothing written to OUT. -/
def Obligations.EnvDecodeOpensTheEnvelope : Prop :=
  ∀ (s : State) (x : Slot) (key : Key) (env : List Byte), s.inLen.toNat ≤ s.params.bufBytes → 31 ≤ s.inLen.toNat →
    env = s.memRead .input 0 s.inLen.toNat → lookupSlot s.ring (tagOfBytes (env.take 3)) = some x →
    x.keyOperand = some key →
    (∀ pt, gcmDecrypt key ((env.drop 3).take 12) ((env.drop 15).take (env.length - 31)) []
        (blockOfBytes (env.drop (env.length - 16))) = some pt →
      ∃ t, exec .envDecode s = .next t ∧
        t = { s with
          mem := t.mem, outLen := s.inLen - 31, schedInfo := t.schedInfo, r := 0, seq := .idle
          status := doneStatus s .ok } ∧
        t.memRead .output 0 (s.inLen.toNat - 31) = pt ∧
        SchedAfterComposite s t key ∧ SameOutsideSchedAndOut s.mem t.mem (s.inLen.toNat - 31)) ∧
    (gcmDecrypt key ((env.drop 3).take 12) ((env.drop 15).take (env.length - 31)) []
        (blockOfBytes (env.drop (env.length - 16))) = none →
      ∃ t, exec .envDecode s = .next t ∧
        t = { s with
          mem := t.mem, outLen := 0, schedInfo := t.schedInfo, r := 0, seq := .idle
          status := doneStatus s .authenticationFailure } ∧
        SchedAfterComposite s t key ∧ SameOutside s.mem t.mem 0x600 240)

/-- R303, R304: the size helpers. -/
def Obligations.SizeCommandsWriteResult : Prop :=
  ∀ s : State,
    (s.sizeArg.toNat ≤ 0xFFFFFFE0 →
      exec .sizeForCt s = .next { s with
        result := BitVec.ofNat 32 (s.sizeArg.toNat + 31), seq := .idle, status := doneStatus s .ok }) ∧
    (0xFFFFFFE0 < s.sizeArg.toNat →
      exec .sizeForCt s = .next { s with result := 0, seq := .idle, status := doneStatus s .lengthError }) ∧
    (31 ≤ s.sizeArg.toNat →
      exec .sizeForPt s = .next { s with
        result := BitVec.ofNat 32 (s.sizeArg.toNat - 31), seq := .idle, status := doneStatus s .ok }) ∧
    (s.sizeArg.toNat < 31 →
      exec .sizeForPt s = .next { s with result := 0, seq := .idle, status := doneStatus s .malformedEnvelope })

/-- R325: ZEROIZE clears every key, slot, Block register, length and size register, array and schedule; it keeps CTRL,
CMD and STATUS.OVR. -/
def Obligations.ZeroizeClearsEverythingButControl : Prop :=
  ∀ s : State, s.params.legal → ∃ t, exec .zeroize s = .next t ∧
    t = { s with
      keyReg := Vector.replicate 8 0, keyCfg := { keylen := 0, valid := false }, a := 0, b := 0, r := 0
      aadLen := 0, inLen := 0, nonceLen := 0, outLen := 0, sizeArg := 0, result := 0, schedInfo := none
      ring := List.replicate s.ring.length { tag := 0, cfg := { keylen := 0, valid := false }
                                             key := Vector.replicate 8 0 }
      mem := t.mem, seq := .idle, status := doneStatus s .ok } ∧
    (∀ x : Buf, t.memRead x 0 (x.size s.params) = zeros (x.size s.params)) ∧
    (∀ a, (∀ x : Buf, ¬(x.base ≤ a ∧ a < x.base + x.size s.params)) → t.mem.readByte a = s.mem.readByte a)

/-! ### Commands: rules over all of them -/

/-- R344, R342: a well-formed command reports exactly one code, that of the first check in its order that fails. -/
def Obligations.CommandsReportTheFirstFailingCheck : Prop :=
  ∀ (s : State) (i : Instr), i.wf s.params.krSlots = true →
    ∃ t, exec i s = .next t ∧ t.status = doneStatus s (firstError s i)

/-- R343, R327: what a failing command writes: by its class, R, OUT_LEN or RESULT is cleared; SCHED and SCHED_INFO can change
only in a composite command; OUT and everything else is unchanged. -/
def Obligations.FailingCommandsMakeOnlyTheErrorWrites : Prop :=
  (∀ i : Instr,
    (cmdClass i = .r ↔ i = .encryptBlock ∨ i = .gf8Xtime ∨ i = .gf8Mul ∨ i = .gf128Halve ∨ i = .gf128Mul ∨ i = .ghash) ∧
    (cmdClass i = .out ↔ (∃ pol, i = .ctr pol) ∨ isComposite i = true) ∧
    (cmdClass i = .size ↔ i = .sizeForCt ∨ i = .sizeForPt)) ∧
  ∀ (s t : State) (i : Instr), i.wf s.params.krSlots = true → exec i s = .next t → t.status.err ≠ .ok →
    t = { s with
      r := if cmdClass i = .r ∨ cmdClass i = .out then 0 else s.r
      outLen := if cmdClass i = .out then 0 else s.outLen
      result := if cmdClass i = .size then 0 else s.result
      mem := t.mem, schedInfo := t.schedInfo, seq := .idle, status := t.status } ∧
    SameOutside s.mem t.mem 0x600 240 ∧
    (isComposite i = false → t.mem = s.mem ∧ t.schedInfo = s.schedInfo) ∧
    (isComposite i = true → s.ctrl.harden = true → t.schedInfo = none ∧ t.memRead .sched 0 240 = zeros 240) ∧
    (isComposite i = true → s.ctrl.harden = false → t.status.err ≠ .authenticationFailure →
      t.mem = s.mem ∧ t.schedInfo = s.schedInfo)

/-- R34, R326: with HARDEN = 1 every exit of a composite command leaves SCHED zero and SCHED_INFO = 0; with HARDEN = 0 a
successful one leaves VALID = 1; HARDEN has no effect on any other command. -/
def Obligations.HardenClearsTheScheduleOfCompositeCommandsOnly : Prop :=
  (∀ i : Instr, isComposite i = true ↔
    i = .gcmEncrypt ∨ i = .gcmDecrypt ∨ (∃ slot, i = .envEncode slot) ∨ i = .envDecode) ∧
  ∀ (s t : State) (i : Instr), i.wf s.params.krSlots = true → exec i s = .next t →
    (isComposite i = true → s.ctrl.harden = true → t.schedInfo = none ∧ t.memRead .sched 0 240 = zeros 240) ∧
    (isComposite i = true → s.ctrl.harden = false → t.status.err = .ok → t.schedInfo ≠ none) ∧
    (isComposite i = false → ∀ h : Bool,
      exec i { s with ctrl := { s.ctrl with harden := h } } = .next { t with ctrl := { t.ctrl with harden := h } })

/-- R33: CTRL.CT_CMP has no effect on any value, error code or register. -/
def Obligations.CtCmpHasNoEffect : Prop :=
  ∀ (s t : State) (i : Instr) (c : Bool), exec i s = .next t →
    exec i { s with ctrl := { s.ctrl with ctCmp := c } } = .next { t with ctrl := { t.ctrl with ctCmp := c } }

/-- R136, R51, R52, R57: no command but ZEROIZE writes a key, a slot, an operand register or an input buffer, and none
writes CTRL or CMD. -/
def Obligations.CommandsNeverWriteTheirInputs : Prop :=
  ∀ (s t : State) (i : Instr), exec i s = .next t →
    t.params = s.params ∧ t.ctrl = s.ctrl ∧ t.cmd = s.cmd ∧
    (i ≠ .zeroize →
      t.keyReg = s.keyReg ∧ t.keyCfg = s.keyCfg ∧ t.ring = s.ring ∧ t.a = s.a ∧ t.b = s.b ∧
      t.aadLen = s.aadLen ∧ t.inLen = s.inLen ∧ t.nonceLen = s.nonceLen ∧ t.sizeArg = s.sizeArg ∧
      ∀ x, x < 0x600 ∨ (0x6F0 ≤ x ∧ x < 0x3000) → t.mem.readByte x = s.mem.readByte x)

/-- R267: a failed verification of GCM_DECRYPT or ENV_DECODE discloses nothing. Two states that differ in any operand (the
tag, the arrays but for SCHED and OUT, the key of KEYREG, the key ring, the lengths), and both fail, end with the same code,
the same R, OUT_LEN and OUT, and, under HARDEN = 1, the same SCHED and SCHED_INFO. Under HARDEN = 0 SCHED holds the schedule
of the command's key (R343), which is the same where the key is. -/
def Obligations.AuthenticationFailureIsUniform : Prop :=
  ∀ (s s' t t' : State) (i : Instr), i = .gcmDecrypt ∨ i = .envDecode →
    s' = { s with
      b := s'.b, mem := s'.mem, keyReg := s'.keyReg, keyCfg := s'.keyCfg, ring := s'.ring, aadLen := s'.aadLen
      inLen := s'.inLen, nonceLen := s'.nonceLen } →
    (∀ x, (0x600 ≤ x ∧ x < 0x6F0) ∨ (0x3000 ≤ x ∧ x < 0x4000) → s'.mem.readByte x = s.mem.readByte x) →
    exec i s = .next t → exec i s' = .next t' →
    t.status.err = .authenticationFailure → t'.status.err = .authenticationFailure →
    t' = { t with
      b := s'.b, mem := t'.mem, keyReg := s'.keyReg, keyCfg := s'.keyCfg, ring := s'.ring, aadLen := s'.aadLen
      inLen := s'.inLen, nonceLen := s'.nonceLen, schedInfo := t'.schedInfo } ∧
    t.r = 0 ∧ t.outLen = 0 ∧
    (∀ x, 0x3000 ≤ x ∧ x < 0x4000 → t.mem.readByte x = s.mem.readByte x ∧ t'.mem.readByte x = t.mem.readByte x) ∧
    (s.ctrl.harden = true ∨
      (i = .gcmDecrypt ∧ s'.keyReg = s.keyReg ∧ s'.keyCfg = s.keyCfg) ∨
      (i = .envDecode ∧ lookupSlot s'.ring (tagOfBytes ((s'.memRead .input 0 s'.inLen.toNat).take 3)) =
        lookupSlot s.ring (tagOfBytes ((s.memRead .input 0 s.inLen.toNat).take 3))) →
      t'.schedInfo = t.schedInfo ∧ ∀ x, 0x600 ≤ x ∧ x < 0x6F0 → t'.mem.readByte x = t.mem.readByte x)

/-! ### The field arithmetic -/

/-- R160, R161, R162: doubling reduces by 0x1b; the product by each power of two is repeated doubling, which with
distribution fixes every product; and the laws of gf8_mul. -/
def Obligations.Gf8MulLaws : Prop :=
  (∀ x : Byte, (x.toNat < 128 → (xtime x).toNat = 2 * x.toNat) ∧
    (128 ≤ x.toNat → xtime x = BitVec.ofNat 8 (2 * x.toNat - 256) ^^^ 0x1b)) ∧
  (∀ (x : Byte) (k : Nat), k < 8 → gf8Mul x (BitVec.twoPow 8 k) = Nat.iterate xtime k x) ∧
  ∀ x y z : Byte, gf8Mul x 0 = 0 ∧ gf8Mul x 1 = x ∧ gf8Mul x 2 = xtime x ∧ gf8Mul x 3 = xtime x ^^^ x ∧
    gf8Mul x y = gf8Mul y x ∧ gf8Mul x (y ^^^ z) = gf8Mul x y ^^^ gf8Mul x z

/-- R164, R165: `halve` on the bytes of a Block; the product of the Block whose only bit is bit i (R163) is y halved i
times, which with distribution fixes every product; zero, the identity 80 00..00 on both sides, commutativity, and
distribution over xor. -/
def Obligations.Gf128MulLaws : Prop :=
  (∀ y : Block, bytesOfBlock (halve y) = halveBytes (bytesOfBlock y)) ∧
  (∀ (i : Nat) (y : Block), i < 128 → mulGF128 (BitVec.twoPow 128 (127 - i)) y = Nat.iterate halve i y) ∧
  ∀ x y z : Block, mulGF128 0 y = 0 ∧ mulGF128 (0x80#8 ++ 0#120) y = y ∧ mulGF128 y (0x80#8 ++ 0#120) = y ∧
    mulGF128 x y = mulGF128 y x ∧ mulGF128 (x ^^^ y) z = mulGF128 x z ^^^ mulGF128 y z

/-- R180: the S-box table is `affine(inv(a))`, with inv(0) = 0 (values the spec marks as general knowledge: log 13). -/
def Obligations.SboxIsAffineOfTheInverse : Prop :=
  ∀ x : Byte, ∃ y : Byte, ((x = 0 ∧ y = 0) ∨ gf8Mul x y = 1) ∧ ∀ i < 8, (sbox x).getLsbD i = affineBit y i

/-! ### The cipher -/

/-- R181 to R184: SubBytes and AddRoundKey act byte by byte, ShiftRows is the byte permutation of the rule, and MixColumns
multiplies each column by the fixed matrix over GF(2^8) (a matrix the spec marks as general knowledge: log 13). -/
def Obligations.RoundTransformByteFormulas : Prop :=
  ∀ (x : Block) (r c : Nat), r < 4 → c < 4 →
    blockByte (shiftRows x) (r + 4 * c) = blockByte x (r + 4 * ((c + r) % 4)) ∧
    blockByte (subBytes x) (r + 4 * c) = sbox (blockByte x (r + 4 * c)) ∧
    (∀ k : Block, blockByte (addRoundKey x k) (r + 4 * c) = blockByte x (r + 4 * c) ^^^ blockByte k (r + 4 * c)) ∧
    blockByte (mixColumns x) (r + 4 * c) =
      gf8Mul (blockByte x (r + 4 * c)) 2 ^^^ gf8Mul (blockByte x ((r + 1) % 4 + 4 * c)) 3 ^^^
        blockByte x ((r + 2) % 4 + 4 * c) ^^^ blockByte x ((r + 3) % 4 + 4 * c)

/-- R185 to R188: RotWord moves each byte of a word one place towards byte 0 and byte 0 to the end, SubWord takes the S-box
of each; the sizes, the length and the recurrence of the key schedule, for every key of a legal size. A word is written with
its byte 0 first. RotWord's direction and the byte rcon enters are general knowledge by the spec's own mark (log 13). -/
def Obligations.KeyScheduleRecurrence : Prop :=
  (∀ t0 t1 t2 t3 : Byte, rotWord (t0 ++ t1 ++ t2 ++ t3) = t1 ++ t2 ++ t3 ++ t0 ∧
    subWord (t0 ++ t1 ++ t2 ++ t3) = sbox t0 ++ sbox t1 ++ sbox t2 ++ sbox t3) ∧
  ∀ key : Key, key.bytes.length = key.size.keyBytes →
    key.size.nk = key.bytes.length / 4 ∧ key.size.nr = key.bytes.length / 4 + 6 ∧
    (expandKey key).length = 16 * (key.size.nr + 1) ∧
    (expandKey key).take key.size.keyBytes = key.bytes ∧
    (∀ i < 4 * (key.size.nr + 1),
      slice (expandKey key) (4 * i) 4 = beBytes 4 ((expandWords key.size key.bytes).getD i 0).toNat) ∧
    ∀ i, key.size.nk ≤ i → i < 4 * (key.size.nr + 1) →
      (expandWords key.size key.bytes).getD i 0 =
        (expandWords key.size key.bytes).getD (i - key.size.nk) 0 ^^^
          (if i % key.size.nk = 0 then
            subWord (rotWord ((expandWords key.size key.bytes).getD (i - 1) 0)) ^^^
              (rcon (i / key.size.nk - 1) ++ 0#24)
          else if key.size = .aes256 ∧ i % 8 = 4 then subWord ((expandWords key.size key.bytes).getD (i - 1) 0)
          else (expandWords key.size key.bytes).getD (i - 1) 0)

/-- R188, R190: on a schedule of a legal length round key r is bytes 16r to 16r + 15, and the loop is the standard cipher:
one initial AddRoundKey, Nr - 1 full rounds, and a final round without MixColumns. -/
def Obligations.EncryptBlockIsTheStandardCipher : Prop :=
  ∀ (k : KeySize) (sched : List Byte) (x : Block), sched.length = 16 * (k.nr + 1) →
    (∀ r ≤ k.nr, ∀ j < 16, blockByte (roundKey sched r) j = sched.getD (16 * r + j) 0) ∧
    encryptBlock sched x =
      addRoundKey (shiftRows (subBytes
        ((List.range (k.nr - 1)).foldl
          (fun y r => addRoundKey (mixColumns (shiftRows (subBytes y))) (roundKey sched (r + 1)))
          (addRoundKey x (roundKey sched 0))))) (roundKey sched k.nr)

/-! ### Counter mode, GHASH, GCM, the envelope -/

/-- R221, R223, R220: byte j of the output is byte j of the data XOR byte j mod 16 of the cipher of counter
C0 + p + j div 16, and the next counter is C0 + p + ceil(len/16), modulo 2^128. -/
def Obligations.CtrOutputBytesAndNextCounter : Prop :=
  ∀ (sched : List Byte) (c0 : Block) (pol : CounterPolicy) (data : List Byte) (p : Nat),
    p = (if pol = .preIncrement then 1 else 0) →
    (ctrApply sched c0 pol data).1.length = data.length ∧
    (∀ j < data.length, (ctrApply sched c0 pol data).1.getD j 0 =
      data.getD j 0 ^^^ blockByte (encryptBlock sched (BitVec.ofNat 128 (c0.toNat + p + j / 16))) (j % 16)) ∧
    (ctrApply sched c0 pol data).2 = BitVec.ofNat 128 (c0.toNat + p + (data.length + 15) / 16)

/-- R224: CTR is its own inverse. -/
def Obligations.CtrIsItsOwnInverse : Prop :=
  ∀ (sched : List Byte) (c0 : Block) (pol : CounterPolicy) (data : List Byte),
    (ctrApply sched c0 pol (ctrApply sched c0 pol data).1).1 = data

/-- R240 to R242, R244: what GHASH folds in (the first input's blocks in order, then the second's, a partial last block padded
with zero bytes at its end, then the length block with the bit length of the first input in bytes 0..7 and of the second in
bytes 8..15, both big-endian), each block XORed into the accumulator before the product with H; and the laws of GHASH. -/
def Obligations.GhashIsAffine : Prop :=
  (∀ (h acc : Block) (aad ct : List Byte), ghash h aad ct acc =
    mulGF128 (ghashData h (ghashData h acc aad) ct ^^^ lengthBlock aad.length ct.length) h) ∧
  (∀ h acc : Block, ghashData h acc [] = acc) ∧
  (∀ (h acc : Block) (data : List Byte), data ≠ [] →
    ghashData h acc data = ghashData h (mulGF128 (acc ^^^ padBlock (data.take 16)) h) (data.drop 16)) ∧
  (∀ chunk : List Byte, chunk.length ≤ 16 → ∀ j < 16, blockByte (padBlock chunk) j = chunk.getD j 0) ∧
  (∀ a c j : Nat, j < 8 →
    blockByte (lengthBlock a c) j = BitVec.ofNat 8 (8 * a / 2 ^ (8 * (7 - j))) ∧
    blockByte (lengthBlock a c) (8 + j) = BitVec.ofNat 8 (8 * c / 2 ^ (8 * (7 - j)))) ∧
  (∀ h acc : Block, ghash h [] [] acc = mulGF128 acc h) ∧
  (∀ (h : Block) (aad ct : List Byte) (acc : Block), h = 0 → ghash h aad ct acc = 0) ∧
  ∀ (h acc acc' : Block) (aad aad' ct ct' : List Byte), aad.length = aad'.length → ct.length = ct'.length →
    ghash h aad ct acc ^^^ ghash h aad' ct' acc' =
      ghash h (xorBytes aad aad') (xorBytes ct ct') (acc ^^^ acc') ^^^
        ghash h (zeros aad.length) (zeros ct.length) 0

/-- R272, R266: decrypting what GCM encrypted gives the plaintext back, lengths are kept, and every other tag is
refused. -/
def Obligations.GcmRoundTripAndTagCheck : Prop :=
  ∀ (key : Key) (nonce pt aad : List Byte) (tag : Block),
    gcmDecrypt key nonce (gcmEncrypt key nonce pt aad).1 aad (gcmEncrypt key nonce pt aad).2 = some pt ∧
    (gcmEncrypt key nonce pt aad).1.length = pt.length ∧
    (tag ≠ (gcmEncrypt key nonce pt aad).2 →
      gcmDecrypt key nonce (gcmEncrypt key nonce pt aad).1 aad tag = none)

/-- R272: flipping any one bit of the ciphertext or of the associated data is detected, provided H is not zero (I17). -/
def Obligations.OneFlippedBitIsDetected : Prop :=
  ∀ (key : Key) (nonce pt aad : List Byte) (i j : Nat), j < 8 → hashKey (expandKey key) ≠ 0 →
    (i < pt.length →
      gcmDecrypt key nonce (flipBit (gcmEncrypt key nonce pt aad).1 i j) aad (gcmEncrypt key nonce pt aad).2 = none) ∧
    (i < aad.length →
      gcmDecrypt key nonce (gcmEncrypt key nonce pt aad).1 (flipBit aad i j) (gcmEncrypt key nonce pt aad).2 = none)

/-- R272 on the machine: GCM_ENCRYPT, then GCM_DECRYPT of what it produced, gives the plaintext back in OUT. -/
def Obligations.GcmEncryptThenDecryptGivesThePlaintext : Prop :=
  ∀ s t : State, s.params.legal → exec .gcmEncrypt s = .next t → t.status.err = .ok →
    ∃ u, exec .gcmDecrypt (handedBack t) = .next u ∧ u.status.err = .ok ∧ u.outLen = s.inLen ∧
      u.memRead .output 0 s.inLen.toNat = s.memRead .input 0 s.inLen.toNat

/-- R298, R299 on the machine: ENV_ENCODE from slot n, then ENV_DECODE of the envelope, gives the plaintext back in OUT,
when no lower valid slot carries the same tag; whatever the nonce drawn. -/
def Obligations.EnvelopeEncodeThenDecodeGivesThePlaintext : Prop :=
  ∀ (s t : State) (slot : Fin 16), s.params.legal → s.ring.length = s.params.krSlots →
    slot.val < s.params.krSlots → exec (.envEncode slot) s = .next t → t.status.err = .ok →
    (∀ m < slot.val, (s.slot m).cfg.valid = true → (s.slot m).tag ≠ (s.slot slot.val).tag) →
    t.outLen = s.inLen + 31 ∧
    ∃ u, exec .envDecode (handedBack t) = .next u ∧ u.status.err = .ok ∧ u.outLen = s.inLen ∧
      u.memRead .output 0 s.inLen.toNat = s.memRead .input 0 s.inLen.toNat

/-- R294: the three tag bytes make the value compared; the lookup takes the lowest-numbered valid slot with that tag, and
fails when there is none. -/
def Obligations.LookupTakesTheLowestMatchingSlot : Prop :=
  (∀ v0 v1 v2 : Byte, (tagOfBytes [v0, v1, v2]).toNat = v0.toNat + v1.toNat * 2 ^ 8 + v2.toNat * 2 ^ 16) ∧
  (∀ v : BitVec 24, (tagBytes v).length = 3 ∧ tagOfBytes (tagBytes v) = v) ∧
  ∀ (ring : List Slot) (v : BitVec 24),
    (∀ x, lookupSlot ring v = some x ↔
      ∃ n < ring.length, ring.getD n Slot.zero = x ∧ x.cfg.valid = true ∧ x.tag = v ∧
        ∀ m < n, ¬((ring.getD m Slot.zero).cfg.valid = true ∧ (ring.getD m Slot.zero).tag = v)) ∧
    (lookupSlot ring v = none ↔ ∀ n < ring.length,
      ¬((ring.getD n Slot.zero).cfg.valid = true ∧ (ring.getD n Slot.zero).tag = v))
end

