-- ==== Sys2Proof/Laws/Bytes.lean ====
section
/-! SUPPORT. The conversions of Machine/Bytes.lean: lengths, inverses, and one byte at a time. -/

namespace Sys2Proof.Machine

@[simp] theorem length_zeros (n : Nat) : (zeros n).length = n := by simp [zeros]

@[simp] theorem length_beBytes (n v : Nat) : (beBytes n v).length = n := by
  induction n with
  | zero => rfl
  | succ n ih => simp [beBytes, ih]

theorem two_pow_eight_mul (n : Nat) : (2 : Nat) ^ (8 * n) = 256 ^ n := by rw [pow_mul]; norm_num

@[simp] theorem intBe_nil : intBe [] = 0 := rfl

theorem foldl_intBe (acc : Nat) (s : List Byte) :
    s.foldl (fun acc x => acc * 256 + x.toNat) acc = acc * 256 ^ s.length + intBe s := by
  induction s generalizing acc with
  | nil => simp
  | cons x s ih =>
    have h0 : intBe (x :: s) = x.toNat * 256 ^ s.length + intBe s := by
      show List.foldl _ (0 * 256 + x.toNat) s = _
      rw [ih]; simp
    rw [List.foldl_cons, ih, h0, List.length_cons]
    ring

theorem intBe_cons (x : Byte) (s : List Byte) : intBe (x :: s) = x.toNat * 256 ^ s.length + intBe s := by
  show List.foldl _ (0 * 256 + x.toNat) s = _
  rw [foldl_intBe]; simp

theorem intBe_append (s t : List Byte) : intBe (s ++ t) = intBe s * 256 ^ t.length + intBe t := by
  unfold intBe
  rw [List.foldl_append, foldl_intBe]
  rfl

theorem intBe_lt (s : List Byte) : intBe s < 256 ^ s.length := by
  induction s with
  | nil => simp
  | cons x s ih =>
    rw [intBe_cons, List.length_cons, pow_succ]
    have := x.isLt
    nlinarith

theorem intBe_beBytes (n v : Nat) : intBe (beBytes n v) = v % 256 ^ n := by
  induction n with
  | zero => simp [beBytes, Nat.mod_one]
  | succ n ih =>
    rw [beBytes, intBe_cons, ih, length_beBytes, BitVec.toNat_ofNat, two_pow_eight_mul, pow_succ 256 n,
      Nat.mod_mul, Nat.mul_comm, Nat.add_comm]

theorem beBytes_mod (n v : Nat) : beBytes n (v % 256 ^ n) = beBytes n v := by
  suffices h : ∀ m, n ≤ m → beBytes n (v % 256 ^ m) = beBytes n v from h n (Nat.le_refl n)
  intro m hm
  induction n with
  | zero => rfl
  | succ n ih =>
    rw [beBytes, beBytes, ih (by omega)]
    congr 1
    apply BitVec.eq_of_toNat_eq
    rw [BitVec.toNat_ofNat, BitVec.toNat_ofNat, two_pow_eight_mul]
    obtain ⟨d, rfl⟩ : ∃ d, m = n + (d + 1) := ⟨m - n - 1, by omega⟩
    rw [pow_add, Nat.mod_mul_right_div_self]
    rw [pow_succ, Nat.mul_comm]
    exact Nat.mod_mul_right_mod _ _ _

theorem beBytes_intBe (s : List Byte) : beBytes s.length (intBe s) = s := by
  induction s with
  | nil => rfl
  | cons x s ih =>
    rw [List.length_cons, beBytes, intBe_cons, two_pow_eight_mul]
    have hlt := intBe_lt s
    congr 1
    · apply BitVec.eq_of_toNat_eq
      rw [BitVec.toNat_ofNat, Nat.mul_comm, Nat.mul_add_div (by positivity), Nat.div_eq_of_lt hlt]
      have := x.isLt
      simp only [Nat.add_zero]
      exact Nat.mod_eq_of_lt this
    · rw [← beBytes_mod, Nat.mul_comm, Nat.mul_add_mod, Nat.mod_eq_of_lt hlt, ih]

@[simp] theorem length_bytesOfBlock (x : Block) : (bytesOfBlock x).length = 16 := by simp [bytesOfBlock]

@[simp] theorem length_nonceToBytes (x : Nonce) : (nonceToBytes x).length = 12 := by simp [nonceToBytes]

@[simp] theorem blockOfBytes_bytesOfBlock (x : Block) : blockOfBytes (bytesOfBlock x) = x := by
  apply BitVec.eq_of_toNat_eq
  rw [blockOfBytes, bytesOfBlock, intBe_beBytes, BitVec.toNat_ofNat]
  have := x.isLt
  omega

theorem bytesOfBlock_blockOfBytes {s : List Byte} (h : s.length = 16) : bytesOfBlock (blockOfBytes s) = s := by
  rw [bytesOfBlock, blockOfBytes, BitVec.toNat_ofNat,
    show (2 : Nat) ^ 128 = 256 ^ 16 by norm_num, beBytes_mod, ← h, beBytes_intBe]

theorem getD_beBytes {n v j : Nat} (h : j < n) : (beBytes n v).getD j 0 = BitVec.ofNat 8 (v / 2 ^ (8 * (n - 1 - j))) := by
  induction n generalizing j with
  | zero => omega
  | succ n ih =>
    cases j with
    | zero => simp [beBytes]
    | succ j =>
      rw [beBytes, List.getD_cons_succ, ih (by omega)]
      congr 4; omega

theorem blockByte_eq_getD (x : Block) {j : Nat} (h : j < 16) : blockByte x j = (bytesOfBlock x).getD j 0 := by
  rw [bytesOfBlock, getD_beBytes h]
  apply BitVec.eq_of_toNat_eq
  simp [blockByte, BitVec.extractLsb'_toNat, Nat.shiftRight_eq_div_pow]

theorem blockByte_blockOfBytes {s : List Byte} (hs : s.length = 16) {j : Nat} (h : j < 16) :
    blockByte (blockOfBytes s) j = s.getD j 0 := by
  rw [blockByte_eq_getD _ h, bytesOfBlock_blockOfBytes hs]

theorem blockByte_blockOfFn (f : Nat → Byte) {j : Nat} (h : j < 16) : blockByte (blockOfFn f) j = f j := by
  rw [blockOfFn, blockByte_blockOfBytes (by simp) h]
  simp [List.getD_eq_getElem?_getD, h]

/-- Two Blocks with the same 16 bytes are equal. -/
theorem block_ext {x y : Block} (h : ∀ j < 16, blockByte x j = blockByte y j) : x = y := by
  rw [← blockOfBytes_bytesOfBlock x, ← blockOfBytes_bytesOfBlock y]
  congr 1
  apply List.ext_getElem (by simp)
  intro j h1 h2
  have hj : j < 16 := by simpa using h1
  have := h j hj
  rw [blockByte_eq_getD _ hj, blockByte_eq_getD _ hj] at this
  simpa [List.getD_eq_getElem?_getD, hj] using this

theorem blockByte_xor (x y : Block) (j : Nat) : blockByte (x ^^^ y) j = blockByte x j ^^^ blockByte y j := by
  simp [blockByte, BitVec.extractLsb'_xor]

@[simp] theorem length_xorBytes (s t : List Byte) : (xorBytes s t).length = min s.length t.length := by
  simp [xorBytes]

/-- XORing twice with the same bytes gives the data back (R224). -/
theorem xorBytes_xorBytes {s k : List Byte} (h : s.length ≤ k.length) : xorBytes (xorBytes s k) k = s := by
  induction s generalizing k with
  | nil => rfl
  | cons x s ih =>
    cases k with
    | nil => simp at h
    | cons y k =>
      simp only [xorBytes, List.zipWith_cons_cons, BitVec.xor_assoc, BitVec.xor_self, BitVec.xor_zero]
      congr 1
      exact ih (by simpa using h)

/-! ### Chunks -/

@[simp] theorem length_chunksN (n : Nat) (s : List Byte) : (chunksN n s).length = n := by
  induction n generalizing s with
  | zero => rfl
  | succ n ih => simp [chunksN, ih]

theorem flatten_chunksN (n : Nat) (s : List Byte) : (chunksN n s).flatten = s.take (16 * n) := by
  induction n generalizing s with
  | zero => simp [chunksN]
  | succ n ih =>
    rw [chunksN, List.flatten_cons, ih, ← List.take_add]
    congr 1; omega

/-- The chunks are the data, in order (R221). -/
@[simp] theorem flatten_chunks (s : List Byte) : (chunks s).flatten = s := by
  rw [chunks, flatten_chunksN]
  exact List.take_of_length_le (by omega)

@[simp] theorem length_chunks (s : List Byte) : (chunks s).length = (s.length + 15) / 16 := by simp [chunks]

theorem chunks_nil : chunks [] = [] := rfl

theorem chunksN_length_le {n : Nat} {s c : List Byte} (h : c ∈ chunksN n s) : c.length ≤ 16 := by
  induction n generalizing s with
  | zero => simp [chunksN] at h
  | succ n ih =>
    simp only [chunksN, List.mem_cons] at h
    rcases h with rfl | h
    · simp
    · exact ih h

/-- Every chunk has at most 16 bytes. -/
theorem length_le_of_mem_chunks {s c : List Byte} (h : c ∈ chunks s) : c.length ≤ 16 := chunksN_length_le h

/-- The first chunk and the rest of a non-empty byte sequence. -/
theorem chunks_eq_cons {s : List Byte} (h : s ≠ []) : chunks s = s.take 16 :: chunks (s.drop 16) := by
  have : 0 < s.length := List.length_pos_iff.mpr h
  unfold chunks
  obtain ⟨n, hn⟩ : ∃ n, (s.length + 15) / 16 = n + 1 := ⟨(s.length + 15) / 16 - 1, by omega⟩
  rw [hn, chunksN]
  congr 2
  simp only [List.length_drop]
  omega

/-! ### Bus words -/

@[simp] theorem length_lanes (w : Word) : (lanes w).length = 4 := rfl

/-- The four lanes of a word hold the word (R100). -/
@[simp] theorem wordOfLanes_lanes (w : Word) :
    wordOfLanes (laneByte w 0) (laneByte w 1) (laneByte w 2) (laneByte w 3) = w := by
  simp only [wordOfLanes, laneByte]
  apply BitVec.eq_of_getLsbD_eq
  intro i hi
  simp only [BitVec.getLsbD_append, BitVec.getLsbD_extractLsb']
  split
  · simp [*]
  · split
    · simp [show i - 8 < 8 by omega, show 8 + (i - 8) = i by omega]
    · split
      · simp [show i - 8 - 8 < 8 by omega, show 16 + (i - 8 - 8) = i by omega]
      · simp [show i - 8 - 8 - 8 < 8 by omega, show 24 + (i - 8 - 8 - 8) = i by omega]

@[simp] theorem length_keyWordBytes (k : Vector Word 8) : (keyWordBytes k).length = 32 := by
  simp [keyWordBytes, List.length_flatMap]

end Sys2Proof.Machine
end

