-- ==== Sys2Proof/Laws/Memory.lean ====
section
/-! SUPPORT. The laws of the byte arrays: a read after a write, the canonical form is kept, equal memories are equal
data. -/

namespace Sys2Proof.Machine

@[simp] theorem readByte_nil (x : Nat) : Memory.readByte [] x = 0 := rfl

theorem readByte_of_not_mem {m : Memory} {x : Nat} (h : ∀ c ∈ m, c.1 ≠ x) : m.readByte x = 0 := by
  induction m with
  | nil => rfl
  | cons c m ih =>
    rw [Memory.readByte, if_neg (h c (by simp))]
    exact ih fun d hd => h d (by simp [hd])

theorem readByte_append (m n : Memory) (x : Nat) :
    Memory.readByte (m ++ n) x = if ∃ c ∈ m, c.1 = x then m.readByte x else n.readByte x := by
  induction m with
  | nil => simp
  | cons c m ih =>
    by_cases h : c.1 = x
    · simp [Memory.readByte, h]
    · simp only [List.cons_append, Memory.readByte, if_neg h, ih, List.mem_cons]
      congr 1
      simp [h]

theorem readByte_filter {m : Memory} {p : Host.Cell → Bool} {x : Nat} (h : ∀ c : Host.Cell, c.1 = x → p c = true) :
    Memory.readByte (m.filter p) x = m.readByte x := by
  induction m with
  | nil => rfl
  | cons c m ih =>
    by_cases hx : c.1 = x
    · rw [List.filter_cons_of_pos (h c hx)]; simp [Memory.readByte, hx]
    · by_cases hp : p c = true
      · rw [List.filter_cons_of_pos hp]; simp [Memory.readByte, hx, ih]
      · rw [List.filter_cons_of_neg hp]; simp [Memory.readByte, hx, ih]

theorem mem_cells {base : Nat} {bs : List Byte} {c : Host.Cell} (h : c ∈ Memory.cells base bs) :
    base ≤ c.1 ∧ c.1 < base + bs.length ∧ c.2 ≠ Memory.unlisted := by
  induction bs generalizing base with
  | nil => simp [Memory.cells] at h
  | cons x bs ih =>
    rw [Memory.cells] at h
    split at h
    · obtain ⟨h1, h2, h3⟩ := ih h; exact ⟨by omega, by simp only [List.length_cons]; omega, h3⟩
    · rcases List.mem_cons.mp h with rfl | h
      · simp_all
      · obtain ⟨h1, h2, h3⟩ := ih h; exact ⟨by omega, by simp only [List.length_cons]; omega, h3⟩

theorem readByte_cells (base : Nat) (bs : List Byte) (i : Nat) :
    Memory.readByte (Memory.cells base bs) (base + i) = bs.getD i 0 := by
  induction bs generalizing base i with
  | nil => simp [Memory.cells]
  | cons x bs ih =>
    cases i with
    | zero =>
      rw [Memory.cells]
      split
      · rename_i h
        rw [readByte_of_not_mem, h]; · rfl
        intro c hc; have := mem_cells hc; omega
      · simp [Memory.readByte]
    | succ i =>
      have := ih (base + 1) i
      rw [show base + 1 + i = base + (i + 1) by omega] at this
      rw [Memory.cells]
      split
      · simpa using this
      · simp only [Memory.readByte, show base ≠ base + (i + 1) by omega, if_false]
        simpa using this

/-- What a byte reads as after `bs` is written from `base` on: the byte written there, or the old byte. -/
theorem readByte_writeBytes (m : Memory) (base : Nat) (bs : List Byte) (x : Nat) :
    (m.writeBytes base bs).readByte x =
      if base ≤ x ∧ x < base + bs.length then bs.getD (x - base) 0 else m.readByte x := by
  unfold Memory.writeBytes
  rw [List.append_assoc, readByte_append]
  by_cases hlo : x < base
  · have hr : Memory.readByte (m.filter fun c => decide (c.1 < base)) x = m.readByte x :=
      readByte_filter fun c hc => by simp [hc, hlo]
    rw [if_neg (by omega : ¬(base ≤ x ∧ x < base + bs.length)), hr]
    split
    · rfl
    · rename_i hno
      rw [readByte_append, if_neg, readByte_of_not_mem, readByte_of_not_mem]
      · intro c hc hx
        exact hno ⟨c, by simp [hc, hx, hlo], hx⟩
      · intro c hc; simp at hc; omega
      · rintro ⟨c, hc, rfl⟩; have := mem_cells hc; omega
  · rw [if_neg (by rintro ⟨c, hc, rfl⟩; simp at hc; omega), readByte_append]
    by_cases hin : x < base + bs.length
    · rw [if_pos (by omega : base ≤ x ∧ x < base + bs.length)]
      have hc := readByte_cells base bs (x - base)
      rw [show base + (x - base) = x by omega] at hc
      rw [← hc]
      split
      · rfl
      · rename_i hno
        rw [readByte_of_not_mem (m := m.filter _), readByte_of_not_mem]
        · intro c hc' hx; exact hno ⟨c, hc', hx⟩
        · intro c hc'; simp at hc'; omega
    · rw [if_neg (by omega : ¬(base ≤ x ∧ x < base + bs.length)),
        if_neg (by rintro ⟨c, hc, rfl⟩; have := mem_cells hc; omega)]
      exact readByte_filter fun c hc => by simp [hc]; omega

theorem pairwise_cells (base : Nat) (bs : List Byte) :
    (Memory.cells base bs).Pairwise (fun c d => c.1 < d.1) := by
  induction bs generalizing base with
  | nil => simp [Memory.cells]
  | cons x bs ih =>
    rw [Memory.cells]
    split
    · exact ih _
    · refine List.pairwise_cons.mpr ⟨fun c hc => ?_, ih _⟩
      have := mem_cells hc; simp only; omega

/-- Every memory operation keeps the canonical form: all of them are `writeBytes`. -/
theorem wf_writeBytes {m : Memory} (h : m.wf) (base : Nat) (bs : List Byte) : (m.writeBytes base bs).wf := by
  obtain ⟨hp, hv⟩ := h
  constructor
  · unfold Memory.writeBytes
    rw [List.pairwise_append, List.pairwise_append]
    refine ⟨⟨hp.filter _, pairwise_cells _ _, ?_⟩, hp.filter _, ?_⟩
    · intro c hc d hd
      have := mem_cells hd; simp at hc; omega
    · intro c hc d hd
      simp only [List.mem_append] at hc
      simp at hd
      rcases hc with hc | hc
      · simp at hc; omega
      · have := mem_cells hc; omega
  · intro c hc
    simp only [Memory.writeBytes, List.mem_append, List.mem_filter] at hc
    rcases hc with (hc | hc) | hc
    · exact hv c hc.1
    · exact (mem_cells hc).2.2
    · exact hv c hc.1

theorem wf_nil : Memory.wf [] := by simp [Memory.wf]

theorem readByte_of_mem {m : Memory} (h : m.wf) {c : Host.Cell} (hc : c ∈ m) : m.readByte c.1 = c.2 := by
  obtain ⟨hp, -⟩ := h
  induction m with
  | nil => simp at hc
  | cons d m ih =>
    obtain ⟨hd, hp'⟩ := List.pairwise_cons.mp hp
    rcases List.mem_cons.mp hc with rfl | hc
    · simp [Memory.readByte]
    · have := hd c hc
      rw [Memory.readByte, if_neg (by omega)]
      exact ih hc hp'

theorem mem_iff_readByte {m : Memory} (h : m.wf) (c : Host.Cell) :
    c ∈ m ↔ m.readByte c.1 = c.2 ∧ c.2 ≠ Memory.unlisted := by
  constructor
  · intro hc; exact ⟨readByte_of_mem h hc, h.2 c hc⟩
  · rintro ⟨hr, hne⟩
    by_contra hno
    apply hne
    rw [← hr]
    by_cases hex : ∃ d ∈ m, d.1 = c.1
    · obtain ⟨d, hd, hdc⟩ := hex
      have := readByte_of_mem h hd
      exact absurd (by rw [show c = d from Prod.ext hdc.symm (by rw [← hr, ← hdc, this])]; exact hd) hno
    · exact readByte_of_not_mem fun d hd hdc => hex ⟨d, hd, hdc⟩

/-- Equal memories are equal data: in canonical form the bytes that can be read determine the list. -/
theorem memory_ext {m n : Memory} (hm : m.wf) (hn : n.wf) (h : ∀ x, m.readByte x = n.readByte x) : m = n := by
  have hmem : ∀ c, c ∈ m ↔ c ∈ n := fun c => by rw [mem_iff_readByte hm, mem_iff_readByte hn, h]
  have nodup : ∀ {l : Memory}, l.wf → l.Nodup := fun hl =>
    hl.1.imp fun {a b} hab he => by rw [he] at hab; exact Nat.lt_irrefl _ hab
  refine List.Perm.eq_of_pairwise (le := fun c d => c.1 < d.1) ?_ hm.1 hn.1
    ((List.perm_ext_iff_of_nodup (nodup hm) (nodup hn)).mpr hmem)
  intro a b _ _ h1 h2; omega

@[simp] theorem length_readBytes (m : Memory) (base n : Nat) : (m.readBytes base n).length = n := by
  simp [Memory.readBytes]

theorem getD_readBytes (m : Memory) (base : Nat) {n i : Nat} (h : i < n) :
    (m.readBytes base n).getD i 0 = m.readByte (base + i) := by
  simp [Memory.readBytes, List.getD_eq_getElem?_getD, h]

theorem readBytes_congr {m m' : Memory} {base n : Nat} (h : ∀ i < n, m'.readByte (base + i) = m.readByte (base + i)) :
    m'.readBytes base n = m.readBytes base n := by
  unfold Memory.readBytes
  exact List.map_congr_left fun i hi => h i (List.mem_range.mp hi)

/-- Reading back exactly what was written. -/
@[simp] theorem readBytes_writeBytes_same (m : Memory) (base : Nat) (bs : List Byte) :
    (m.writeBytes base bs).readBytes base bs.length = bs := by
  apply List.ext_getElem (by simp)
  intro i h1 h2
  simp only [Memory.readBytes, List.getElem_map, List.getElem_range, readByte_writeBytes]
  rw [if_pos (by omega)]
  simp [List.getD_eq_getElem?_getD, h2]

/-- A write leaves every other range of bytes alone. -/
theorem readBytes_writeBytes_disjoint (m : Memory) {base base' n : Nat} {bs : List Byte}
    (h : base' + n ≤ base ∨ base + bs.length ≤ base') :
    (m.writeBytes base bs).readBytes base' n = m.readBytes base' n :=
  readBytes_congr fun i hi => by rw [readByte_writeBytes, if_neg (by omega)]

@[simp] theorem length_memRead (s : State) (x : Buf) (off n : Nat) : (s.memRead x off n).length = n := by
  simp [State.memRead]

theorem memRead_congr {s u : State} {x : Buf} {off n : Nat}
    (h : ∀ i < n, u.mem.readByte (x.base + off + i) = s.mem.readByte (x.base + off + i)) :
    u.memRead x off n = s.memRead x off n := readBytes_congr h

/-- Reading back what `MemWrite` wrote (R11). -/
@[simp] theorem memRead_memWrite_same (s : State) (x : Buf) (off : Nat) (bs : List Byte) :
    (s.memWrite x off bs).memRead x off bs.length = bs := readBytes_writeBytes_same _ _ _

/-- A `MemWrite` leaves every range of bytes outside the written one alone (R11, R52: the arrays do not alias). -/
theorem memRead_memWrite_disjoint (s : State) {x y : Buf} {off off' n : Nat} {bs : List Byte}
    (h : y.base + off' + n ≤ x.base + off ∨ x.base + off + bs.length ≤ y.base + off') :
    (s.memWrite x off bs).memRead y off' n = s.memRead y off' n := readBytes_writeBytes_disjoint _ h

/-- One byte after a `MemWrite`. -/
theorem readByte_memWrite (s : State) (x : Buf) (off : Nat) (bs : List Byte) (a : Nat) :
    (s.memWrite x off bs).mem.readByte a =
      if x.base + off ≤ a ∧ a < x.base + off + bs.length then bs.getD (a - (x.base + off)) 0 else s.mem.readByte a :=
  readByte_writeBytes _ _ _ _

/-- A cell of the written memory is an old one or lies in the written range. -/
theorem mem_writeBytes {m : Memory} {base : Nat} {bs : List Byte} {c : Host.Cell} (h : c ∈ m.writeBytes base bs) :
    c ∈ m ∨ (base ≤ c.1 ∧ c.1 < base + bs.length) := by
  simp only [Memory.writeBytes, List.mem_append, List.mem_filter] at h
  rcases h with (h | h) | h
  · exact .inl h.1
  · have := mem_cells h; exact .inr ⟨this.1, this.2.1⟩
  · exact .inl h.1

end Sys2Proof.Machine
end

