-- ==== Sys2Proof/Laws/State.lean ====
section
/-! SUPPORT. One lemma per field per named update of State, true by rfl, so that no later proof unfolds a record update;
and what the error and completion operations leave alone. -/

namespace Sys2Proof.Machine

/-! ### memWrite -/

@[simp] theorem memWrite_params (s : State) (x : Buf) (off : Nat) (bs : List Byte) : (s.memWrite x off bs).params = s.params := rfl
@[simp] theorem memWrite_ctrl (s : State) (x : Buf) (off : Nat) (bs : List Byte) : (s.memWrite x off bs).ctrl = s.ctrl := rfl
@[simp] theorem memWrite_cmd (s : State) (x : Buf) (off : Nat) (bs : List Byte) : (s.memWrite x off bs).cmd = s.cmd := rfl
@[simp] theorem memWrite_seq (s : State) (x : Buf) (off : Nat) (bs : List Byte) : (s.memWrite x off bs).seq = s.seq := rfl
@[simp] theorem memWrite_status (s : State) (x : Buf) (off : Nat) (bs : List Byte) : (s.memWrite x off bs).status = s.status := rfl
@[simp] theorem memWrite_keyCfg (s : State) (x : Buf) (off : Nat) (bs : List Byte) : (s.memWrite x off bs).keyCfg = s.keyCfg := rfl
@[simp] theorem memWrite_keyReg (s : State) (x : Buf) (off : Nat) (bs : List Byte) : (s.memWrite x off bs).keyReg = s.keyReg := rfl
@[simp] theorem memWrite_aadLen (s : State) (x : Buf) (off : Nat) (bs : List Byte) : (s.memWrite x off bs).aadLen = s.aadLen := rfl
@[simp] theorem memWrite_inLen (s : State) (x : Buf) (off : Nat) (bs : List Byte) : (s.memWrite x off bs).inLen = s.inLen := rfl
@[simp] theorem memWrite_nonceLen (s : State) (x : Buf) (off : Nat) (bs : List Byte) : (s.memWrite x off bs).nonceLen = s.nonceLen := rfl
@[simp] theorem memWrite_outLen (s : State) (x : Buf) (off : Nat) (bs : List Byte) : (s.memWrite x off bs).outLen = s.outLen := rfl
@[simp] theorem memWrite_sizeArg (s : State) (x : Buf) (off : Nat) (bs : List Byte) : (s.memWrite x off bs).sizeArg = s.sizeArg := rfl
@[simp] theorem memWrite_result (s : State) (x : Buf) (off : Nat) (bs : List Byte) : (s.memWrite x off bs).result = s.result := rfl
@[simp] theorem memWrite_schedInfo (s : State) (x : Buf) (off : Nat) (bs : List Byte) : (s.memWrite x off bs).schedInfo = s.schedInfo := rfl
@[simp] theorem memWrite_a (s : State) (x : Buf) (off : Nat) (bs : List Byte) : (s.memWrite x off bs).a = s.a := rfl
@[simp] theorem memWrite_b (s : State) (x : Buf) (off : Nat) (bs : List Byte) : (s.memWrite x off bs).b = s.b := rfl
@[simp] theorem memWrite_r (s : State) (x : Buf) (off : Nat) (bs : List Byte) : (s.memWrite x off bs).r = s.r := rfl
@[simp] theorem memWrite_ring (s : State) (x : Buf) (off : Nat) (bs : List Byte) : (s.memWrite x off bs).ring = s.ring := rfl
@[simp] theorem memWrite_mem (s : State) (x : Buf) (off : Nat) (bs : List Byte) : (s.memWrite x off bs).mem = s.mem.writeBytes (x.base + off) bs := rfl
@[simp] theorem memWrite_schedule (s : State) (x : Buf) (off : Nat) (bs : List Byte) : (s.memWrite x off bs).schedule = s.schedule := rfl
@[simp] theorem memWrite_response (s : State) (x : Buf) (off : Nat) (bs : List Byte) : (s.memWrite x off bs).response = s.response := rfl
@[simp] theorem memWrite_rng (s : State) (x : Buf) (off : Nat) (bs : List Byte) : (s.memWrite x off bs).rng = s.rng := rfl
@[simp] theorem memWrite_draws (s : State) (x : Buf) (off : Nat) (bs : List Byte) : (s.memWrite x off bs).draws = s.draws := rfl

/-! ### setR -/

@[simp] theorem setR_params (s : State) (v : Block) : (s.setR v).params = s.params := rfl
@[simp] theorem setR_ctrl (s : State) (v : Block) : (s.setR v).ctrl = s.ctrl := rfl
@[simp] theorem setR_cmd (s : State) (v : Block) : (s.setR v).cmd = s.cmd := rfl
@[simp] theorem setR_seq (s : State) (v : Block) : (s.setR v).seq = s.seq := rfl
@[simp] theorem setR_status (s : State) (v : Block) : (s.setR v).status = s.status := rfl
@[simp] theorem setR_keyCfg (s : State) (v : Block) : (s.setR v).keyCfg = s.keyCfg := rfl
@[simp] theorem setR_keyReg (s : State) (v : Block) : (s.setR v).keyReg = s.keyReg := rfl
@[simp] theorem setR_aadLen (s : State) (v : Block) : (s.setR v).aadLen = s.aadLen := rfl
@[simp] theorem setR_inLen (s : State) (v : Block) : (s.setR v).inLen = s.inLen := rfl
@[simp] theorem setR_nonceLen (s : State) (v : Block) : (s.setR v).nonceLen = s.nonceLen := rfl
@[simp] theorem setR_outLen (s : State) (v : Block) : (s.setR v).outLen = s.outLen := rfl
@[simp] theorem setR_sizeArg (s : State) (v : Block) : (s.setR v).sizeArg = s.sizeArg := rfl
@[simp] theorem setR_result (s : State) (v : Block) : (s.setR v).result = s.result := rfl
@[simp] theorem setR_schedInfo (s : State) (v : Block) : (s.setR v).schedInfo = s.schedInfo := rfl
@[simp] theorem setR_a (s : State) (v : Block) : (s.setR v).a = s.a := rfl
@[simp] theorem setR_b (s : State) (v : Block) : (s.setR v).b = s.b := rfl
@[simp] theorem setR_r (s : State) (v : Block) : (s.setR v).r = v := rfl
@[simp] theorem setR_ring (s : State) (v : Block) : (s.setR v).ring = s.ring := rfl
@[simp] theorem setR_mem (s : State) (v : Block) : (s.setR v).mem = s.mem := rfl
@[simp] theorem setR_schedule (s : State) (v : Block) : (s.setR v).schedule = s.schedule := rfl
@[simp] theorem setR_response (s : State) (v : Block) : (s.setR v).response = s.response := rfl
@[simp] theorem setR_rng (s : State) (v : Block) : (s.setR v).rng = s.rng := rfl
@[simp] theorem setR_draws (s : State) (v : Block) : (s.setR v).draws = s.draws := rfl

/-! ### setResult -/

@[simp] theorem setResult_params (s : State) (v : Word) : (s.setResult v).params = s.params := rfl
@[simp] theorem setResult_ctrl (s : State) (v : Word) : (s.setResult v).ctrl = s.ctrl := rfl
@[simp] theorem setResult_cmd (s : State) (v : Word) : (s.setResult v).cmd = s.cmd := rfl
@[simp] theorem setResult_seq (s : State) (v : Word) : (s.setResult v).seq = s.seq := rfl
@[simp] theorem setResult_status (s : State) (v : Word) : (s.setResult v).status = s.status := rfl
@[simp] theorem setResult_keyCfg (s : State) (v : Word) : (s.setResult v).keyCfg = s.keyCfg := rfl
@[simp] theorem setResult_keyReg (s : State) (v : Word) : (s.setResult v).keyReg = s.keyReg := rfl
@[simp] theorem setResult_aadLen (s : State) (v : Word) : (s.setResult v).aadLen = s.aadLen := rfl
@[simp] theorem setResult_inLen (s : State) (v : Word) : (s.setResult v).inLen = s.inLen := rfl
@[simp] theorem setResult_nonceLen (s : State) (v : Word) : (s.setResult v).nonceLen = s.nonceLen := rfl
@[simp] theorem setResult_outLen (s : State) (v : Word) : (s.setResult v).outLen = s.outLen := rfl
@[simp] theorem setResult_sizeArg (s : State) (v : Word) : (s.setResult v).sizeArg = s.sizeArg := rfl
@[simp] theorem setResult_result (s : State) (v : Word) : (s.setResult v).result = v := rfl
@[simp] theorem setResult_schedInfo (s : State) (v : Word) : (s.setResult v).schedInfo = s.schedInfo := rfl
@[simp] theorem setResult_a (s : State) (v : Word) : (s.setResult v).a = s.a := rfl
@[simp] theorem setResult_b (s : State) (v : Word) : (s.setResult v).b = s.b := rfl
@[simp] theorem setResult_r (s : State) (v : Word) : (s.setResult v).r = s.r := rfl
@[simp] theorem setResult_ring (s : State) (v : Word) : (s.setResult v).ring = s.ring := rfl
@[simp] theorem setResult_mem (s : State) (v : Word) : (s.setResult v).mem = s.mem := rfl
@[simp] theorem setResult_schedule (s : State) (v : Word) : (s.setResult v).schedule = s.schedule := rfl
@[simp] theorem setResult_response (s : State) (v : Word) : (s.setResult v).response = s.response := rfl
@[simp] theorem setResult_rng (s : State) (v : Word) : (s.setResult v).rng = s.rng := rfl
@[simp] theorem setResult_draws (s : State) (v : Word) : (s.setResult v).draws = s.draws := rfl

/-! ### writeOut -/

@[simp] theorem writeOut_params (s : State) (bs : List Byte) : (s.writeOut bs).params = s.params := rfl
@[simp] theorem writeOut_ctrl (s : State) (bs : List Byte) : (s.writeOut bs).ctrl = s.ctrl := rfl
@[simp] theorem writeOut_cmd (s : State) (bs : List Byte) : (s.writeOut bs).cmd = s.cmd := rfl
@[simp] theorem writeOut_seq (s : State) (bs : List Byte) : (s.writeOut bs).seq = s.seq := rfl
@[simp] theorem writeOut_status (s : State) (bs : List Byte) : (s.writeOut bs).status = s.status := rfl
@[simp] theorem writeOut_keyCfg (s : State) (bs : List Byte) : (s.writeOut bs).keyCfg = s.keyCfg := rfl
@[simp] theorem writeOut_keyReg (s : State) (bs : List Byte) : (s.writeOut bs).keyReg = s.keyReg := rfl
@[simp] theorem writeOut_aadLen (s : State) (bs : List Byte) : (s.writeOut bs).aadLen = s.aadLen := rfl
@[simp] theorem writeOut_inLen (s : State) (bs : List Byte) : (s.writeOut bs).inLen = s.inLen := rfl
@[simp] theorem writeOut_nonceLen (s : State) (bs : List Byte) : (s.writeOut bs).nonceLen = s.nonceLen := rfl
@[simp] theorem writeOut_outLen (s : State) (bs : List Byte) : (s.writeOut bs).outLen = BitVec.ofNat 32 bs.length := rfl
@[simp] theorem writeOut_sizeArg (s : State) (bs : List Byte) : (s.writeOut bs).sizeArg = s.sizeArg := rfl
@[simp] theorem writeOut_result (s : State) (bs : List Byte) : (s.writeOut bs).result = s.result := rfl
@[simp] theorem writeOut_schedInfo (s : State) (bs : List Byte) : (s.writeOut bs).schedInfo = s.schedInfo := rfl
@[simp] theorem writeOut_a (s : State) (bs : List Byte) : (s.writeOut bs).a = s.a := rfl
@[simp] theorem writeOut_b (s : State) (bs : List Byte) : (s.writeOut bs).b = s.b := rfl
@[simp] theorem writeOut_r (s : State) (bs : List Byte) : (s.writeOut bs).r = s.r := rfl
@[simp] theorem writeOut_ring (s : State) (bs : List Byte) : (s.writeOut bs).ring = s.ring := rfl
@[simp] theorem writeOut_mem (s : State) (bs : List Byte) : (s.writeOut bs).mem = s.mem.writeBytes (Buf.output.base + 0) bs := rfl
@[simp] theorem writeOut_schedule (s : State) (bs : List Byte) : (s.writeOut bs).schedule = s.schedule := rfl
@[simp] theorem writeOut_response (s : State) (bs : List Byte) : (s.writeOut bs).response = s.response := rfl
@[simp] theorem writeOut_rng (s : State) (bs : List Byte) : (s.writeOut bs).rng = s.rng := rfl
@[simp] theorem writeOut_draws (s : State) (bs : List Byte) : (s.writeOut bs).draws = s.draws := rfl

/-! ### storeSchedule -/

@[simp] theorem storeSchedule_params (s : State) (k : KeySize) (d : List Byte) : (s.storeSchedule k d).params = s.params := rfl
@[simp] theorem storeSchedule_ctrl (s : State) (k : KeySize) (d : List Byte) : (s.storeSchedule k d).ctrl = s.ctrl := rfl
@[simp] theorem storeSchedule_cmd (s : State) (k : KeySize) (d : List Byte) : (s.storeSchedule k d).cmd = s.cmd := rfl
@[simp] theorem storeSchedule_seq (s : State) (k : KeySize) (d : List Byte) : (s.storeSchedule k d).seq = s.seq := rfl
@[simp] theorem storeSchedule_status (s : State) (k : KeySize) (d : List Byte) : (s.storeSchedule k d).status = s.status := rfl
@[simp] theorem storeSchedule_keyCfg (s : State) (k : KeySize) (d : List Byte) : (s.storeSchedule k d).keyCfg = s.keyCfg := rfl
@[simp] theorem storeSchedule_keyReg (s : State) (k : KeySize) (d : List Byte) : (s.storeSchedule k d).keyReg = s.keyReg := rfl
@[simp] theorem storeSchedule_aadLen (s : State) (k : KeySize) (d : List Byte) : (s.storeSchedule k d).aadLen = s.aadLen := rfl
@[simp] theorem storeSchedule_inLen (s : State) (k : KeySize) (d : List Byte) : (s.storeSchedule k d).inLen = s.inLen := rfl
@[simp] theorem storeSchedule_nonceLen (s : State) (k : KeySize) (d : List Byte) : (s.storeSchedule k d).nonceLen = s.nonceLen := rfl
@[simp] theorem storeSchedule_outLen (s : State) (k : KeySize) (d : List Byte) : (s.storeSchedule k d).outLen = s.outLen := rfl
@[simp] theorem storeSchedule_sizeArg (s : State) (k : KeySize) (d : List Byte) : (s.storeSchedule k d).sizeArg = s.sizeArg := rfl
@[simp] theorem storeSchedule_result (s : State) (k : KeySize) (d : List Byte) : (s.storeSchedule k d).result = s.result := rfl
@[simp] theorem storeSchedule_schedInfo (s : State) (k : KeySize) (d : List Byte) : (s.storeSchedule k d).schedInfo = some k := rfl
@[simp] theorem storeSchedule_a (s : State) (k : KeySize) (d : List Byte) : (s.storeSchedule k d).a = s.a := rfl
@[simp] theorem storeSchedule_b (s : State) (k : KeySize) (d : List Byte) : (s.storeSchedule k d).b = s.b := rfl
@[simp] theorem storeSchedule_r (s : State) (k : KeySize) (d : List Byte) : (s.storeSchedule k d).r = s.r := rfl
@[simp] theorem storeSchedule_ring (s : State) (k : KeySize) (d : List Byte) : (s.storeSchedule k d).ring = s.ring := rfl
@[simp] theorem storeSchedule_mem (s : State) (k : KeySize) (d : List Byte) : (s.storeSchedule k d).mem = s.mem.writeBytes (Buf.sched.base + 0) (d ++ zeros (240 - d.length)) := rfl
@[simp] theorem storeSchedule_schedule (s : State) (k : KeySize) (d : List Byte) : (s.storeSchedule k d).schedule = s.schedule := rfl
@[simp] theorem storeSchedule_response (s : State) (k : KeySize) (d : List Byte) : (s.storeSchedule k d).response = s.response := rfl
@[simp] theorem storeSchedule_rng (s : State) (k : KeySize) (d : List Byte) : (s.storeSchedule k d).rng = s.rng := rfl
@[simp] theorem storeSchedule_draws (s : State) (k : KeySize) (d : List Byte) : (s.storeSchedule k d).draws = s.draws := rfl

/-! ### hardenZeroize -/

@[simp] theorem hardenZeroize_params (s : State) : (s.hardenZeroize).params = s.params := rfl
@[simp] theorem hardenZeroize_ctrl (s : State) : (s.hardenZeroize).ctrl = s.ctrl := rfl
@[simp] theorem hardenZeroize_cmd (s : State) : (s.hardenZeroize).cmd = s.cmd := rfl
@[simp] theorem hardenZeroize_seq (s : State) : (s.hardenZeroize).seq = s.seq := rfl
@[simp] theorem hardenZeroize_status (s : State) : (s.hardenZeroize).status = s.status := rfl
@[simp] theorem hardenZeroize_keyCfg (s : State) : (s.hardenZeroize).keyCfg = s.keyCfg := rfl
@[simp] theorem hardenZeroize_keyReg (s : State) : (s.hardenZeroize).keyReg = s.keyReg := rfl
@[simp] theorem hardenZeroize_aadLen (s : State) : (s.hardenZeroize).aadLen = s.aadLen := rfl
@[simp] theorem hardenZeroize_inLen (s : State) : (s.hardenZeroize).inLen = s.inLen := rfl
@[simp] theorem hardenZeroize_nonceLen (s : State) : (s.hardenZeroize).nonceLen = s.nonceLen := rfl
@[simp] theorem hardenZeroize_outLen (s : State) : (s.hardenZeroize).outLen = s.outLen := rfl
@[simp] theorem hardenZeroize_sizeArg (s : State) : (s.hardenZeroize).sizeArg = s.sizeArg := rfl
@[simp] theorem hardenZeroize_result (s : State) : (s.hardenZeroize).result = s.result := rfl
@[simp] theorem hardenZeroize_schedInfo (s : State) : (s.hardenZeroize).schedInfo = none := rfl
@[simp] theorem hardenZeroize_a (s : State) : (s.hardenZeroize).a = s.a := rfl
@[simp] theorem hardenZeroize_b (s : State) : (s.hardenZeroize).b = s.b := rfl
@[simp] theorem hardenZeroize_r (s : State) : (s.hardenZeroize).r = s.r := rfl
@[simp] theorem hardenZeroize_ring (s : State) : (s.hardenZeroize).ring = s.ring := rfl
@[simp] theorem hardenZeroize_mem (s : State) : (s.hardenZeroize).mem = s.mem.writeBytes (Buf.sched.base + 0) (zeros 240) := rfl
@[simp] theorem hardenZeroize_schedule (s : State) : (s.hardenZeroize).schedule = s.schedule := rfl
@[simp] theorem hardenZeroize_response (s : State) : (s.hardenZeroize).response = s.response := rfl
@[simp] theorem hardenZeroize_rng (s : State) : (s.hardenZeroize).rng = s.rng := rfl
@[simp] theorem hardenZeroize_draws (s : State) : (s.hardenZeroize).draws = s.draws := rfl

/-! ### complete -/

@[simp] theorem complete_params (s : State) (e : ErrCode) : (s.complete e).params = s.params := rfl
@[simp] theorem complete_ctrl (s : State) (e : ErrCode) : (s.complete e).ctrl = s.ctrl := rfl
@[simp] theorem complete_cmd (s : State) (e : ErrCode) : (s.complete e).cmd = s.cmd := rfl
@[simp] theorem complete_seq (s : State) (e : ErrCode) : (s.complete e).seq = .idle := rfl
@[simp] theorem complete_status (s : State) (e : ErrCode) : (s.complete e).status = ⟨true, s.status.ovr, e⟩ := rfl
@[simp] theorem complete_keyCfg (s : State) (e : ErrCode) : (s.complete e).keyCfg = s.keyCfg := rfl
@[simp] theorem complete_keyReg (s : State) (e : ErrCode) : (s.complete e).keyReg = s.keyReg := rfl
@[simp] theorem complete_aadLen (s : State) (e : ErrCode) : (s.complete e).aadLen = s.aadLen := rfl
@[simp] theorem complete_inLen (s : State) (e : ErrCode) : (s.complete e).inLen = s.inLen := rfl
@[simp] theorem complete_nonceLen (s : State) (e : ErrCode) : (s.complete e).nonceLen = s.nonceLen := rfl
@[simp] theorem complete_outLen (s : State) (e : ErrCode) : (s.complete e).outLen = s.outLen := rfl
@[simp] theorem complete_sizeArg (s : State) (e : ErrCode) : (s.complete e).sizeArg = s.sizeArg := rfl
@[simp] theorem complete_result (s : State) (e : ErrCode) : (s.complete e).result = s.result := rfl
@[simp] theorem complete_schedInfo (s : State) (e : ErrCode) : (s.complete e).schedInfo = s.schedInfo := rfl
@[simp] theorem complete_a (s : State) (e : ErrCode) : (s.complete e).a = s.a := rfl
@[simp] theorem complete_b (s : State) (e : ErrCode) : (s.complete e).b = s.b := rfl
@[simp] theorem complete_r (s : State) (e : ErrCode) : (s.complete e).r = s.r := rfl
@[simp] theorem complete_ring (s : State) (e : ErrCode) : (s.complete e).ring = s.ring := rfl
@[simp] theorem complete_mem (s : State) (e : ErrCode) : (s.complete e).mem = s.mem := rfl
@[simp] theorem complete_schedule (s : State) (e : ErrCode) : (s.complete e).schedule = s.schedule := rfl
@[simp] theorem complete_response (s : State) (e : ErrCode) : (s.complete e).response = s.response := rfl
@[simp] theorem complete_rng (s : State) (e : ErrCode) : (s.complete e).rng = s.rng := rfl
@[simp] theorem complete_draws (s : State) (e : ErrCode) : (s.complete e).draws = s.draws := rfl

/-! ### accept -/

@[simp] theorem accept_params (s : State) (w : Word) : (s.accept w).params = s.params := rfl
@[simp] theorem accept_ctrl (s : State) (w : Word) : (s.accept w).ctrl = s.ctrl := rfl
@[simp] theorem accept_cmd (s : State) (w : Word) : (s.accept w).cmd = w := rfl
@[simp] theorem accept_seq (s : State) (w : Word) : (s.accept w).seq = .running w := rfl
@[simp] theorem accept_status (s : State) (w : Word) : (s.accept w).status = ⟨false, s.status.ovr, .ok⟩ := rfl
@[simp] theorem accept_keyCfg (s : State) (w : Word) : (s.accept w).keyCfg = s.keyCfg := rfl
@[simp] theorem accept_keyReg (s : State) (w : Word) : (s.accept w).keyReg = s.keyReg := rfl
@[simp] theorem accept_aadLen (s : State) (w : Word) : (s.accept w).aadLen = s.aadLen := rfl
@[simp] theorem accept_inLen (s : State) (w : Word) : (s.accept w).inLen = s.inLen := rfl
@[simp] theorem accept_nonceLen (s : State) (w : Word) : (s.accept w).nonceLen = s.nonceLen := rfl
@[simp] theorem accept_outLen (s : State) (w : Word) : (s.accept w).outLen = s.outLen := rfl
@[simp] theorem accept_sizeArg (s : State) (w : Word) : (s.accept w).sizeArg = s.sizeArg := rfl
@[simp] theorem accept_result (s : State) (w : Word) : (s.accept w).result = s.result := rfl
@[simp] theorem accept_schedInfo (s : State) (w : Word) : (s.accept w).schedInfo = s.schedInfo := rfl
@[simp] theorem accept_a (s : State) (w : Word) : (s.accept w).a = s.a := rfl
@[simp] theorem accept_b (s : State) (w : Word) : (s.accept w).b = s.b := rfl
@[simp] theorem accept_r (s : State) (w : Word) : (s.accept w).r = s.r := rfl
@[simp] theorem accept_ring (s : State) (w : Word) : (s.accept w).ring = s.ring := rfl
@[simp] theorem accept_mem (s : State) (w : Word) : (s.accept w).mem = s.mem := rfl
@[simp] theorem accept_schedule (s : State) (w : Word) : (s.accept w).schedule = s.schedule := rfl
@[simp] theorem accept_response (s : State) (w : Word) : (s.accept w).response = s.response := rfl
@[simp] theorem accept_rng (s : State) (w : Word) : (s.accept w).rng = s.rng := rfl
@[simp] theorem accept_draws (s : State) (w : Word) : (s.accept w).draws = s.draws := rfl

/-! ### writeStatus -/

@[simp] theorem writeStatus_params (s : State) (w : Word) : (s.writeStatus w).params = s.params := rfl
@[simp] theorem writeStatus_ctrl (s : State) (w : Word) : (s.writeStatus w).ctrl = s.ctrl := rfl
@[simp] theorem writeStatus_cmd (s : State) (w : Word) : (s.writeStatus w).cmd = s.cmd := rfl
@[simp] theorem writeStatus_seq (s : State) (w : Word) : (s.writeStatus w).seq = s.seq := rfl
@[simp] theorem writeStatus_status (s : State) (w : Word) : (s.writeStatus w).status = ⟨s.status.done && !w.getLsbD 1, s.status.ovr && !w.getLsbD 2, s.status.err⟩ := rfl
@[simp] theorem writeStatus_keyCfg (s : State) (w : Word) : (s.writeStatus w).keyCfg = s.keyCfg := rfl
@[simp] theorem writeStatus_keyReg (s : State) (w : Word) : (s.writeStatus w).keyReg = s.keyReg := rfl
@[simp] theorem writeStatus_aadLen (s : State) (w : Word) : (s.writeStatus w).aadLen = s.aadLen := rfl
@[simp] theorem writeStatus_inLen (s : State) (w : Word) : (s.writeStatus w).inLen = s.inLen := rfl
@[simp] theorem writeStatus_nonceLen (s : State) (w : Word) : (s.writeStatus w).nonceLen = s.nonceLen := rfl
@[simp] theorem writeStatus_outLen (s : State) (w : Word) : (s.writeStatus w).outLen = s.outLen := rfl
@[simp] theorem writeStatus_sizeArg (s : State) (w : Word) : (s.writeStatus w).sizeArg = s.sizeArg := rfl
@[simp] theorem writeStatus_result (s : State) (w : Word) : (s.writeStatus w).result = s.result := rfl
@[simp] theorem writeStatus_schedInfo (s : State) (w : Word) : (s.writeStatus w).schedInfo = s.schedInfo := rfl
@[simp] theorem writeStatus_a (s : State) (w : Word) : (s.writeStatus w).a = s.a := rfl
@[simp] theorem writeStatus_b (s : State) (w : Word) : (s.writeStatus w).b = s.b := rfl
@[simp] theorem writeStatus_r (s : State) (w : Word) : (s.writeStatus w).r = s.r := rfl
@[simp] theorem writeStatus_ring (s : State) (w : Word) : (s.writeStatus w).ring = s.ring := rfl
@[simp] theorem writeStatus_mem (s : State) (w : Word) : (s.writeStatus w).mem = s.mem := rfl
@[simp] theorem writeStatus_schedule (s : State) (w : Word) : (s.writeStatus w).schedule = s.schedule := rfl
@[simp] theorem writeStatus_response (s : State) (w : Word) : (s.writeStatus w).response = s.response := rfl
@[simp] theorem writeStatus_rng (s : State) (w : Word) : (s.writeStatus w).rng = s.rng := rfl
@[simp] theorem writeStatus_draws (s : State) (w : Word) : (s.writeStatus w).draws = s.draws := rfl

/-! ### dropWrite -/

@[simp] theorem dropWrite_params (s : State) : (s.dropWrite).params = s.params := rfl
@[simp] theorem dropWrite_ctrl (s : State) : (s.dropWrite).ctrl = s.ctrl := rfl
@[simp] theorem dropWrite_cmd (s : State) : (s.dropWrite).cmd = s.cmd := rfl
@[simp] theorem dropWrite_seq (s : State) : (s.dropWrite).seq = s.seq := rfl
@[simp] theorem dropWrite_status (s : State) : (s.dropWrite).status = ⟨s.status.done, true, s.status.err⟩ := rfl
@[simp] theorem dropWrite_keyCfg (s : State) : (s.dropWrite).keyCfg = s.keyCfg := rfl
@[simp] theorem dropWrite_keyReg (s : State) : (s.dropWrite).keyReg = s.keyReg := rfl
@[simp] theorem dropWrite_aadLen (s : State) : (s.dropWrite).aadLen = s.aadLen := rfl
@[simp] theorem dropWrite_inLen (s : State) : (s.dropWrite).inLen = s.inLen := rfl
@[simp] theorem dropWrite_nonceLen (s : State) : (s.dropWrite).nonceLen = s.nonceLen := rfl
@[simp] theorem dropWrite_outLen (s : State) : (s.dropWrite).outLen = s.outLen := rfl
@[simp] theorem dropWrite_sizeArg (s : State) : (s.dropWrite).sizeArg = s.sizeArg := rfl
@[simp] theorem dropWrite_result (s : State) : (s.dropWrite).result = s.result := rfl
@[simp] theorem dropWrite_schedInfo (s : State) : (s.dropWrite).schedInfo = s.schedInfo := rfl
@[simp] theorem dropWrite_a (s : State) : (s.dropWrite).a = s.a := rfl
@[simp] theorem dropWrite_b (s : State) : (s.dropWrite).b = s.b := rfl
@[simp] theorem dropWrite_r (s : State) : (s.dropWrite).r = s.r := rfl
@[simp] theorem dropWrite_ring (s : State) : (s.dropWrite).ring = s.ring := rfl
@[simp] theorem dropWrite_mem (s : State) : (s.dropWrite).mem = s.mem := rfl
@[simp] theorem dropWrite_schedule (s : State) : (s.dropWrite).schedule = s.schedule := rfl
@[simp] theorem dropWrite_response (s : State) : (s.dropWrite).response = s.response := rfl
@[simp] theorem dropWrite_rng (s : State) : (s.dropWrite).rng = s.rng := rfl
@[simp] theorem dropWrite_draws (s : State) : (s.dropWrite).draws = s.draws := rfl

/-! ### resetPulse -/

@[simp] theorem resetPulse_params (s : State) : (s.resetPulse).params = s.params := rfl
@[simp] theorem resetPulse_ctrl (s : State) : (s.resetPulse).ctrl = (State.resetWith s.params).ctrl := rfl
@[simp] theorem resetPulse_cmd (s : State) : (s.resetPulse).cmd = (State.resetWith s.params).cmd := rfl
@[simp] theorem resetPulse_seq (s : State) : (s.resetPulse).seq = (State.resetWith s.params).seq := rfl
@[simp] theorem resetPulse_status (s : State) : (s.resetPulse).status = (State.resetWith s.params).status := rfl
@[simp] theorem resetPulse_keyCfg (s : State) : (s.resetPulse).keyCfg = (State.resetWith s.params).keyCfg := rfl
@[simp] theorem resetPulse_keyReg (s : State) : (s.resetPulse).keyReg = (State.resetWith s.params).keyReg := rfl
@[simp] theorem resetPulse_aadLen (s : State) : (s.resetPulse).aadLen = (State.resetWith s.params).aadLen := rfl
@[simp] theorem resetPulse_inLen (s : State) : (s.resetPulse).inLen = (State.resetWith s.params).inLen := rfl
@[simp] theorem resetPulse_nonceLen (s : State) : (s.resetPulse).nonceLen = (State.resetWith s.params).nonceLen := rfl
@[simp] theorem resetPulse_outLen (s : State) : (s.resetPulse).outLen = (State.resetWith s.params).outLen := rfl
@[simp] theorem resetPulse_sizeArg (s : State) : (s.resetPulse).sizeArg = (State.resetWith s.params).sizeArg := rfl
@[simp] theorem resetPulse_result (s : State) : (s.resetPulse).result = (State.resetWith s.params).result := rfl
@[simp] theorem resetPulse_schedInfo (s : State) : (s.resetPulse).schedInfo = (State.resetWith s.params).schedInfo := rfl
@[simp] theorem resetPulse_a (s : State) : (s.resetPulse).a = (State.resetWith s.params).a := rfl
@[simp] theorem resetPulse_b (s : State) : (s.resetPulse).b = (State.resetWith s.params).b := rfl
@[simp] theorem resetPulse_r (s : State) : (s.resetPulse).r = (State.resetWith s.params).r := rfl
@[simp] theorem resetPulse_ring (s : State) : (s.resetPulse).ring = (State.resetWith s.params).ring := rfl
@[simp] theorem resetPulse_mem (s : State) : (s.resetPulse).mem = (State.resetWith s.params).mem := rfl
@[simp] theorem resetPulse_schedule (s : State) : (s.resetPulse).schedule = s.schedule := rfl
@[simp] theorem resetPulse_response (s : State) : (s.resetPulse).response = (State.resetWith s.params).response := rfl
@[simp] theorem resetPulse_rng (s : State) : (s.resetPulse).rng = s.rng := rfl
@[simp] theorem resetPulse_draws (s : State) : (s.resetPulse).draws = s.draws := rfl

/-! ### advanceRng -/

@[simp] theorem advanceRng_params (s : State) : s.advanceRng.params = s.params := by
  unfold State.advanceRng; split <;> rfl
@[simp] theorem advanceRng_ctrl (s : State) : s.advanceRng.ctrl = s.ctrl := by
  unfold State.advanceRng; split <;> rfl
@[simp] theorem advanceRng_cmd (s : State) : s.advanceRng.cmd = s.cmd := by
  unfold State.advanceRng; split <;> rfl
@[simp] theorem advanceRng_seq (s : State) : s.advanceRng.seq = s.seq := by
  unfold State.advanceRng; split <;> rfl
@[simp] theorem advanceRng_status (s : State) : s.advanceRng.status = s.status := by
  unfold State.advanceRng; split <;> rfl
@[simp] theorem advanceRng_keyCfg (s : State) : s.advanceRng.keyCfg = s.keyCfg := by
  unfold State.advanceRng; split <;> rfl
@[simp] theorem advanceRng_keyReg (s : State) : s.advanceRng.keyReg = s.keyReg := by
  unfold State.advanceRng; split <;> rfl
@[simp] theorem advanceRng_aadLen (s : State) : s.advanceRng.aadLen = s.aadLen := by
  unfold State.advanceRng; split <;> rfl
@[simp] theorem advanceRng_inLen (s : State) : s.advanceRng.inLen = s.inLen := by
  unfold State.advanceRng; split <;> rfl
@[simp] theorem advanceRng_nonceLen (s : State) : s.advanceRng.nonceLen = s.nonceLen := by
  unfold State.advanceRng; split <;> rfl
@[simp] theorem advanceRng_outLen (s : State) : s.advanceRng.outLen = s.outLen := by
  unfold State.advanceRng; split <;> rfl
@[simp] theorem advanceRng_sizeArg (s : State) : s.advanceRng.sizeArg = s.sizeArg := by
  unfold State.advanceRng; split <;> rfl
@[simp] theorem advanceRng_result (s : State) : s.advanceRng.result = s.result := by
  unfold State.advanceRng; split <;> rfl
@[simp] theorem advanceRng_schedInfo (s : State) : s.advanceRng.schedInfo = s.schedInfo := by
  unfold State.advanceRng; split <;> rfl
@[simp] theorem advanceRng_a (s : State) : s.advanceRng.a = s.a := by
  unfold State.advanceRng; split <;> rfl
@[simp] theorem advanceRng_b (s : State) : s.advanceRng.b = s.b := by
  unfold State.advanceRng; split <;> rfl
@[simp] theorem advanceRng_r (s : State) : s.advanceRng.r = s.r := by
  unfold State.advanceRng; split <;> rfl
@[simp] theorem advanceRng_ring (s : State) : s.advanceRng.ring = s.ring := by
  unfold State.advanceRng; split <;> rfl
@[simp] theorem advanceRng_mem (s : State) : s.advanceRng.mem = s.mem := by
  unfold State.advanceRng; split <;> rfl
@[simp] theorem advanceRng_schedule (s : State) : s.advanceRng.schedule = s.schedule := by
  unfold State.advanceRng; split <;> rfl
@[simp] theorem advanceRng_response (s : State) : s.advanceRng.response = s.response := by
  unfold State.advanceRng; split <;> rfl

/-! ### onError, finish, raise: what every one of them leaves alone -/

@[simp] theorem onError_params (s : State) (i : Instr) : (s.onError i).params = s.params := by
  unfold State.onError; split <;> rfl
@[simp] theorem onError_ctrl (s : State) (i : Instr) : (s.onError i).ctrl = s.ctrl := by
  unfold State.onError; split <;> rfl
@[simp] theorem onError_cmd (s : State) (i : Instr) : (s.onError i).cmd = s.cmd := by
  unfold State.onError; split <;> rfl
@[simp] theorem onError_seq (s : State) (i : Instr) : (s.onError i).seq = s.seq := by
  unfold State.onError; split <;> rfl
@[simp] theorem onError_status (s : State) (i : Instr) : (s.onError i).status = s.status := by
  unfold State.onError; split <;> rfl
@[simp] theorem onError_keyCfg (s : State) (i : Instr) : (s.onError i).keyCfg = s.keyCfg := by
  unfold State.onError; split <;> rfl
@[simp] theorem onError_keyReg (s : State) (i : Instr) : (s.onError i).keyReg = s.keyReg := by
  unfold State.onError; split <;> rfl
@[simp] theorem onError_aadLen (s : State) (i : Instr) : (s.onError i).aadLen = s.aadLen := by
  unfold State.onError; split <;> rfl
@[simp] theorem onError_inLen (s : State) (i : Instr) : (s.onError i).inLen = s.inLen := by
  unfold State.onError; split <;> rfl
@[simp] theorem onError_nonceLen (s : State) (i : Instr) : (s.onError i).nonceLen = s.nonceLen := by
  unfold State.onError; split <;> rfl
@[simp] theorem onError_sizeArg (s : State) (i : Instr) : (s.onError i).sizeArg = s.sizeArg := by
  unfold State.onError; split <;> rfl
@[simp] theorem onError_schedInfo (s : State) (i : Instr) : (s.onError i).schedInfo = s.schedInfo := by
  unfold State.onError; split <;> rfl
@[simp] theorem onError_a (s : State) (i : Instr) : (s.onError i).a = s.a := by
  unfold State.onError; split <;> rfl
@[simp] theorem onError_b (s : State) (i : Instr) : (s.onError i).b = s.b := by
  unfold State.onError; split <;> rfl
@[simp] theorem onError_ring (s : State) (i : Instr) : (s.onError i).ring = s.ring := by
  unfold State.onError; split <;> rfl
@[simp] theorem onError_mem (s : State) (i : Instr) : (s.onError i).mem = s.mem := by
  unfold State.onError; split <;> rfl
@[simp] theorem onError_schedule (s : State) (i : Instr) : (s.onError i).schedule = s.schedule := by
  unfold State.onError; split <;> rfl
@[simp] theorem onError_response (s : State) (i : Instr) : (s.onError i).response = s.response := by
  unfold State.onError; split <;> rfl
@[simp] theorem onError_rng (s : State) (i : Instr) : (s.onError i).rng = s.rng := by
  unfold State.onError; split <;> rfl
@[simp] theorem onError_draws (s : State) (i : Instr) : (s.onError i).draws = s.draws := by
  unfold State.onError; split <;> rfl

@[simp] theorem finish_params (s : State) (i : Instr) (e : ErrCode) : (s.finish i e).params = s.params := by
  unfold State.finish; split <;> rfl
@[simp] theorem finish_ctrl (s : State) (i : Instr) (e : ErrCode) : (s.finish i e).ctrl = s.ctrl := by
  unfold State.finish; split <;> rfl
@[simp] theorem finish_cmd (s : State) (i : Instr) (e : ErrCode) : (s.finish i e).cmd = s.cmd := by
  unfold State.finish; split <;> rfl
@[simp] theorem finish_keyCfg (s : State) (i : Instr) (e : ErrCode) : (s.finish i e).keyCfg = s.keyCfg := by
  unfold State.finish; split <;> rfl
@[simp] theorem finish_keyReg (s : State) (i : Instr) (e : ErrCode) : (s.finish i e).keyReg = s.keyReg := by
  unfold State.finish; split <;> rfl
@[simp] theorem finish_aadLen (s : State) (i : Instr) (e : ErrCode) : (s.finish i e).aadLen = s.aadLen := by
  unfold State.finish; split <;> rfl
@[simp] theorem finish_inLen (s : State) (i : Instr) (e : ErrCode) : (s.finish i e).inLen = s.inLen := by
  unfold State.finish; split <;> rfl
@[simp] theorem finish_nonceLen (s : State) (i : Instr) (e : ErrCode) : (s.finish i e).nonceLen = s.nonceLen := by
  unfold State.finish; split <;> rfl
@[simp] theorem finish_outLen (s : State) (i : Instr) (e : ErrCode) : (s.finish i e).outLen = s.outLen := by
  unfold State.finish; split <;> rfl
@[simp] theorem finish_sizeArg (s : State) (i : Instr) (e : ErrCode) : (s.finish i e).sizeArg = s.sizeArg := by
  unfold State.finish; split <;> rfl
@[simp] theorem finish_result (s : State) (i : Instr) (e : ErrCode) : (s.finish i e).result = s.result := by
  unfold State.finish; split <;> rfl
@[simp] theorem finish_a (s : State) (i : Instr) (e : ErrCode) : (s.finish i e).a = s.a := by
  unfold State.finish; split <;> rfl
@[simp] theorem finish_b (s : State) (i : Instr) (e : ErrCode) : (s.finish i e).b = s.b := by
  unfold State.finish; split <;> rfl
@[simp] theorem finish_r (s : State) (i : Instr) (e : ErrCode) : (s.finish i e).r = s.r := by
  unfold State.finish; split <;> rfl
@[simp] theorem finish_ring (s : State) (i : Instr) (e : ErrCode) : (s.finish i e).ring = s.ring := by
  unfold State.finish; split <;> rfl
@[simp] theorem finish_schedule (s : State) (i : Instr) (e : ErrCode) : (s.finish i e).schedule = s.schedule := by
  unfold State.finish; split <;> rfl
@[simp] theorem finish_response (s : State) (i : Instr) (e : ErrCode) : (s.finish i e).response = s.response := by
  unfold State.finish; split <;> rfl
@[simp] theorem finish_rng (s : State) (i : Instr) (e : ErrCode) : (s.finish i e).rng = s.rng := by
  unfold State.finish; split <;> rfl
@[simp] theorem finish_draws (s : State) (i : Instr) (e : ErrCode) : (s.finish i e).draws = s.draws := by
  unfold State.finish; split <;> rfl
@[simp] theorem finish_seq (s : State) (i : Instr) (e : ErrCode) : (s.finish i e).seq = .idle := rfl
@[simp] theorem finish_status (s : State) (i : Instr) (e : ErrCode) :
    (s.finish i e).status = ⟨true, s.status.ovr, e⟩ := by
  unfold State.finish; split <;> rfl
/-- The exit of a command that is not composite, or with CTRL.HARDEN = 0, only completes (R326). -/
theorem finish_plain {s : State} {i : Instr} (h : isComposite i = false ∨ s.ctrl.harden = false) (e : ErrCode) :
    s.finish i e = s.complete e := by
  unfold State.finish; rcases h with h | h <;> simp [h]
/-- The exit of a composite command with CTRL.HARDEN = 1 clears the schedule (R326). -/
theorem finish_hardened {s : State} {i : Instr} (hc : isComposite i = true) (hh : s.ctrl.harden = true) (e : ErrCode) :
    s.finish i e = s.hardenZeroize.complete e := by
  unfold State.finish; simp [hc, hh]

@[simp] theorem raise_params (s : State) (i : Instr) (e : ErrCode) : (s.raise i e).params = s.params := by
  simp [State.raise]
@[simp] theorem raise_ctrl (s : State) (i : Instr) (e : ErrCode) : (s.raise i e).ctrl = s.ctrl := by
  simp [State.raise]
@[simp] theorem raise_cmd (s : State) (i : Instr) (e : ErrCode) : (s.raise i e).cmd = s.cmd := by
  simp [State.raise]
@[simp] theorem raise_keyCfg (s : State) (i : Instr) (e : ErrCode) : (s.raise i e).keyCfg = s.keyCfg := by
  simp [State.raise]
@[simp] theorem raise_keyReg (s : State) (i : Instr) (e : ErrCode) : (s.raise i e).keyReg = s.keyReg := by
  simp [State.raise]
@[simp] theorem raise_aadLen (s : State) (i : Instr) (e : ErrCode) : (s.raise i e).aadLen = s.aadLen := by
  simp [State.raise]
@[simp] theorem raise_inLen (s : State) (i : Instr) (e : ErrCode) : (s.raise i e).inLen = s.inLen := by
  simp [State.raise]
@[simp] theorem raise_nonceLen (s : State) (i : Instr) (e : ErrCode) : (s.raise i e).nonceLen = s.nonceLen := by
  simp [State.raise]
@[simp] theorem raise_sizeArg (s : State) (i : Instr) (e : ErrCode) : (s.raise i e).sizeArg = s.sizeArg := by
  simp [State.raise]
@[simp] theorem raise_a (s : State) (i : Instr) (e : ErrCode) : (s.raise i e).a = s.a := by
  simp [State.raise]
@[simp] theorem raise_b (s : State) (i : Instr) (e : ErrCode) : (s.raise i e).b = s.b := by
  simp [State.raise]
@[simp] theorem raise_ring (s : State) (i : Instr) (e : ErrCode) : (s.raise i e).ring = s.ring := by
  simp [State.raise]
@[simp] theorem raise_schedule (s : State) (i : Instr) (e : ErrCode) : (s.raise i e).schedule = s.schedule := by
  simp [State.raise]
@[simp] theorem raise_response (s : State) (i : Instr) (e : ErrCode) : (s.raise i e).response = s.response := by
  simp [State.raise]
@[simp] theorem raise_rng (s : State) (i : Instr) (e : ErrCode) : (s.raise i e).rng = s.rng := by
  simp [State.raise]
@[simp] theorem raise_draws (s : State) (i : Instr) (e : ErrCode) : (s.raise i e).draws = s.draws := by
  simp [State.raise]
@[simp] theorem raise_seq (s : State) (i : Instr) (e : ErrCode) : (s.raise i e).seq = .idle := rfl
@[simp] theorem raise_status (s : State) (i : Instr) (e : ErrCode) :
    (s.raise i e).status = ⟨true, s.status.ovr, e⟩ := by
  simp [State.raise]

/-! ### zeroizeAll -/

@[simp] theorem zeroizeAll_params (s : State) : s.zeroizeAll.params = s.params := rfl
@[simp] theorem zeroizeAll_ctrl (s : State) : s.zeroizeAll.ctrl = s.ctrl := rfl
@[simp] theorem zeroizeAll_cmd (s : State) : s.zeroizeAll.cmd = s.cmd := rfl
@[simp] theorem zeroizeAll_seq (s : State) : s.zeroizeAll.seq = s.seq := rfl
@[simp] theorem zeroizeAll_status (s : State) : s.zeroizeAll.status = s.status := rfl
@[simp] theorem zeroizeAll_keyCfg (s : State) : s.zeroizeAll.keyCfg = KeyCfg.zero := rfl
@[simp] theorem zeroizeAll_keyReg (s : State) : s.zeroizeAll.keyReg = Vector.replicate 8 0 := rfl
@[simp] theorem zeroizeAll_aadLen (s : State) : s.zeroizeAll.aadLen = 0 := rfl
@[simp] theorem zeroizeAll_inLen (s : State) : s.zeroizeAll.inLen = 0 := rfl
@[simp] theorem zeroizeAll_nonceLen (s : State) : s.zeroizeAll.nonceLen = 0 := rfl
@[simp] theorem zeroizeAll_outLen (s : State) : s.zeroizeAll.outLen = 0 := rfl
@[simp] theorem zeroizeAll_sizeArg (s : State) : s.zeroizeAll.sizeArg = 0 := rfl
@[simp] theorem zeroizeAll_result (s : State) : s.zeroizeAll.result = 0 := rfl
@[simp] theorem zeroizeAll_schedInfo (s : State) : s.zeroizeAll.schedInfo = none := rfl
@[simp] theorem zeroizeAll_a (s : State) : s.zeroizeAll.a = 0 := rfl
@[simp] theorem zeroizeAll_b (s : State) : s.zeroizeAll.b = 0 := rfl
@[simp] theorem zeroizeAll_r (s : State) : s.zeroizeAll.r = 0 := rfl
@[simp] theorem zeroizeAll_ring (s : State) : s.zeroizeAll.ring = s.ring.map fun _ => Slot.zero := rfl
@[simp] theorem zeroizeAll_mem (s : State) : s.zeroizeAll.mem = clearedArrays s.params s.mem := rfl
@[simp] theorem zeroizeAll_schedule (s : State) : s.zeroizeAll.schedule = s.schedule := rfl
@[simp] theorem zeroizeAll_response (s : State) : s.zeroizeAll.response = s.response := rfl
@[simp] theorem zeroizeAll_rng (s : State) : s.zeroizeAll.rng = s.rng := rfl
@[simp] theorem zeroizeAll_draws (s : State) : s.zeroizeAll.draws = s.draws := rfl

end Sys2Proof.Machine
end

