-- ==== Sys2Proof/Laws/Bus.lean ====
section
/-! SUPPORT. What a host access can do, said once: the offset of each mapped target, and the four outcomes of an access. -/

namespace Sys2Proof.Machine

/-- Every single register of the map stands at its offset, and a lookup gives one of them. -/
theorem lookup_scalarMap {off : Nat} {t : Target} (h : scalarMap.lookup off = some t) (p : Params) :
    offsetOf p t = some off := by
  have hall : ∀ c ∈ scalarMap, offsetOf p c.2 = some c.1 := by simp [scalarMap, offsetOf]
  obtain ⟨l₁, l₂, hm, -⟩ := List.lookup_eq_some_iff.mp h
  exact hall (off, t) (by rw [hm]; simp)

/-- A mapped, aligned offset is the offset of its target (R60). -/
theorem offsetOf_regMap {p : Params} {off : Nat} {t : Target} (ha : off % 4 = 0) (h : regMap p off = some t) :
    offsetOf p t = some off := by
  unfold regMap at h
  split at h
  · rename_i hl; cases h; exact lookup_scalarMap hl p
  · split at h
    · rename_i hr
      unfold slotMap at h
      split at h
      · cases h
        simp only [offsetOf]; rw [if_pos (by omega)]; exact congrArg some (by omega)
      · split at h
        · cases h
          simp only [offsetOf]; rw [if_pos (by omega)]; exact congrArg some (by omega)
        · split at h
          · cases h
            simp only [offsetOf]; rw [if_pos (by omega)]; exact congrArg some (by omega)
          · cases h
    · obtain ⟨row, hmem, hrow⟩ := List.exists_of_findSome?_eq_some h
      simp only [arrayMap, List.mem_cons, List.not_mem_nil, or_false] at hmem
      split at hrow
      · rename_i hb
        cases hrow
        rcases hmem with rfl | rfl | rfl | rfl | rfl | rfl | rfl | rfl | rfl <;>
          (simp only [Buf.base, Buf.size] at *; simp only [offsetOf]; rw [if_pos (by omega)]; exact congrArg some (by omega))
      · cases hrow

/-- What a host access can do (R103-R106): a bus error, a read, a dropped write, or a performed write. -/
theorem hostAccess_cases (s : State) (off : Nat) (width : AccessWidth) (op : AccessOp) :
    (accessTarget s.params off width = none ∧ s.hostAccess off width op = { s with response := some .busError }) ∨
    ∃ t, accessTarget s.params off width = some t ∧ width = .bits32 ∧ off % 4 = 0 ∧ offsetOf s.params t = some off ∧
      ((op = .read ∧ s.hostAccess off width op = { s with response := some (.value (s.hostRead t)) }) ∨
        ∃ w, op = .write w ∧
          ((s.busy = true ∧ t ≠ .status ∧
              s.hostAccess off width op = { s.dropWrite with response := some .written }) ∨
            ((s.busy = false ∨ t = .status) ∧
              s.hostAccess off width op = { s.writeTarget w t with response := some .written }))) := by
  cases ht : accessTarget s.params off width with
  | none => exact .inl ⟨rfl, by simp only [State.hostAccess, ht]⟩
  | some t =>
    right
    have hw : width = .bits32 ∧ off % 4 = 0 ∧ regMap s.params off = some t := by
      cases width with
      | bits8 => cases ht
      | bits16 => cases ht
      | bits32 =>
        simp only [accessTarget] at ht
        split at ht
        · rename_i ha; exact ⟨rfl, ha, ht⟩
        · cases ht
    refine ⟨t, rfl, hw.1, hw.2.1, offsetOf_regMap hw.2.1 hw.2.2, ?_⟩
    cases op with
    | read => exact .inl ⟨rfl, by simp only [State.hostAccess, ht]⟩
    | write w =>
      refine .inr ⟨w, rfl, ?_⟩
      by_cases hb : s.busy = true ∧ t ≠ .status
      · exact .inl ⟨hb.1, hb.2, by simp only [State.hostAccess, ht, State.hostWrite]; rw [if_pos (by simp [hb])]⟩
      · refine .inr ⟨by cases h : s.busy <;> simp_all, ?_⟩
        simp only [State.hostAccess, ht, State.hostWrite]
        rw [if_neg]
        simpa using hb

/-- The reset memory is in canonical form. -/
theorem resetWith_memWf (p : Params) : (State.resetWith p).mem.wf := wf_nil

/-- A host write keeps the canonical form. -/
theorem writeTarget_memWf {s : State} (h : s.mem.wf) (w : Word) (t : Target) : (s.writeTarget w t).mem.wf := by
  cases t with
  | buf x n =>
    cases x with
    | aad => exact wf_writeBytes h _ _
    | input => exact wf_writeBytes h _ _
    | nonce => exact wf_writeBytes h _ _
    | output => exact h
    | sched => exact h
  | _ => exact h

/-- A bus event is not this core's, or one host access at the offset from BASE (R102). -/
theorem busEvent_cases (s : State) (x : Access) :
    s.busEvent x = s ∨ ∃ off, x.addr = s.params.base + off ∧ off < 0x4000 ∧
      s.busEvent x = s.hostAccess off x.width x.op := by
  unfold State.busEvent busOffset
  split
  · exact .inl rfl
  · rename_i off h
    split at h
    · cases h; exact .inr ⟨_, by omega, by omega, rfl⟩
    · cases h

end Sys2Proof.Machine
end

