-- ==== Sys2Proof/Laws/Lengths.lean ====
section
/-! SUPPORT. How many bytes each shared function answers: the key schedule (R185), counter mode (R221), GCM (R272) and the
envelope (R290, R293). -/

namespace Sys2Proof.Machine

theorem length_expandLoop (nk n i : Nat) (rcon : Byte) (ws : List (BitVec 32)) :
    (expandLoop nk n i rcon ws).length = ws.length + n := by
  induction n generalizing i rcon ws with
  | zero => rfl
  | succ n ih =>
    unfold expandLoop
    split
    · rw [ih]; simp only [List.length_cons]; omega
    · split <;> (rw [ih]; simp only [List.length_cons]; omega)

/-- The schedule has `4 * (Nr + 1)` words (R186). -/
@[simp] theorem length_expandWords (k : KeySize) (key : List Byte) :
    (expandWords k key).length = 4 * (k.nr + 1) := by
  rw [expandWords, List.length_reverse, length_expandLoop]
  cases k <;> simp [KeySize.nk, KeySize.nr]

/-- The schedule has 176, 208 or 240 bytes (R185). -/
@[simp] theorem length_expandKey (key : Key) : (expandKey key).length = key.size.schedBytes := by
  simp only [expandKey, List.length_flatMap, length_beBytes, List.map_const', List.sum_replicate, length_expandWords,
    smul_eq_mul, KeySize.schedBytes]
  ring

/-- A schedule fits the 240 bytes of SCHED (R53). -/
theorem schedBytes_le (k : KeySize) : k.schedBytes ≤ 240 := by cases k <;> decide

theorem schedBytes_pos (k : KeySize) : 16 ≤ k.schedBytes := by cases k <;> decide

theorem length_ctrChunk (sched : List Byte) (c : Block) {chunk : List Byte} (h : chunk.length ≤ 16) :
    (ctrChunk sched c chunk).length = chunk.length := by
  simp only [ctrChunk, length_xorBytes, List.length_take, length_bytesOfBlock]
  omega

theorem length_ctrChunks (sched : List Byte) (c : Block) {cs : List (List Byte)} (h : ∀ x ∈ cs, x.length ≤ 16) :
    (ctrChunks sched c cs).1.length = cs.flatten.length := by
  induction cs generalizing c with
  | nil => rfl
  | cons x cs ih =>
    rw [ctrChunks, List.length_append, length_ctrChunk sched c (h x (by simp)),
      ih (inc128 c) (fun y hy => h y (by simp [hy])), List.flatten_cons, List.length_append]

/-- Counter mode is length-preserving (R221). -/
@[simp] theorem length_ctrApply (sched : List Byte) (c : Block) (pol : CounterPolicy) (data : List Byte) :
    (ctrApply sched c pol data).1.length = data.length := by
  rw [ctrApply, length_ctrChunks _ _ (fun x hx => length_le_of_mem_chunks hx), flatten_chunks]

/-- The ciphertext is as long as the plaintext (R272). -/
@[simp] theorem length_gcmEncrypt (key : Key) (nonce pt aad : List Byte) :
    (gcmEncrypt key nonce pt aad).1.length = pt.length := by simp [gcmEncrypt]

/-- A decrypted plaintext is as long as the ciphertext (R265). -/
theorem length_of_gcmDecrypt {key : Key} {nonce ct aad pt : List Byte} {t : Block}
    (h : gcmDecrypt key nonce ct aad t = some pt) : pt.length = ct.length := by
  simp only [gcmDecrypt] at h
  split at h
  · cases h; simp
  · cases h

@[simp] theorem length_tagBytes (t : BitVec 24) : (tagBytes t).length = 3 := rfl

/-- An envelope is 31 bytes longer than its plaintext (R290, R302). -/
@[simp] theorem length_envEncode (tag : BitVec 24) (key : Key) (nonce : Nonce) (pt : List Byte) :
    (envEncode tag key nonce pt).length = pt.length + envOverhead := by
  simp only [envEncode, List.length_append, length_tagBytes, length_nonceToBytes, length_gcmEncrypt,
    length_bytesOfBlock, envOverhead]
  omega

/-- An envelope of m bytes opens to a plaintext of m - 31 bytes (R293). -/
theorem length_of_envOpen {key : Key} {env pt : List Byte} (hlen : envOverhead ≤ env.length)
    (h : envOpen key env = some pt) : pt.length = env.length - envOverhead := by
  have := length_of_gcmDecrypt h
  simp only [slice, List.length_take, List.length_drop] at this
  simp only [envOverhead] at *
  omega

end Sys2Proof.Machine
end

