-- ==== Sys2Proof/Laws/Commands.lean ====
section
/-! SUPPORT. What a command can do, said once: the writes any command makes before it completes, and what the key operands
are. Later proofs take a command apart with `exec_cases` and never unfold a meaning. -/

namespace Sys2Proof.Machine

/-! ### Key operands -/

theorem keyBytes_le (k : KeySize) : k.keyBytes ≤ 32 := by cases k <;> decide

/-- A key operand has the length its size says (R44, R295). -/
theorem length_of_keyOf {cfg : KeyCfg} {words : Vector Word 8} {key : Key} (h : keyOf cfg words = some key) :
    key.bytes.length = key.size.keyBytes := by
  unfold keyOf at h
  split at h
  · split at h
    · cases h
      simp only [List.length_take, length_keyWordBytes]
      exact Nat.min_eq_left (keyBytes_le _)
    · cases h
  · cases h

/-! ### The writes of a command -/

/-- What a command has written when it reaches its exit (R136, R343): `i` is the command, `s` the state at acceptance,
`u` the state before completion, `e` the code. -/
inductive Wrote (s : State) (i : Instr) : State → ErrCode → Prop where
  /-- nothing (NOP). -/
  | nothing : cmdClass i = .none → Wrote s i s .ok
  /-- R (the R-class commands). -/
  | block (v : Block) : cmdClass i = .r → Wrote s i (s.setR v) .ok
  /-- RESULT (the size helpers). -/
  | size (v : Word) : cmdClass i = .size → Wrote s i (s.setResult v) .ok
  /-- every key, slot, register and array of R325. -/
  | zeroize : i = .zeroize → Wrote s i s.zeroizeAll .ok
  /-- the error writes of R343, nothing written before them. -/
  | error (e : ErrCode) : e ≠ .ok → e ≠ .authenticationFailure → Wrote s i (s.onError i) e
  /-- SCHED and SCHED_INFO (EXPAND_KEY). -/
  | schedule (key : Key) : i = .expandKey → key.bytes.length = key.size.keyBytes →
      Wrote s i (s.storeSchedule key.size (expandKey key)) .ok
  /-- OUT, OUT_LEN and R (CTR). -/
  | stream (bs : List Byte) (v : Block) : cmdClass i = .out → isComposite i = false →
      bs.length ≤ s.params.bufBytes → Wrote s i ((s.writeOut bs).setR v) .ok
  /-- a composite command whose tag check failed: the schedule, then the error writes. -/
  | tagMismatch (key : Key) : isComposite i = true → key.bytes.length = key.size.keyBytes →
      Wrote s i ((s.storeSchedule key.size (expandKey key)).onError i) .authenticationFailure
  /-- a composite command that succeeded: the schedule, OUT, OUT_LEN and R. -/
  | composite (key : Key) (bs : List Byte) (v : Block) : isComposite i = true →
      key.bytes.length = key.size.keyBytes → bs.length ≤ s.params.bufBytes →
      Wrote s i (((s.storeSchedule key.size (expandKey key)).writeOut bs).setR v) .ok
  /-- ENV_ENCODE, which also draws a nonce. -/
  | encode (key : Key) (bs : List Byte) (v : Block) : isComposite i = true →
      key.bytes.length = key.size.keyBytes → bs.length ≤ max envOverhead s.params.bufBytes →
      Wrote s i (((s.storeSchedule key.size (expandKey key)).advanceRng.writeOut bs).setR v) .ok

/-- What `exec` can answer: the exit of a command after one of its sets of writes, or the ILLEGAL_COMMAND completion (only
an ENV_ENCODE of a slot that does not exist, which no word decodes to). -/
theorem exec_cases {i : Instr} {s t : State} (h : exec i s = .next t) :
    (∃ u e, Wrote s i u e ∧ t = u.finish i e) ∨ (t = s.illegal ∧ i.wf s.params.krSlots = false) := by
  cases i with
  | nop => cases h; exact .inl ⟨_, _, .nothing rfl, rfl⟩
  | zeroize => cases h; exact .inl ⟨_, _, .zeroize rfl, rfl⟩
  | gf8Xtime => cases h; exact .inl ⟨_, _, .block _ rfl, rfl⟩
  | gf8Mul => cases h; exact .inl ⟨_, _, .block _ rfl, rfl⟩
  | gf128Halve => cases h; exact .inl ⟨_, _, .block _ rfl, rfl⟩
  | gf128Mul => cases h; exact .inl ⟨_, _, .block _ rfl, rfl⟩
  | expandKey =>
    simp only [exec, execExpandKey] at h
    split at h
    · cases h; exact .inl ⟨_, _, .error _ (by decide) (by decide), rfl⟩
    · rename_i key hk; cases h; exact .inl ⟨_, _, .schedule key rfl (length_of_keyOf hk), rfl⟩
  | encryptBlock =>
    simp only [exec, execEncryptBlock] at h
    split at h
    · cases h; exact .inl ⟨_, _, .error _ (by decide) (by decide), rfl⟩
    · cases h; exact .inl ⟨_, _, .block _ rfl, rfl⟩
  | ctr pol =>
    simp only [exec, execCtr] at h
    split at h
    · cases h; exact .inl ⟨_, _, .error _ (by decide) (by decide), rfl⟩
    · rename_i hlen
      split at h
      · cases h; exact .inl ⟨_, _, .error _ (by decide) (by decide), rfl⟩
      · cases h
        exact .inl ⟨_, _, .stream _ _ rfl rfl (by simp [State.inBytes]; omega), rfl⟩
  | ghash =>
    simp only [exec, execGhash] at h
    split at h
    · cases h; exact .inl ⟨_, _, .error _ (by decide) (by decide), rfl⟩
    · cases h; exact .inl ⟨_, _, .block _ rfl, rfl⟩
  | gcmEncrypt =>
    simp only [exec, execGcmEncrypt] at h
    split at h
    · cases h; exact .inl ⟨_, _, .error _ (by decide) (by decide), rfl⟩
    · rename_i hlen
      split at h
      · cases h; exact .inl ⟨_, _, .error _ (by decide) (by decide), rfl⟩
      · rename_i key hk
        cases h
        exact .inl ⟨_, _, .composite key _ _ rfl (length_of_keyOf hk) (by simp [State.inBytes]; omega), rfl⟩
  | gcmDecrypt =>
    simp only [exec, execGcmDecrypt] at h
    split at h
    · cases h; exact .inl ⟨_, _, .error _ (by decide) (by decide), rfl⟩
    · rename_i hlen
      split at h
      · cases h; exact .inl ⟨_, _, .error _ (by decide) (by decide), rfl⟩
      · rename_i key hk
        split at h
        · cases h; exact .inl ⟨_, _, .tagMismatch key rfl (length_of_keyOf hk), rfl⟩
        · rename_i pt hpt
          cases h
          refine .inl ⟨_, _, .composite key _ _ rfl (length_of_keyOf hk) ?_, rfl⟩
          rw [length_of_gcmDecrypt hpt]
          simp [State.inBytes]; omega
  | envEncode slot =>
    simp only [exec, execEnvEncode] at h
    split at h
    · rename_i hs; cases h; exact .inr ⟨rfl, by simp [Instr.wf]; omega⟩
    · split at h
      · cases h; exact .inl ⟨_, _, .error _ (by decide) (by decide), rfl⟩
      · rename_i hlen
        split at h
        · cases h; exact .inl ⟨_, _, .error _ (by decide) (by decide), rfl⟩
        · rename_i key hk
          cases h
          refine .inl ⟨_, _, .encode key _ _ rfl (length_of_keyOf hk) ?_, rfl⟩
          simp [State.inBytes, envOverhead] at hlen ⊢; omega
  | envDecode =>
    simp only [exec, execEnvDecode] at h
    split at h
    · cases h; exact .inl ⟨_, _, .error _ (by decide) (by decide), rfl⟩
    · rename_i hlen
      split at h
      · cases h; exact .inl ⟨_, _, .error _ (by decide) (by decide), rfl⟩
      · rename_i hmin
        split at h
        · cases h; exact .inl ⟨_, _, .error _ (by decide) (by decide), rfl⟩
        · split at h
          · cases h; exact .inl ⟨_, _, .error _ (by decide) (by decide), rfl⟩
          · rename_i key hk
            split at h
            · cases h; exact .inl ⟨_, _, .tagMismatch key rfl (length_of_keyOf hk), rfl⟩
            · rename_i pt hpt
              cases h
              refine .inl ⟨_, _, .composite key _ _ rfl (length_of_keyOf hk) ?_, rfl⟩
              rw [length_of_envOpen (by simp [State.inBytes]; omega) hpt]
              simp [State.inBytes]; omega
  | sizeForCt =>
    simp only [exec, execSizeForCt] at h
    split at h
    · cases h; exact .inl ⟨_, _, .error _ (by decide) (by decide), rfl⟩
    · cases h; exact .inl ⟨_, _, .size _ rfl, rfl⟩
  | sizeForPt =>
    simp only [exec, execSizeForPt] at h
    split at h
    · cases h; exact .inl ⟨_, _, .error _ (by decide) (by decide), rfl⟩
    · cases h; exact .inl ⟨_, _, .size _ rfl, rfl⟩

/-! ### What the shared writes read as afterwards -/

/-- After an expansion SCHED holds the schedule, zero-filled to 240 bytes (R53). -/
theorem memRead_storeSchedule (s : State) (key : Key) :
    (s.storeSchedule key.size (expandKey key)).memRead .sched 0 240 =
      expandKey key ++ zeros (240 - (expandKey key).length) := by
  have h := memRead_memWrite_same s .sched 0 (expandKey key ++ zeros (240 - (expandKey key).length))
  rw [show (expandKey key ++ zeros (240 - (expandKey key).length)).length = 240 by
    have := schedBytes_le key.size; simp only [List.length_append, length_expandKey, length_zeros]; omega] at h
  exact h

/-- After the hardening cleanup SCHED is zero (R326). -/
theorem memRead_hardenZeroize (s : State) : s.hardenZeroize.memRead .sched 0 240 = zeros 240 := by
  have h := memRead_memWrite_same s .sched 0 (zeros 240)
  rw [length_zeros] at h
  exact h

/-- OUT holds what a command wrote there. -/
theorem memRead_writeOut (s : State) (bs : List Byte) : (s.writeOut bs).memRead .output 0 bs.length = bs :=
  memRead_memWrite_same s .output 0 bs

/-- No set of writes touches the parameters, CTRL, CMD, STATUS, the sequencer or the environment's fields. -/
theorem Wrote.frame {s u : State} {i : Instr} {e : ErrCode} (h : Wrote s i u e) :
    u.params = s.params ∧ u.ctrl = s.ctrl ∧ u.cmd = s.cmd ∧ u.status = s.status ∧ u.seq = s.seq ∧
      u.schedule = s.schedule ∧ u.response = s.response := by
  cases h <;> simp

/-- Every memory operation of a command keeps the canonical form. -/
theorem Wrote.memWf {s u : State} {i : Instr} {e : ErrCode} (h : Wrote s i u e) (hm : s.mem.wf) : u.mem.wf := by
  cases h with
  | nothing _ => exact hm
  | block v _ => exact hm
  | size v _ => exact hm
  | zeroize _ => repeat (first | exact hm | apply wf_writeBytes)
  | error e _ _ => rw [onError_mem]; exact hm
  | schedule key _ _ => exact wf_writeBytes hm _ _
  | stream bs v _ _ _ => exact wf_writeBytes hm _ _
  | tagMismatch key _ _ => rw [onError_mem]; exact wf_writeBytes hm _ _
  | composite key bs v _ _ _ => exact wf_writeBytes (wf_writeBytes hm _ _) _ _
  | encode key bs v _ _ _ =>
    rw [setR_mem, writeOut_mem, advanceRng_mem]; exact wf_writeBytes (wf_writeBytes hm _ _) _ _

theorem finish_memWf {s : State} (hm : s.mem.wf) (i : Instr) (e : ErrCode) : (s.finish i e).mem.wf := by
  unfold State.finish
  split
  · exact wf_writeBytes hm _ _
  · exact hm

end Sys2Proof.Machine
end

