-- ==== Sys2Proof/Laws/Galois.lean ====
section
/-! SUPPORT. The small laws of the field operations: doubling and halving are linear over xor, and the loop of R165 from an
accumulator. -/

namespace Sys2Proof.Machine

@[simp] theorem halve_zero : halve 0 = 0 := by decide

/-- Halving is linear over xor (R164). -/
theorem halve_xor (x y : Block) : halve (x ^^^ y) = halve x ^^^ halve y := by
  unfold halve
  rw [BitVec.ushiftRight_xor_distrib, BitVec.getLsbD_xor]
  generalize (0xe1#8 ++ 0#120 : Block) = c
  have hc : ∀ p q : Block, p ^^^ q = p ^^^ c ^^^ (q ^^^ c) := fun p q => by
    rw [BitVec.xor_assoc, BitVec.xor_comm q c, ← BitVec.xor_assoc c c q, BitVec.xor_self, BitVec.zero_xor]
  cases x.getLsbD 0 <;> cases y.getLsbD 0
  · simp
  · simp [BitVec.xor_assoc]
  · simp [BitVec.xor_assoc, BitVec.xor_comm c]
  · simpa using hc (x >>> 1) (y >>> 1)

/-- Doubling is linear over xor (R160). -/
theorem xtime_xor (x y : Byte) : xtime (x ^^^ y) = xtime x ^^^ xtime y := by
  unfold xtime
  rw [BitVec.shiftLeft_xor_distrib, BitVec.getLsbD_xor]
  have hc : ∀ p q : Byte, p ^^^ q = p ^^^ 0x1b ^^^ (q ^^^ 0x1b) := fun p q => by
    rw [BitVec.xor_assoc, BitVec.xor_comm q, ← BitVec.xor_assoc 0x1b, BitVec.xor_self, BitVec.zero_xor]
  cases x.getLsbD 7 <;> cases y.getLsbD 7
  · simp
  · simp [BitVec.xor_assoc]
  · simpa [BitVec.xor_assoc] using BitVec.xor_comm (y <<< 1) 27#8
  · simpa using hc (x <<< 1) (y <<< 1)

/-- The loop of R165 from an accumulator: the accumulator is only ever XORed into. -/
theorem mulStep_foldl_xor (x : Block) (is : List Nat) (z v : Block) :
    (is.foldl (mulStep x) (z, v)).1 = z ^^^ (is.foldl (mulStep x) (0, v)).1 := by
  induction is generalizing z v with
  | nil => simp
  | cons i is ih =>
    simp only [List.foldl_cons, mulStep]
    rw [ih, ih (if blockBit x i then 0 ^^^ v else 0)]
    split <;> simp [BitVec.xor_assoc]

end Sys2Proof.Machine
end

