-- ==== Sys2Proof/Laws/PerInstr.lean ====
section
/-! SUPPORT. The per-instruction family `EncodedFields`: the four fields of every command's word are the ones R130 to R134
give it (OP its opcode, SLOT and POL zero where the command does not use them, bits 31:14 zero). -/

namespace Sys2Proof.Laws.EncodedFields

/-- The fields of the word of `i` (R130, R134). -/
def Statement (i : Instr) : Prop :=
  opField (encode i) = i.opcode ∧ slotField (encode i) = i.slotBits ∧ polField (encode i) = i.polBits ∧
    reservedField (encode i) = 0

theorem nop : Statement .nop := by unfold Statement; decide
theorem expandKey : Statement .expandKey := by unfold Statement; decide
theorem encryptBlock : Statement .encryptBlock := by unfold Statement; decide
theorem gf8Xtime : Statement .gf8Xtime := by unfold Statement; decide
theorem gf8Mul : Statement .gf8Mul := by unfold Statement; decide
theorem gf128Halve : Statement .gf128Halve := by unfold Statement; decide
theorem gf128Mul : Statement .gf128Mul := by unfold Statement; decide
theorem ctr (pol : CounterPolicy) : Statement (.ctr pol) := by
  unfold Statement; cases pol <;> decide
theorem ghash : Statement .ghash := by unfold Statement; decide
theorem gcmEncrypt : Statement .gcmEncrypt := by unfold Statement; decide
theorem gcmDecrypt : Statement .gcmDecrypt := by unfold Statement; decide
theorem envEncode (slot : Fin 16) : Statement (.envEncode slot) := by
  unfold Statement; revert slot; decide
theorem envDecode : Statement .envDecode := by unfold Statement; decide
theorem sizeForCt : Statement .sizeForCt := by unfold Statement; decide
theorem sizeForPt : Statement .sizeForPt := by unfold Statement; decide
theorem zeroize : Statement .zeroize := by unfold Statement; decide

end Sys2Proof.Laws.EncodedFields
end

