-- ==== Sys2Proof/Tests/Slice0.lean ====
section
/-! SUPPORT. The model's own tests: expected values come from the spec's worked examples and vectors (95_test_vectors.md and
the example of each command rule), and for every obligation with hypotheses a witness that meets them. -/

namespace Sys2Proof.Tests

/- One theorem at a time: the kernel evaluations below would otherwise wait for each other in many threads. -/
set_option Elab.async false

open Sys2Proof.Machine Sys2Proof.Claim

/-! ### The small machine of the tests -/

/-- An instance with 64-byte buffers and 2 slots. -/
def small : Params := { bufBytes := 64, krSlots := 2, base := 0x8000 }

/-- That instance after reset. -/
def idle : State := State.resetWith small

/-- KEY0..KEY7 with the key 000102..0f (R43's example). -/
def keyWords : Vector Word 8 := #v[0x03020100, 0x07060504, 0x0b0a0908, 0x0f0e0d0c, 0, 0, 0, 0]

/-- The key 000102..0f. -/
def key1 : Key := { size := .aes128, bytes := beBytes 16 0x000102030405060708090a0b0c0d0e0f }

/-- KEYREG loaded with that key. -/
def keyed : State := { idle with keyReg := keyWords, keyCfg := { keylen := 0, valid := true } }

/-- CTRL.HARDEN = 0. -/
def soft (s : State) : State := { s with ctrl := { s.ctrl with harden := false } }

/-- IN and IN_LEN loaded. -/
def loadIn (s : State) (bs : List Byte) : State :=
  { s.memWrite .input 0 bs with inLen := BitVec.ofNat 32 bs.length }

/-- The schedule of `key1` in SCHED. -/
def expanded : State := keyed.storeSchedule .aes128 (expandKey key1)

/-- The zero key, a 12-byte zero nonce and 16 zero bytes of plaintext: GCM test case 2 (L1-6). -/
def gcmCase2 : State :=
  loadIn { idle with keyCfg := { keylen := 0, valid := true }, nonceLen := 12 } (zeros 16)

/-- The ciphertext of test case 2 in IN and its tag in B. -/
def gcmCase2Back : State :=
  { loadIn gcmCase2 (beBytes 16 0x0388dace60b6a392f328c2b971b2fe78) with
    b := 0xab6e47d42cec13bdf53a67b21257bddf }

/-- Slot 0 holds "v10", slot 1 holds "v20", both with the key 000102..0f (R301's example). -/
def ringed : State :=
  { idle with
    ring := [{ tag := 0x303176, cfg := { keylen := 0, valid := true }, key := keyWords },
             { tag := 0x303276, cfg := { keylen := 0, valid := true }, key := keyWords }]
    rng := [1] }

/-- The envelope of R300's example. -/
def helloEnvelope : List Byte :=
  beBytes 36 0x763230000000000000000000000001d2b0c30fa2c26cd8effae4c043d84068d50d63cc43

/-- `o` answers a next state of which `p` holds. -/
def answers (o : Host.Outcome State Fault Refusal) (p : State → Bool) : Bool :=
  match o with
  | .next t => p t
  | .fault _ => false
  | .refused _ => false

/-- The step of a fetched command word ends with the STATUS word `w`. -/
def endsWith (s : State) (cmd : Nat) (w : Word) : Bool :=
  answers (step (s.withFetchWord 32 cmd)) fun t => decide (t.statusWord = w)

/-! ### Well-formedness and decoding -/

theorem test_wf_refuses_slot_beyond_ring : (Instr.envEncode 4).wf 4 = false := by decide
theorem test_wf_admits_last_slot : (Instr.envEncode 3).wf 4 = true := by decide
theorem test_wf_slot15_needs_16_slots : (Instr.envEncode 15).wf 16 = true ∧ (Instr.envEncode 15).wf 15 = false := by
  decide

/-- Words written out field by field from R130 (reserved, POL, SLOT, OP), one of each family. -/
theorem test_decode_nop : decode 4 (0#18 ++ 0b00#2 ++ 0b0000#4 ++ 0b00000000#8) = .ok .nop := by rfl
theorem test_decode_encrypt_block : decode 4 (0#18 ++ 0b00#2 ++ 0b0000#4 ++ 0b00000010#8) = .ok .encryptBlock := by rfl
theorem test_decode_gf8_mul : decode 4 (0#18 ++ 0b00#2 ++ 0b0000#4 ++ 0b00000100#8) = .ok .gf8Mul := by rfl
theorem test_decode_gf128_halve : decode 4 (0#18 ++ 0b00#2 ++ 0b0000#4 ++ 0b00000101#8) = .ok .gf128Halve := by rfl
theorem test_decode_ctr_pre : decode 4 (0#18 ++ 0b01#2 ++ 0b0000#4 ++ 0b00000111#8) = .ok (.ctr .preIncrement) := by rfl
theorem test_decode_ghash : decode 4 (0#18 ++ 0b00#2 ++ 0b0000#4 ++ 0b00001000#8) = .ok .ghash := by rfl
theorem test_decode_gcm_decrypt : decode 4 (0#18 ++ 0b00#2 ++ 0b0000#4 ++ 0b00001010#8) = .ok .gcmDecrypt := by rfl
theorem test_decode_env_encode : decode 4 (0#18 ++ 0b00#2 ++ 0b0011#4 ++ 0b00001011#8) = .ok (.envEncode 3) := by rfl
theorem test_decode_size_for_pt : decode 4 (0#18 ++ 0b00#2 ++ 0b0000#4 ++ 0b00001110#8) = .ok .sizeForPt := by rfl
theorem test_decode_zeroize : decode 4 (0#18 ++ 0b00#2 ++ 0b0000#4 ++ 0b00001111#8) = .ok .zeroize := by rfl

/-- Each check of R134 rejects by its own name, at the first value it refuses. -/
theorem test_decode_rejects :
    (decode 4 0x00004000, decode 4 0x00000010, decode 4 0x00000100, decode 4 0x00001000, decode 4 0x0000040B,
      decode 4 0x00002007) =
    (.error .reservedBits, .error .reservedOpcode, .error .unusedSlot, .error .unusedPolicy, .error .slotOutOfRange,
      .error .reservedPolicy) := by rfl

theorem test_decode_table_word : decodeTableWord 32 0x1007 = some (.ctr .preIncrement) ∧
    decodeTableWord 32 0x40B = none ∧ decodeTableWord 64 0 = none := by decide

/-! ### The commands -/

/-- R324: STATUS = 0x00000002 after NOP. -/
theorem test_nop : endsWith idle 0x00000000 0x00000002 = true := by decide +kernel

/-- R324: 0x00000100 is an illegal word; STATUS has ERR = 5. -/
theorem test_illegal_word : endsWith idle 0x00000100 0x00000052 = true := by decide +kernel

/-- R195's example: SCHED_INFO and words 40..43 of the SCHED window. -/
theorem test_expand_key :
    answers (exec .expandKey keyed) (fun t => decide (
      (t.readTarget .schedInfo, t.readTarget (.buf .sched 0), t.readTarget (.buf .sched 40), t.readTarget (.buf .sched 41),
        t.readTarget (.buf .sched 42), t.readTarget (.buf .sched 43), t.readTarget (.buf .sched 44)) =
      (0x00000a01, 0x03020100, 0x7f1d1113, 0x174a94e3, 0x8ba707f3, 0xc5302b4d, 0x00000000))) = true := by
  decide +kernel

/-- R342: without a key EXPAND_KEY ends with ERR = 4. -/
theorem test_expand_key_absent : endsWith idle 0x00000001 0x00000042 = true := by decide +kernel

/-- R196's example (L1-1): R0..R3. -/
theorem test_encrypt_block :
    answers (exec .encryptBlock { expanded with a := 0x00112233445566778899aabbccddeeff }) (fun t => decide (
      (t.readTarget (.r 0), t.readTarget (.r 1), t.readTarget (.r 2), t.readTarget (.r 3)) =
      (0xd8e0c469, 0x30047b6a, 0x80b7cdd8, 0x5ac5b470))) = true := by decide +kernel

/-- L1-2, L1-3: FIPS-197 C.2 (AES-192) and C.3 (AES-256). -/
theorem test_aes192 :
    encryptBlock (expandKey ⟨.aes192, beBytes 24 0x000102030405060708090a0b0c0d0e0f1011121314151617⟩)
      0x00112233445566778899aabbccddeeff = 0xdda97ca4864cdfe06eaf70a0ec0d7191 := by decide +kernel
theorem test_aes256 :
    encryptBlock (expandKey ⟨.aes256, beBytes 32 0x000102030405060708090a0b0c0d0e0f101112131415161718191a1b1c1d1e1f⟩)
      0x00112233445566778899aabbccddeeff = 0x8ea2b7ca516745bfeafc49904b496089 := by decide +kernel

/-- R183: the column db 13 53 45 mixes to 8e 4d a1 bc; R160's corner cases. -/
theorem test_mix_columns : mixColumns 0xdb135345000000000000000000000000 = 0x8e4da1bc000000000000000000000000 ∧
    xtime 0x80 = 0x1b ∧ xtime 0xff = 0xe5 ∧ xtime 0x57 = 0xae := by decide +kernel

/-- R166: A0 = 0x00000057 gives R0 = 0x000000ae. -/
theorem test_gf8_xtime :
    answers (exec .gf8Xtime (idle.writeTarget 0x00000057 (.a 0))) (fun t => decide (
      (t.readTarget (.r 0), t.readTarget (.r 1), t.readTarget (.r 3)) = (0x000000ae, 0, 0))) = true := by decide +kernel

/-- R167: 0x57 times 0x83 is 0xc1; the other bytes of A and B are ignored. -/
theorem test_gf8_mul :
    answers (exec .gf8Mul { idle with a := 0x57ff0000000000000000000000000000, b := 0x83000000000000000000000000000001 })
      (fun t => decide (t.r = 0xc1000000000000000000000000000000)) = true := by decide +kernel

/-- R164, R168: the corner cases of halve. -/
theorem test_gf128_halve :
    answers (exec .gf128Halve { idle with a := 1 }) (fun t => decide (t.readTarget (.r 0) = 0x000000e1)) = true ∧
    halve 0xffffffffffffffffffffffffffffffff = 0x9effffffffffffffffffffffffffffff := by decide +kernel

/-- R169: 80 00..00 times Y is Y. -/
theorem test_gf128_mul :
    answers (exec .gf128Mul { idle with a := 0x80000000000000000000000000000000, b := 0x66e94bd4ef8a2c3b884cfa59ca342b2e })
      (fun t => decide (t.r = 0x66e94bd4ef8a2c3b884cfa59ca342b2e)) = true := by decide +kernel

/-- R225's example, POL = 0. -/
theorem test_ctr :
    answers (exec (.ctr .none) (loadIn { expanded with a := 0x00112233445566778899aabbccddeeff } (zeros 16)))
      (fun t => decide ((t.memRead .output 0 16, t.outLen, t.r) =
        (beBytes 16 0x69c4e0d86a7b0430d8cdb78070b4c55a, 16, 0x00112233445566778899aabbccddef00))) = true := by
  decide +kernel

/-- R225: A = ff..ff with POL = 1 wraps silently; IN_LEN = 0 gives R = A + 1 and no output. -/
theorem test_ctr_wraps :
    answers (exec (.ctr .preIncrement) { expanded with a := 0xffffffffffffffffffffffffffffffff })
      (fun t => decide ((t.outLen, t.r) = (0, 0))) = true := by decide +kernel

/-- R245's example. -/
theorem test_ghash :
    answers (exec .ghash (loadIn { idle with a := 0x66e94bd4ef8a2c3b884cfa59ca342b2e }
      (beBytes 16 0x0388dace60b6a392f328c2b971b2fe78)))
      (fun t => decide (t.r = 0xf38cbb1ad69223dcc3457ae5b6b0f885)) = true := by decide +kernel

/-- R270's example (L1-6, test case 2), under HARDEN = 1: the schedule is gone. -/
theorem test_gcm_encrypt :
    answers (exec .gcmEncrypt gcmCase2) (fun t => decide ((t.memRead .output 0 16, t.outLen, t.r, t.schedInfo) =
      (beBytes 16 0x0388dace60b6a392f328c2b971b2fe78, 16, 0xab6e47d42cec13bdf53a67b21257bddf, none))) = true := by
  decide +kernel

/-- R271's example: the plaintext back, and ERR = 1 with OUT_LEN = 0 when the tag's last byte is 0xde. -/
theorem test_gcm_decrypt :
    answers (exec .gcmDecrypt gcmCase2Back) (fun t => decide ((t.memRead .output 0 16, t.outLen, t.status.err) =
      (zeros 16, 16, .ok))) = true := by decide +kernel
theorem test_gcm_decrypt_bad_tag :
    answers (exec .gcmDecrypt (soft { gcmCase2Back with b := 0xab6e47d42cec13bdf53a67b21257bdde }))
      (fun t => decide ((t.outLen, t.r, t.status.err, t.schedInfo) =
        (0, 0, .authenticationFailure, some .aes128))) = true := by decide +kernel

/-- R300's example, from slot 1 of `ringed`. -/
theorem test_env_encode :
    answers (exec (.envEncode 1) (loadIn ringed (beBytes 5 0x68656c6c6f))) (fun t => decide (
      (t.memRead .output 0 36, t.outLen, t.r, t.rng) = (helloEnvelope, 36, 0, []))) = true := by decide +kernel

/-- R301's example: "hello" back; with the first byte 0x77 the version is unknown. -/
theorem test_env_decode :
    answers (exec .envDecode (loadIn ringed helloEnvelope)) (fun t => decide (
      (t.memRead .output 0 5, t.outLen, t.status.err) = (beBytes 5 0x68656c6c6f, 5, .ok))) = true := by decide +kernel
theorem test_env_decode_unknown :
    answers (exec .envDecode (loadIn ringed (0x77 :: helloEnvelope.tail))) (fun t => decide (
      (t.outLen, t.status.err) = (0, .unknownKeyVersion))) = true := by decide +kernel

/-- R303: 5 gives 36; 0xFFFFFFE0 gives 0xFFFFFFFF; above it LENGTH_ERROR. -/
theorem test_size_for_ct :
    [0x00000005, 0xFFFFFFE0, 0xFFFFFFE1].map (fun x => answers (exec .sizeForCt { idle with sizeArg := x })
      fun t => decide ((t.result, t.status.err) = if x = 5 then (36, .ok) else if x = 0xFFFFFFE0 then
        (0xFFFFFFFF, ErrCode.ok) else (0, .lengthError))) = [true, true, true] := by decide +kernel

/-- R304: 36 gives 5, 31 gives 0, 30 is MALFORMED_ENVELOPE. -/
theorem test_size_for_pt :
    [36, 31, 30].map (fun x => answers (exec .sizeForPt { idle with sizeArg := x })
      fun t => decide ((t.result, t.status.err) = if x = 36 then (5, .ok) else if x = 31 then (0, ErrCode.ok)
        else (0, .malformedEnvelope))) = [true, true, true] := by decide +kernel

/-- R325's example: after ZEROIZE SCHED_INFO, the SCHED window and KEYCFG read 0. -/
theorem test_zeroize :
    answers (exec .zeroize expanded) (fun t => decide ((t.readTarget .schedInfo, t.readTarget (.buf .sched 0),
      t.readTarget .keycfg, t.statusWord, t.readTarget .ctrl) = (0, 0, 0, 0x00000002, 0x00000006)) && t.mem.isEmpty) =
      true := by decide +kernel

/-! ### The bus -/

/-- R60: PARAMS at the reference values; R31: ID. -/
theorem test_params : State.reset.readTarget .params = 0x40041000 ∧ State.reset.readTarget .id = 0x55504743 := by
  decide +kernel

/-- R50's example: the Block 00112233..ff as A0..A3. -/
theorem test_block_lanes : [0, 1, 2, 3].map (laneWord 0x00112233445566778899aabbccddeeff) =
    [0x33221100, 0x77665544, 0xbbaa9988, 0xffeeddcc] := by decide +kernel

/-- R138: `LDBLK A`, byte by byte through the bus. -/
theorem test_load_block : (expandPseudo (.load .blockA (beBytes 16 0x00112233445566778899aabbccddeeff))) =
    [.wr 0x060 0x33221100, .wr 0x064 0x77665544, .wr 0x068 0xbbaa9988, .wr 0x06C 0xffeeddcc] := by decide +kernel

/-- R138: `CMD`, `LDKEY`, `CLR`, `CHECK`. -/
theorem test_pseudo_statements :
    expandPseudo (.cmd (.ctr .preIncrement)) = [.wr 0x008 0x00001007] ∧
    expandPseudo (.check 5) = [.rdExpect 0x00C 0x00000052] ∧ expandPseudo .clr = [.wr 0x00C 0x00000006] ∧
    (expandPseudo (.ldKey 1 (zeros 24))).getLast? = some (.wr 0x010 0x80000001) := by decide +kernel

/-- R105: a CMD write while a command runs is dropped and sets OVR; the running word stays in CMD. -/
theorem test_busy_cmd_write :
    ((idle.accept 3).hostAccess 0x008 .bits32 (.write 4)).statusWord = 0x00000005 ∧
    ((idle.accept 3).hostAccess 0x008 .bits32 (.write 4)).cmd = 3 := by decide +kernel

/-- R103, R104: a bus error for a narrow, a misaligned and an unmapped access (slot 0's +0x08). -/
theorem test_bus_errors :
    [((0x000, AccessWidth.bits16) : Nat × AccessWidth), (0x002, .bits32), (0x208, .bits32), (0x034, .bits32),
      (0x1040, .bits32), (0x103C, .bits32)].map (fun x => (idle.hostAccess x.1 x.2 .read).response) =
    [some .busError, some .busError, some .busError, some .busError, some .busError, some (.value 0)] := by
  decide +kernel

/-- R381: a reset before the engine step loses the command. -/
theorem test_reset_while_running :
    answers (step { idle.accept 3 with schedule := [.reset] }) (fun t => decide (t = idle)) = true := by decide +kernel

/-! ### Witnesses: for every obligation with hypotheses, a state and operands that meet them -/

theorem witness_DecodeAndEncodeAgree : decode 4 0x0000030B = .ok (.envEncode 3) ∧ decode 4 0x00001007 =
    .ok (.ctr .preIncrement) ∧ encode (.envEncode 3) = 0x0000030B := by exact ⟨rfl, rfl, rfl⟩

/-- The last legal word of each clause. -/
theorem witness_IllegalWords_boundary : (decode 4 0x0000000F).isOk = true ∧ (decode 4 0x0000030B).isOk = true ∧
    (decode 4 0x00001007).isOk = true ∧ (decode 4 0x0000040B).isOk = false ∧ (decode 4 0x80000000).isOk = false := by
  decide

/-- A running legal word with no event left, an illegal one at the engine's event, and an idle core in both cases. -/
theorem witness_EngineStepRunsTheDecodedCommand :
    (idle.seq = .idle ∧ idle.schedule = []) ∧
    (∃ s : State, s.seq = .idle ∧ s.schedule = .engine :: [.reset] ∧ { s with schedule := [.reset] } ≠ s) ∧
    (idle.accept 3).seq = .running 3 ∧ (idle.accept 3).schedule = [] ∧ decode 2 3 = .ok .gf8Xtime ∧
    (idle.withFetchWord 32 0x20B).seq = .running 0x20B ∧ (idle.withFetchWord 32 0x20B).schedule = .engine :: [] ∧
    decode 2 0x20B = .error .slotOutOfRange :=
  ⟨⟨rfl, rfl⟩, ⟨{ idle with schedule := [.engine, .reset] }, rfl, rfl, by decide⟩, rfl, rfl, rfl, rfl, rfl, rfl⟩

theorem witness_EngineStepCompletesTheCommand : (idle.accept 0x10).seq = .running 0x10 ∧
    (idle.accept 0).seq = .running 0 := by exact ⟨rfl, rfl⟩

theorem witness_CmdWriteIsAcceptedWhenIdle : idle.busy = false ∧ (idle.accept 3).busy = true := by decide

theorem witness_OnlyStatusCanChangeWhileACommandRuns : (idle.accept 3).busy = true ∧
    ((idle.accept 3).busEvent { addr := 0x8004, width := .bits32, op := .write 1 }).status.ovr = true := by
  decide +kernel

/-- The first and the last word of the window. -/
theorem witness_BusEventsAreServedOneAtATime : ∀ off ∈ [0, 0x3FFC], off < 0x4000 ∧ ∃ s : State,
    s.schedule = .bus { addr := s.params.base + off, width := .bits32, op := .read } :: [] := by
  intro off h
  refine ⟨by revert h; revert off; decide, ?_⟩
  exact ⟨{ idle with schedule := [.bus { addr := 0x8000 + off, width := .bits32, op := .read }] }, rfl⟩

/-- The last address below the window and the first one above it. -/
theorem witness_BusEventsOutsideTheWindow : ∀ addr ∈ [0x7FFC, 0xC000], (addr < idle.params.base ∨
    idle.params.base + 0x4000 ≤ addr) ∧ ({ idle with schedule := [.bus { addr := addr, width := .bits32, op := .write 1 }] } :
      State).schedule = .bus { addr := addr, width := .bits32, op := .write 1 } :: [] := by decide

theorem witness_ResetEndsARunningCommand : ∃ s : State, s.busy = true ∧ s.schedule = .reset :: [.engine] :=
  ⟨{ idle.accept 3 with schedule := [.reset, .engine] }, rfl, rfl⟩

theorem witness_NarrowOrMisalignedAccessIsABusError :
    (AccessWidth.bits8 ≠ .bits32 ∨ 0 % 4 ≠ 0) ∧ (AccessWidth.bits32 ≠ .bits32 ∨ 0x3FFF % 4 ≠ 0) := by decide

/-- Both sides of every end of every mapped range, on a legal instance with 2 slots and 64-byte buffers. -/
theorem witness_MappedOffsetsAreThoseOfTheRegisterMap : small.legal ∧
    (∀ off ∈ [0x000, 0x030, 0x040, 0x08C, 0x100, 0x13C, 0x200, 0x204, 0x220, 0x23C, 0x240, 0x27C, 0x600, 0x6EC, 0x1000,
      0x103C, 0x2000, 0x203C, 0x3000, 0x303C], off % 4 = 0 ∧ (regMap small off).isSome) ∧
    (∀ off ∈ [0x034, 0x03C, 0x090, 0x0FC, 0x140, 0x1FC, 0x208, 0x21C, 0x248, 0x280, 0x5FC, 0x6F0, 0xFFC, 0x1040, 0x1FFC,
      0x2040, 0x2FFC, 0x3040, 0x3FFC], off % 4 = 0 ∧ (regMap small off).isNone) := by decide +kernel

/-- R60's own offsets, one of each row of the map, idle; and none for a slot or a word beyond the instance's. -/
theorem witness_MappedOffsets_offsetOf : idle.busy = false ∧
    (∀ e ∈ [(Target.id, 0x000), (.aadLen, 0x014), (.inLen, 0x018), (.params, 0x030), (.key 7, 0x05C), (.a 3, 0x06C),
        (.b 0, 0x070), (.r 3, 0x08C), (.buf .nonce 15, 0x13C), (.krTag 1, 0x240), (.krCfg 0, 0x204), (.krKey 1 7, 0x27C)],
      offsetOf small e.1 = some e.2) ∧
    (∀ e ∈ [(Target.buf .sched 59, 0x6EC), (.buf .aad 15, 0x103C), (.buf .input 0, 0x2000), (.buf .output 15, 0x303C)],
      offsetOf small e.1 = some e.2) ∧
    ∀ t ∈ [Target.key 8, .krTag 2, .buf .aad 16, .buf .sched 60], offsetOf small t = none := by decide +kernel

/-- A slot, and both values of SCHED_INFO.VALID. -/
theorem witness_RegisterFieldsStandWhereTheRulesPutThem : 1 < idle.ring.length ∧ idle.schedInfo = none ∧
    expanded.schedInfo = some .aes128 := by decide

/-- One target for each clause. -/
theorem witness_BusyTimeAccessRule : (idle.accept 3).busy = true ∧
    accessTarget small 0x00C .bits32 = some .status ∧ accessTarget small 0x3000 .bits32 = some (.buf .output 0) ∧
    accessTarget small 0x030 .bits32 = some .params ∧ accessTarget small 0x010 .bits32 = some .keycfg ∧
    accessTarget small 0x208 .bits32 = none ∧ accessTarget small 0x00C .bits16 = none := by
  decide +kernel

/-- A read-only register, a read-only window and two write-only registers, on a machine that is not busy. -/
theorem witness_ReservedReadOnlyAndWriteOnlyRule : idle.busy = false ∧ accessTarget small 0x000 .bits32 = some .id ∧
    accessTarget small 0x303C .bits32 = some (.buf .output 15) ∧ accessTarget small 0x6EC .bits32 = some (.buf .sched 59) ∧
    accessTarget small 0x05C .bits32 = some (.key 7) ∧ accessTarget small 0x27C .bits32 = some (.krKey 1 7) := by
  decide +kernel

theorem witness_KeyBytesAreNeverReadableThroughTheBus :
    [keyWords, Vector.replicate 8 0].length = ringed.ring.length ∧ withKeys ringed keyWords [keyWords,
      Vector.replicate 8 0] ≠ ringed := by decide +kernel

/-- The last byte of a word, and the last word of the AAD and SCHED windows beside other arrays. -/
theorem witness_BufferWordReadsBackInLaneOrder : idle.busy = false ∧ 3 < 4 ∧ idle.params.legal ∧
    4 * 15 < Buf.aad.size idle.params ∧ Buf.input ≠ .aad ∧ 4 * 59 < Buf.sched.size idle.params ∧ Buf.aad ≠ .sched ∧
    ∀ x ∈ [Buf.aad, .input, .nonce], x = .aad ∨ x = .input ∨ x = .nonce := by decide

theorem witness_BlockRegisterWordsAreInLaneOrder : idle.busy = false ∧ 3 < 4 ∧ 0 < 4 ∧ 15 < 16 ∧
    (zeros 16).length = 16 := by decide

theorem witness_KeyRegisterWordsAreInLaneOrder : idle.busy = false ∧ 7 < 8 := by decide

theorem witness_SlotRegistersHoldWhatTheHostWrites : idle.busy = false ∧ 1 < idle.ring.length ∧ 7 < 8 := by decide

/-- A STATUS write and a reset, each clearing OVR. -/
theorem witness_OvrIsSticky : ∀ e ∈ [Event.bus { addr := 0x800C, width := .bits32, op := .write 4 }, .reset],
    answers (step { idle.dropWrite with schedule := [e] }) (fun t => idle.dropWrite.status.ovr && !t.status.ovr) =
      true := by decide +kernel

/-- The two ways up. -/
theorem witness_Interrupt_rises :
    (answers (step { (idle.writeTarget 1 .ctrl).accept 0 with schedule := [.engine] }) State.irq = true) ∧
    (answers (step { idle.complete .ok with schedule := [.bus { addr := 0x8004, width := .bits32, op := .write 1 }] })
      State.irq = true) := by decide +kernel

/-- The four ways down. -/
theorem witness_Interrupt_falls : ((idle.writeTarget 1 .ctrl).complete .ok).irq = true ∧
    ∀ e ∈ [Event.reset, .bus { addr := 0x800C, width := .bits32, op := .write 2 },
      .bus { addr := 0x8008, width := .bits32, op := .write 0 }, .bus { addr := 0x8004, width := .bits32, op := .write 6 }],
    answers (step { (idle.writeTarget 1 .ctrl).complete .ok with schedule := [e] }) (fun t => !t.irq) = true := by
  decide +kernel

/-- The ends of the parameter ranges of R7; for the two statements about reset. -/
theorem witness_legal_params : Params.reference.legal ∧ small.legal ∧
    ({ bufBytes := 64, krSlots := 1, base := 0x4000 } : Params).legal ∧
    ({ bufBytes := 4096, krSlots := 16, base := 0 } : Params).legal := by decide

/-- A running machine with a schedule in SCHED meets the invariant, and steps. -/
theorem witness_EveryStepKeepsTheInvariant : (expanded.accept 2).Inv ∧
    answers (step (expanded.accept 2)) (fun t => decide (t.status.err = .ok)) = true := by
  refine ⟨⟨by decide, by decide, by decide +kernel, ?_, by decide, ?_, ?_⟩, by decide +kernel⟩
  · intro c hc
    have h : ∀ c ∈ (expanded.accept 2).mem, 0x600 ≤ c.1 ∧ c.1 < 0x600 + 240 := by decide +kernel
    exact ⟨.sched, h c hc⟩
  · exact ⟨key1, rfl, by decide, by decide +kernel⟩
  · intro w h
    cases h
    exact ⟨rfl, rfl, rfl⟩

/-- KEYLEN at each of its four values. -/
theorem witness_KeyOperandOfKeyreg : [0, 1, 2, 3].map (fun x =>
    ({ keyed with keyCfg := { keylen := x, valid := true } } : State).keyFromReg.map (fun k => k.bytes.length)) =
    [some 16, some 24, some 32, none] ∧ idle.keyFromReg = none := by decide +kernel

/-- A slot at each value of KEYLEN; a slot without a key for ENV_ENCODE, and one an envelope selects for ENV_DECODE. -/
theorem witness_KeyOperandOfSlots :
    let bad : Slot := { tag := 0x303276, cfg := { keylen := 3, valid := true }, key := keyWords }
    let s : State := { loadIn ringed helloEnvelope with ring := [Slot.zero, bad] }
    ([0, 1, 2, 3].map fun x => ({ bad with cfg := { keylen := x, valid := true } } : Slot).keyOperand.map
      fun k => k.bytes.length) = [some 16, some 24, some 32, none] ∧
    (1 : Fin 16).val < idle.params.krSlots ∧ idle.inLen.toNat ≤ idle.params.bufBytes - 31 ∧
      (idle.slot 1).keyOperand = none ∧
    s.inLen.toNat ≤ s.params.bufBytes ∧ 31 ≤ s.inLen.toNat ∧ bad.keyOperand = none ∧
      lookupSlot s.ring (tagOfBytes ((s.memRead .input 0 s.inLen.toNat).take 3)) = some bad ∧
    idle.aadLen.toNat ≤ idle.params.bufBytes ∧ idle.inLen.toNat ≤ idle.params.bufBytes ∧ idle.nonceLen.toNat ≤ 64 := by
  decide +kernel

theorem witness_ExpandKeyStoresTheSchedule : keyed.keyFromReg = some key1 ∧ idle.keyFromReg = none := by decide +kernel

theorem witness_EncryptBlockUsesTheStoredSchedule : expanded.schedInfo = some .aes128 ∧ idle.schedInfo = none := by
  decide

/-- IN_LEN at BUF_BYTES and one above it. -/
theorem witness_CtrAppliesTheKeystream :
    ({ expanded with inLen := 64 } : State).inLen.toNat ≤ expanded.params.bufBytes ∧ expanded.schedInfo = some .aes128 ∧
    expanded.params.bufBytes < ({ expanded with inLen := 65 } : State).inLen.toNat ∧
    ({ idle with inLen := 64 } : State).inLen.toNat ≤ idle.params.bufBytes ∧ idle.schedInfo = none := by decide

theorem witness_GhashCommandWritesTheHash :
    (64#32).toNat ≤ idle.params.bufBytes ∧ idle.params.bufBytes < (65#32).toNat := by decide

/-- Every length at its limit, with a key. -/
theorem witness_GcmEncryptWritesCiphertextAndTag :
    let s : State := { keyed with aadLen := 64, inLen := 64, nonceLen := 64 }
    s.aadLen.toNat ≤ s.params.bufBytes ∧ s.inLen.toNat ≤ s.params.bufBytes ∧ s.nonceLen.toNat ≤ 64 ∧
      s.keyFromReg = some key1 := by decide +kernel

/-- A state whose tag verifies and one whose tag does not. -/
theorem witness_GcmDecryptVerifiesThenDecrypts :
    gcmDecrypt { size := .aes128, bytes := zeros 16 } gcmCase2Back.nonceBytes gcmCase2Back.inBytes [] gcmCase2Back.b =
      some (zeros 16) ∧
    gcmDecrypt { size := .aes128, bytes := zeros 16 } gcmCase2Back.nonceBytes gcmCase2Back.inBytes [] 0 = none ∧
    gcmCase2Back.keyFromReg = some { size := .aes128, bytes := zeros 16 } ∧ gcmCase2Back.nonceLen.toNat ≤ 64 ∧
    gcmCase2Back.inLen.toNat ≤ 64 ∧ gcmCase2Back.aadLen.toNat ≤ 64 := by decide +kernel

/-- The last slot and the longest plaintext that fits. -/
theorem witness_EnvEncodeWritesTheEnvelope :
    let s : State := { ringed with inLen := 33 }
    s.params.legal ∧ (1 : Fin 16).val < s.params.krSlots ∧ s.inLen.toNat ≤ s.params.bufBytes - 31 ∧
      (s.slot 1).keyOperand = some key1 := by decide +kernel

/-- An envelope that opens and one that does not. -/
theorem witness_EnvDecodeOpensTheEnvelope :
    let s : State := loadIn ringed helloEnvelope
    let u : State := loadIn ringed (helloEnvelope.take 31)
    (s.inLen.toNat ≤ s.params.bufBytes ∧ 31 ≤ s.inLen.toNat ∧
      lookupSlot s.ring (tagOfBytes (helloEnvelope.take 3)) = some (s.slot 1) ∧ (s.slot 1).keyOperand = some key1 ∧
      envOpen key1 s.inBytes = some (beBytes 5 0x68656c6c6f)) ∧
    31 ≤ u.inLen.toNat ∧ envOpen key1 u.inBytes = none := by decide +kernel

/-- SIZE_ARG on both sides of each limit. -/
theorem witness_SizeCommandsWriteResult : (0xFFFFFFE0#32).toNat ≤ 0xFFFFFFE0 ∧ 0xFFFFFFE0 < (0xFFFFFFE1#32).toNat ∧
    31 ≤ (31#32).toNat ∧ (30#32).toNat < 31 := by decide

theorem witness_ZeroizeClearsEverythingButControl : expanded.params.legal ∧ ringed.params.legal := by decide

/-- Every code of R340 is reported by some well-formed command. -/
theorem witness_CommandsReportTheFirstFailingCheck :
    firstError idle .nop = .ok ∧ firstError { gcmCase2Back with b := 0 } .gcmDecrypt = .authenticationFailure ∧
    firstError (loadIn idle helloEnvelope) .envDecode = .unknownKeyVersion ∧
    firstError { idle with inLen := 30 } .envDecode = .malformedEnvelope ∧
    firstError idle (.envEncode 1) = .invalidKeyMaterial ∧
    firstError { idle with inLen := 34 } (.envEncode 1) = .lengthError := by decide +kernel

/-- A failing command of each class, and a composite one under each value of HARDEN. -/
theorem witness_FailingCommandsMakeOnlyTheErrorWrites : ∀ i ∈ [Instr.expandKey, .encryptBlock, .ctr .none, .sizeForPt,
    .gcmEncrypt, .envEncode 1], i.wf idle.params.krSlots = true ∧
    answers (exec i idle) (fun t => decide (t.status.err ≠ .ok)) = true ∧
    answers (exec i (soft idle)) (fun t => decide (t.status.err ≠ .ok)) = true := by decide +kernel

theorem witness_HardenClearsTheScheduleOfCompositeCommandsOnly :
    answers (exec .gcmEncrypt keyed) (fun t => keyed.ctrl.harden && decide (t.schedInfo = none)) = true ∧
    answers (exec .gcmEncrypt (soft keyed)) (fun t => decide (t.status.err = .ok ∧ t.schedInfo = some .aes128)) = true ∧
    answers (exec .nop keyed) (fun _ => !isComposite .nop) = true := by decide +kernel

theorem witness_CtCmpHasNoEffect : answers (exec .gcmDecrypt gcmCase2Back) (fun _ => true) = true := by decide +kernel

theorem witness_CommandsNeverWriteTheirInputs :
    answers (exec .gcmEncrypt gcmCase2) (fun _ => true) = true ∧ Instr.gcmEncrypt ≠ .zeroize := by decide +kernel

/-- GCM_DECRYPT: two states that differ in the tag and in IN, and both fail. -/
theorem witness_AuthenticationFailureIsUniform : ∃ s s' : State, s' = { s with b := s'.b, mem := s'.mem } ∧ s' ≠ s ∧
    (∀ x, (0x600 ≤ x ∧ x < 0x6F0) ∨ (0x3000 ≤ x ∧ x < 0x4000) → s'.mem.readByte x = s.mem.readByte x) ∧
    answers (exec .gcmDecrypt s) (fun t => decide (t.status.err = .authenticationFailure)) = true ∧
    answers (exec .gcmDecrypt s') (fun t => decide (t.status.err = .authenticationFailure)) = true := by
  refine ⟨gcmCase2, { gcmCase2 with b := 1, mem := [(0x2000, 7)] }, rfl, by decide +kernel, ?_, by decide +kernel,
    by decide +kernel⟩
  intro x hx
  have h : gcmCase2.mem = [] := by decide +kernel
  rw [h]
  simp only [Memory.readByte]
  rw [if_neg (by omega)]

/-- ENV_DECODE: two envelopes of different lengths that both fail, found in the same slot, under both values of HARDEN. -/
theorem witness_AuthenticationFailureIsUniform_envelope : ∀ f ∈ [id, soft],
    let s : State := f (loadIn ringed (helloEnvelope.take 31))
    let s' : State := f (loadIn ringed (helloEnvelope.take 32))
    s' = { s with mem := s'.mem, inLen := s'.inLen } ∧ s' ≠ s ∧
    (∀ c ∈ s.mem ++ s'.mem, 0x2000 ≤ c.1 ∧ c.1 < 0x3000) ∧
    lookupSlot s'.ring (tagOfBytes ((s'.memRead .input 0 s'.inLen.toNat).take 3)) =
      lookupSlot s.ring (tagOfBytes ((s.memRead .input 0 s.inLen.toNat).take 3)) ∧
    answers (exec .envDecode s) (fun t => decide (t.status.err = .authenticationFailure)) = true ∧
    answers (exec .envDecode s') (fun t => decide (t.status.err = .authenticationFailure)) = true := by decide +kernel

/-- Both sides of the reduction of `xtime`, and the ends of the two ranges of powers. -/
theorem witness_FieldLaws : (127#8).toNat < 128 ∧ 128 ≤ (128#8).toNat ∧ 7 < 8 ∧ 127 < 128 ∧ 0 < 128 := by decide

theorem witness_RoundTransformByteFormulas : 3 < 4 ∧ 0 < 4 := by decide

/-- A word of each of the three rules of R186 for a 256-bit key: 8 (a), 12 (b), 59 (c, the last). -/
theorem witness_KeyScheduleRecurrence : (zeros 32).length = KeySize.aes256.keyBytes ∧
    ∀ i ∈ [8, 12, 59], KeySize.aes256.nk ≤ i ∧ i < 4 * (KeySize.aes256.nr + 1) := by decide

theorem witness_EncryptBlockIsTheStandardCipher : ∀ k ∈ [KeySize.aes128, .aes192, .aes256],
    (zeros (16 * (k.nr + 1))).length = 16 * (k.nr + 1) ∧ k.nr ≤ k.nr ∧ 15 < 16 := by decide +kernel

theorem witness_CtrOutputBytesAndNextCounter : 1 = (if CounterPolicy.preIncrement = .preIncrement then 1 else 0) ∧
    0 = (if CounterPolicy.none = .preIncrement then 1 else 0) := by decide

/-- Data of one byte, a full and a partial block, the last byte of a length; and the lengths of the affine law. -/
theorem witness_GhashIsAffine : zeros 1 ≠ [] ∧ (zeros 16).length ≤ 16 ∧ (zeros 1).length ≤ 16 ∧ 15 < 16 ∧ 7 < 8 ∧
    (zeros 17).length = (beBytes 17 1).length ∧ (zeros 0).length = ([] : List Byte).length := by
  decide

theorem witness_GcmRoundTripAndTagCheck :
    (0 : Block) ≠ (gcmEncrypt { size := .aes128, bytes := zeros 16 } (zeros 12) (zeros 16) []).2 := by decide +kernel

/-- H of the zero key (L1-6) is not zero. -/
theorem witness_OneFlippedBitIsDetected : 7 < 8 ∧
    hashKey (expandKey { size := .aes128, bytes := zeros 16 }) = 0x66e94bd4ef8a2c3b884cfa59ca342b2e ∧
    hashKey (expandKey { size := .aes128, bytes := zeros 16 }) ≠ 0 ∧ 15 < (zeros 16).length := by decide +kernel

theorem witness_GcmEncryptThenDecryptGivesThePlaintext : gcmCase2.params.legal ∧
    answers (exec .gcmEncrypt gcmCase2) (fun t => decide (t.status.err = .ok)) = true := by decide +kernel

theorem witness_EnvelopeEncodeThenDecodeGivesThePlaintext :
    let s : State := loadIn ringed (beBytes 5 0x68656c6c6f)
    s.params.legal ∧ s.ring.length = s.params.krSlots ∧ (1 : Fin 16).val < s.params.krSlots ∧
    answers (exec (.envEncode 1) s) (fun t => decide (t.status.err = .ok)) = true ∧
    ∀ m < 1, (s.slot m).cfg.valid = true → (s.slot m).tag ≠ (s.slot 1).tag := by decide +kernel

end Sys2Proof.Tests
end

section
/-! The byte arrays under legal parameters: no two share a byte (R52, R53), a word of an array lies inside it, a bus word is its
four lanes (R100); and the statement about buffer words. -/

namespace Sys2Proof.Machine

/-! ### Bus words -/

/-- The lanes of the word that holds four bytes are those bytes (R100). -/
theorem laneByte_wordOfLanes (x0 x1 x2 x3 : Byte) {k : Nat} (hk : k < 4) :
    laneByte (wordOfLanes x0 x1 x2 x3) k = [x0, x1, x2, x3].getD k 0 := by
  apply BitVec.eq_of_getLsbD_eq
  intro i hi
  simp only [laneByte, wordOfLanes, BitVec.getLsbD_extractLsb', BitVec.getLsbD_append, hi, decide_true, Bool.true_and]
  interval_cases k
  · simp [hi]
  · simp [hi]
  · rw [if_neg (by omega), if_neg (by omega), if_pos (by omega)]; congr 1; omega
  · rw [if_neg (by omega), if_neg (by omega), if_neg (by omega)]; congr 1; omega

/-- Byte k of word n of a byte array is the byte at offset 4n + k (R100). -/
theorem laneByte_bufWord (s : State) (x : Buf) (n : Nat) {k : Nat} (hk : k < 4) :
    laneByte (s.bufWord x n) k = s.mem.readByte (x.base + 4 * n + k) := by
  rw [State.bufWord, laneByte_wordOfLanes _ _ _ _ hk]
  interval_cases k <;> rfl

theorem getD_lanes (w : Word) {k : Nat} (hk : k < 4) : (lanes w).getD k 0 = laneByte w k := by
  interval_cases k <;> rfl

/-! ### Where the arrays stand -/

/-- Under legal parameters no two byte arrays share a byte (R52, R53). -/
theorem arrays_disjoint {p : Params} (hp : p.legal) {x y : Buf} (h : y ≠ x) :
    x.base + x.size p ≤ y.base ∨ y.base + y.size p ≤ x.base := by
  obtain ⟨-, -, hbuf, -⟩ := hp
  cases x <;> cases y <;> simp [Buf.base, Buf.size] at h ⊢ <;> omega

/-- Every array has a whole number of words, so a word that begins inside it ends inside it (R100). -/
theorem word_fits {p : Params} (hp : p.legal) {x : Buf} {n : Nat} (h : 4 * n < x.size p) : 4 * n + 4 ≤ x.size p := by
  obtain ⟨hmod, -⟩ := hp
  cases x <;> simp only [Buf.size] at h ⊢ <;> omega

/-- A word of an array that the register map knows begins inside the array (R60). -/
theorem lt_size_of_offsetOf {p : Params} {x : Buf} {n off : Nat} (h : offsetOf p (.buf x n) = some off) :
    4 * n < x.size p := by
  cases x <;> simp [offsetOf, Buf.size] at h ⊢ <;> omega

/-- A write inside one array leaves every read inside another one as it was (R11, R52). -/
theorem memRead_memWrite_other {s : State} (hp : s.params.legal) {x y : Buf} (hxy : y ≠ x) {off off' n : Nat}
    {bs : List Byte} (hw : off + bs.length ≤ x.size s.params) (hr : off' + n ≤ y.size s.params) :
    (s.memWrite x off bs).memRead y off' n = s.memRead y off' n := by
  have := arrays_disjoint hp hxy
  exact memRead_memWrite_disjoint s (by omega)

/-! ### A host write to a word of an array -/

/-- AAD, IN and NONCE take the word's bytes in lane order (R100). -/
theorem writeBufWord_writable (s : State) {x : Buf} (hx : x = .aad ∨ x = .input ∨ x = .nonce) (n : Nat) (w : Word) :
    s.writeBufWord x n w = s.memWrite x (4 * n) (lanes w) := by
  rcases hx with rfl | rfl | rfl <;> rfl

/-- A host write to a word of an array writes its lanes there or leaves the arrays as they were (R59, R105). -/
theorem hostWrite_buf_cases (s : State) (x : Buf) (n : Nat) (w : Word) :
    s.hostWrite w (.buf x n) = s.memWrite x (4 * n) (lanes w) ∨ (s.hostWrite w (.buf x n)).mem = s.mem := by
  unfold State.hostWrite
  split
  · exact .inr rfl
  · cases x with
    | output | sched => exact .inr rfl
    | aad | input | nonce => exact .inl rfl

theorem hostWrite_buf_idle {s : State} (hb : s.busy = false) {x : Buf} (hx : x = .aad ∨ x = .input ∨ x = .nonce)
    (n : Nat) (w : Word) : s.hostWrite w (.buf x n) = s.memWrite x (4 * n) (lanes w) := by
  simp only [State.hostWrite, hb, Bool.false_and]
  exact writeBufWord_writable s hx n w

theorem hostRead_idle {s : State} (hb : s.busy = false) (t : Target) : s.hostRead t = s.readTarget t := by
  simp [State.hostRead, hb]

/-- The bytes of a word just written are its lanes. -/
theorem readByte_memWrite_lanes (s : State) (x : Buf) (off : Nat) (w : Word) {k : Nat} (hk : k < 4) :
    (s.memWrite x off (lanes w)).mem.readByte (x.base + off + k) = laneByte w k := by
  rw [readByte_memWrite, length_lanes, if_pos (by omega), Nat.add_sub_cancel_left, getD_lanes w hk]

/-- A word just written reads back (R100). -/
theorem bufWord_memWrite_lanes (s : State) (x : Buf) (n : Nat) (w : Word) :
    (s.memWrite x (4 * n) (lanes w)).bufWord x n = w := by
  have h := fun k (hk : k < 4) => readByte_memWrite_lanes s x (4 * n) w hk
  rw [State.bufWord, h 1 (by decide), h 2 (by decide), h 3 (by decide)]
  exact (congrArg (wordOfLanes · _ _ _) (h 0 (by decide))).trans (wordOfLanes_lanes w)

/-- Settles O18, from the lanes of a word, the disjointness of the arrays and what a byte reads as after a `MemWrite`. -/
theorem bufferWordReadsBackInLaneOrder : Obligations.BufferWordReadsBackInLaneOrder := by
  refine ⟨fun s x n k hb hk => ?_, fun s x off n => ⟨length_memRead s x off n, fun j hj => getD_readBytes _ _ hj⟩,
    fun s x y n w hp hn hxy => ?_, fun s x n w hb hx => ?_⟩
  · rw [hostRead_idle hb]
    exact laneByte_bufWord s x n hk
  · rcases hostWrite_buf_cases s x n w with h | h
    · rw [h]
      exact memRead_memWrite_other hp hxy (word_fits hp hn) (by omega)
    · exact memRead_congr fun i _ => by rw [h]
  · refine ⟨_, hostWrite_buf_idle hb hx n w, rfl, ?_, fun k hk => readByte_memWrite_lanes s x _ w hk, fun a ha => ?_⟩
    · rw [hostRead_idle (s := s.memWrite x (4 * n) (lanes w)) hb]
      exact bufWord_memWrite_lanes s x n w
    · rw [readByte_memWrite, length_lanes, if_neg ha]

end Sys2Proof.Machine
end

section
/-! The invariant: it holds at reset, and each named operation of the model keeps it, hence a host access, a command and a
step do. -/

namespace Sys2Proof.Machine

/-! ### What a step can do -/

/-- What the engine's step can answer (R321, R322, R365): an idle core stays, an illegal word completes as one, a command
runs. -/
theorem engineStep_cases {s t : State} (h : engineStep s = .next t) :
    (s.seq = .idle ∧ t = s) ∨ ∃ w, s.seq = .running w ∧
      ((∃ r, decode s.params.krSlots w = .error r ∧ t = s.illegal) ∨
        ∃ i, decode s.params.krSlots w = .ok i ∧ exec i s = .next t) := by
  unfold engineStep at h
  split at h
  · rename_i hs; cases h; exact .inl ⟨hs, rfl⟩
  · rename_i w hs
    split at h
    · rename_i r hd; cases h; exact .inr ⟨w, hs, .inl ⟨r, hd, rfl⟩⟩
    · rename_i i hd; exact .inr ⟨w, hs, .inr ⟨i, hd, h⟩⟩

/-- What a step can answer (R107, R322, R382): the engine's step, with or without its event, a bus event or a reset. -/
theorem step_cases {s t : State} (h : step s = .next t) :
    (s.schedule = [] ∧ engineStep s = .next t) ∨ ∃ rest,
      (s.schedule = .engine :: rest ∧ engineStep { s with schedule := rest } = .next t) ∨
      (∃ x, s.schedule = .bus x :: rest ∧ t = { s with schedule := rest }.busEvent x) ∨
      (s.schedule = .reset :: rest ∧ t = { s with schedule := rest }.resetPulse) := by
  unfold step at h
  split at h
  · rename_i hs; exact .inl ⟨hs, h⟩
  · rename_i rest hs; exact .inr ⟨rest, .inl ⟨hs, h⟩⟩
  · rename_i x rest hs; cases h; exact .inr ⟨rest, .inr (.inl ⟨x, hs, rfl⟩)⟩
  · rename_i rest hs; cases h; exact .inr ⟨rest, .inr (.inr ⟨hs, rfl⟩)⟩

/-! ### The parts of the invariant that speak of memory -/

/-- A write inside an array lists no byte outside the arrays. -/
theorem inArrays_writeBytes {p : Params} {m : Memory} (h : m.inArrays p) (x : Buf) {off : Nat} {bs : List Byte}
    (hfit : off + bs.length ≤ x.size p) : (m.writeBytes (x.base + off) bs).inArrays p := by
  intro c hc
  rcases mem_writeBytes hc with hold | hnew
  · exact h c hold
  · exact ⟨x, by omega⟩

/-- ZEROIZE lists no byte outside the arrays: it writes each array at its own size (R325). -/
theorem inArrays_clearedArrays {p : Params} {m : Memory} (h : m.inArrays p) : (clearedArrays p m).inArrays p :=
  List.foldlRecOn _ _ h fun _ hm x _ => inArrays_writeBytes hm x (off := 0) (by simp)

/-- SCHED reads zero after ZEROIZE (R325). -/
theorem memRead_sched_zeroizeAll (s : State) : s.zeroizeAll.memRead .sched 0 240 = zeros 240 :=
  readBytes_writeBytes_same _ _ (zeros 240)

/-- SCHED_INFO stays truthful where neither it nor SCHED changes. -/
theorem schedTruthful_congr {s u : State} (h : s.schedTruthful) (hinfo : u.schedInfo = s.schedInfo)
    (hread : u.memRead .sched 0 240 = s.memRead .sched 0 240) : u.schedTruthful := by
  unfold State.schedTruthful
  rw [hinfo, hread]
  exact h

/-- A sequencer that runs nothing agrees with CMD and STATUS. -/
theorem runningMatchesCmd_of_idle {s : State} (h : s.seq = .idle) : s.runningMatchesCmd := fun w hw => by
  rw [h] at hw; cases hw

/-! ### The invariant at reset -/

theorem inv_resetWith {p : Params} (hp : p.legal) : (State.resetWith p).Inv where
  legal := hp
  ringLength := List.length_replicate
  memCanonical := resetWith_memWf p
  memInArrays := fun _ hc => absurd hc List.not_mem_nil
  outLenFits := Nat.zero_le _
  sched := by simp [State.schedTruthful, State.resetWith, State.memRead, Memory.readBytes, zeros]
  running := runningMatchesCmd_of_idle rfl

/-- Settles O25: nothing is listed, nothing runs, and the ring is KR_SLOTS absent slots. -/
theorem invariantHoldsAtReset : Obligations.InvariantHoldsAtReset := fun _ hp => inv_resetWith hp

/-! ### The named operations keep the invariant -/

namespace State.Inv

variable {s : State}

theorem memWrite (h : s.Inv) {x : Buf} (hx : x ≠ .sched) {off : Nat} {bs : List Byte}
    (hfit : off + bs.length ≤ x.size s.params) : (s.memWrite x off bs).Inv :=
  { h with
    memCanonical := wf_writeBytes h.memCanonical _ _
    memInArrays := inArrays_writeBytes h.memInArrays x hfit
    sched := schedTruthful_congr h.sched rfl (memRead_memWrite_other h.legal hx.symm hfit (Nat.le_refl 240)) }

theorem memWrite_sched (h : s.Inv) {info : Option KeySize} {bs : List Byte} (hlen : bs.length = 240)
    (htrue : { s.memWrite .sched 0 bs with schedInfo := info }.schedTruthful) :
    { s.memWrite .sched 0 bs with schedInfo := info }.Inv :=
  { h with
    memCanonical := wf_writeBytes h.memCanonical _ _
    memInArrays := inArrays_writeBytes h.memInArrays .sched (by rw [hlen]; exact Nat.le_refl 240)
    sched := htrue }

theorem storeSchedule (h : s.Inv) {key : Key} (hkey : key.bytes.length = key.size.keyBytes) :
    (s.storeSchedule key.size (expandKey key)).Inv := by
  have hlen := schedBytes_le key.size
  refine memWrite_sched h ?_ ⟨key, rfl, hkey, memRead_storeSchedule s key⟩
  simp only [List.length_append, length_expandKey, length_zeros]
  omega

theorem hardenZeroize (h : s.Inv) : s.hardenZeroize.Inv :=
  memWrite_sched h (length_zeros 240) (memRead_hardenZeroize s)

theorem setR (h : s.Inv) (v : Block) : (s.setR v).Inv := { h with }

theorem setResult (h : s.Inv) (v : Word) : (s.setResult v).Inv := { h with }

theorem writeOut (h : s.Inv) {bs : List Byte} (hfit : bs.length ≤ s.params.bufBytes) : (s.writeOut bs).Inv :=
  { memWrite h (x := .output) (off := 0) (bs := bs) (by decide) (by simpa [Buf.size] using hfit) with
    outLenFits := Nat.le_trans (by simpa [State.writeOut] using Nat.mod_le _ _) hfit }

theorem onError (h : s.Inv) (i : Instr) : (s.onError i).Inv := by
  unfold State.onError
  split
  · exact h
  · exact { h with }
  · exact { h with outLenFits := Nat.zero_le _ }
  · exact { h with }

theorem advanceRng (h : s.Inv) : s.advanceRng.Inv := by
  unfold State.advanceRng
  split <;> exact { h with }

theorem zeroizeAll (h : s.Inv) : s.zeroizeAll.Inv :=
  { h with
    ringLength := by simpa using h.ringLength
    memCanonical := (Wrote.zeroize (i := .zeroize) rfl).memWf h.memCanonical
    memInArrays := inArrays_clearedArrays h.memInArrays
    outLenFits := Nat.zero_le _
    sched := memRead_sched_zeroizeAll s }

theorem complete (h : s.Inv) (e : ErrCode) : (s.complete e).Inv := { h with running := runningMatchesCmd_of_idle rfl }

theorem finish (h : s.Inv) (i : Instr) (e : ErrCode) : (s.finish i e).Inv := by
  unfold State.finish
  split
  · exact h.hardenZeroize.complete e
  · exact h.complete e

theorem accept (h : s.Inv) (w : Word) : (s.accept w).Inv :=
  { h with running := fun _ hw => by cases hw; exact ⟨rfl, rfl, rfl⟩ }

theorem writeStatus (h : s.Inv) (w : Word) : (s.writeStatus w).Inv :=
  { h with
    running := fun v hv => by
      obtain ⟨hcmd, hdone, herr⟩ := h.running v hv
      exact ⟨hcmd, by simp [hdone], herr⟩ }

theorem dropWrite (h : s.Inv) : s.dropWrite.Inv := { h with }

theorem updateSlot (h : s.Inv) (n : Nat) (f : Slot → Slot) : (s.updateSlot n f).Inv :=
  { h with ringLength := (List.length_modify ..).trans h.ringLength }

theorem resetPulse (h : s.Inv) : s.resetPulse.Inv := { inv_resetWith h.legal with }

theorem withSchedule (h : s.Inv) (events : List Event) : { s with schedule := events }.Inv := { h with }

theorem withResponse (h : s.Inv) (x : Option BusResult) : { s with response := x }.Inv := { h with }

/-! ### Commands -/

/-- Every set of writes of a command keeps the invariant: a schedule it stores is that of a key of its size, and what it
puts into OUT fits there. -/
theorem wrote (h : s.Inv) {u : State} {i : Instr} {e : ErrCode} (hw : Wrote s i u e) : u.Inv := by
  cases hw with
  | nothing _ => exact h
  | block v _ => exact h.setR v
  | size v _ => exact h.setResult v
  | zeroize _ => exact h.zeroizeAll
  | error _ _ _ => exact h.onError i
  | schedule key _ hkey => exact h.storeSchedule hkey
  | stream bs v _ _ hfit => exact (h.writeOut hfit).setR v
  | tagMismatch key _ hkey => exact (h.storeSchedule hkey).onError i
  | composite key bs v _ hkey hfit => exact ((h.storeSchedule hkey).writeOut hfit).setR v
  | encode key bs v _ hkey hfit =>
    obtain ⟨-, hmin, -⟩ := h.legal
    refine ((h.storeSchedule hkey).advanceRng.writeOut ?_).setR v
    rw [advanceRng_params]
    exact hfit.trans (max_le (Nat.le_trans (by decide) hmin) (Nat.le_refl _))

theorem exec (h : s.Inv) {i : Instr} {t : State} (ht : exec i s = .next t) : t.Inv := by
  rcases exec_cases ht with ⟨u, e, hw, rfl⟩ | ⟨rfl, -⟩
  · exact (h.wrote hw).finish i e
  · exact h.complete .illegalCommand

theorem engineStep (h : s.Inv) {t : State} (ht : engineStep s = .next t) : t.Inv := by
  rcases engineStep_cases ht with ⟨-, rfl⟩ | ⟨w, -, ⟨r, -, rfl⟩ | ⟨i, -, hexec⟩⟩
  · exact h
  · exact h.complete .illegalCommand
  · exact h.exec hexec

/-! ### Host accesses -/

/-- A host write to a word of an array keeps the invariant: the word lies inside the array, and SCHED is read-only. -/
theorem writeBufWord (h : s.Inv) {x : Buf} {n : Nat} (hn : 4 * n < x.size s.params) (w : Word) :
    (s.writeBufWord x n w).Inv := by
  have hfit : 4 * n + (lanes w).length ≤ x.size s.params := word_fits h.legal hn
  cases x with
  | output | sched => exact h
  | aad | input | nonce => exact h.memWrite (by decide) hfit

theorem writeTarget (h : s.Inv) {t : Target} {off : Nat} (ht : offsetOf s.params t = some off) (w : Word) :
    (s.writeTarget w t).Inv := by
  cases t with
  | cmd => exact h.accept w
  | status => exact h.writeStatus w
  | krTag n | krCfg n | krKey n k => exact h.updateSlot n _
  | buf x n => exact h.writeBufWord (lt_size_of_offsetOf ht) w
  | _ => exact { h with }

theorem busEvent (h : s.Inv) (x : Access) : (s.busEvent x).Inv := by
  rcases busEvent_cases s x with hx | ⟨off, -, -, hx⟩
  · rw [hx]; exact h
  · rw [hx]
    rcases hostAccess_cases s off x.width x.op with
      ⟨-, ha⟩ | ⟨t, -, -, -, ht, ⟨-, ha⟩ | ⟨w, -, ⟨-, -, ha⟩ | ⟨-, ha⟩⟩⟩
    · rw [ha]; exact h.withResponse _
    · rw [ha]; exact h.withResponse _
    · rw [ha]; exact h.dropWrite.withResponse _
    · rw [ha]; exact (h.writeTarget ht w).withResponse _

end State.Inv

/-- Settles O26: a step is the engine's step, a bus event or a reset, and each of them keeps the invariant. -/
theorem everyStepKeepsTheInvariant : Obligations.EveryStepKeepsTheInvariant := by
  intro s t h ht
  rcases step_cases ht with ⟨-, he⟩ | ⟨rest, ⟨-, he⟩ | ⟨x, -, rfl⟩ | ⟨-, rfl⟩⟩
  · exact h.engineStep he
  · exact (h.withSchedule rest).engineStep he
  · exact (h.withSchedule rest).busEvent x
  · exact (h.withSchedule rest).resetPulse

end Sys2Proof.Machine
end

section
/-! The register words made of fields: where each field stands, which bits are reserved, and what a written word leaves (R31
to R49, R54, R59); and the two statements about them. -/

namespace Sys2Proof.Machine

/-! ### Where the fields stand -/

/-- STATUS has BUSY, DONE and OVR at bits 0 to 2 and ERR at bits 7:4 (R37). -/
theorem statusWord_fields (s : State) :
    s.statusWord.getLsbD 0 = s.busy ∧ s.statusWord.getLsbD 1 = s.status.done ∧ s.statusWord.getLsbD 2 = s.status.ovr ∧
      s.statusWord.extractLsb' 4 4 = s.status.err.code := by
  simp (disch := decide) only [State.statusWord, BitVec.getLsbD_append, BitVec.extractLsb'_append_eq_of_le,
    BitVec.extractLsb'_append_eq_of_add_le]
  simp

/-- Bits 31:8 and 3 of STATUS are reserved (R37). -/
theorem statusWord_reserved (s : State) : s.statusWord.extractLsb' 8 24 = 0 ∧ s.statusWord.getLsbD 3 = false := by
  simp (disch := decide) only [State.statusWord, BitVec.getLsbD_append, BitVec.extractLsb'_append_eq_of_le]
  simp

/-- CTRL has IRQ_EN, HARDEN and CT_CMP at bits 0 to 2 (R32). -/
theorem ctrlWord_fields (c : Ctrl) :
    c.toWord.getLsbD 0 = c.irqEn ∧ c.toWord.getLsbD 1 = c.harden ∧ c.toWord.getLsbD 2 = c.ctCmp := by
  simp only [Ctrl.toWord, BitVec.getLsbD_append]
  simp

/-- Bits 31:3 of CTRL are reserved (R32). -/
theorem ctrlWord_reserved (c : Ctrl) : c.toWord.extractLsb' 3 29 = 0 := by
  simp (disch := decide) only [Ctrl.toWord, BitVec.extractLsb'_append_eq_of_le]
  simp

/-- Bits 30:2 of KEYCFG and KR_CFG are reserved (R42, R54). -/
theorem keyCfgWord_reserved (c : KeyCfg) : c.toWord.extractLsb' 2 29 = 0 := by
  simp (disch := decide) only [KeyCfg.toWord, BitVec.extractLsb'_append_eq_of_le,
    BitVec.extractLsb'_append_eq_of_add_le]
  simp

/-- Bits 31:24 of KR_TAG are reserved (R54). -/
theorem tagWord_reserved (tag : BitVec 24) : (tag.setWidth 32).extractLsb' 24 8 = 0 := by
  apply BitVec.eq_of_getLsbD_eq
  simp

/-- PARAMS has BUF_BYTES at bits 15:0, KR_SLOTS at 23:16 and NONCE_BUF_BYTES at 31:24 (R49). -/
theorem paramsWord_fields (p : Params) :
    (paramsWord p).extractLsb' 0 16 = BitVec.ofNat 16 p.bufBytes ∧
      (paramsWord p).extractLsb' 16 8 = BitVec.ofNat 8 p.krSlots ∧ (paramsWord p).extractLsb' 24 8 = 64 := by
  simp (disch := decide) only [paramsWord, BitVec.extractLsb'_append_eq_of_le,
    BitVec.extractLsb'_append_eq_of_add_le]
  simp

/-- SCHED_INFO with a schedule has NR in bits 15:8 and VALID in bit 0 (R48). -/
theorem schedInfoWord_some (k : KeySize) : schedInfoWord (some k) = BitVec.ofNat 32 (1 + k.nr * 2 ^ 8) := by
  cases k <;> decide

/-- Bits 7:1 and 31:16 of SCHED_INFO are reserved (R48). -/
theorem schedInfoWord_reserved (x : Option KeySize) :
    (schedInfoWord x).extractLsb' 1 7 = 0 ∧ (schedInfoWord x).extractLsb' 16 16 = 0 := by
  cases x with
  | none => decide
  | some k => cases k <;> decide

/-! ### What a written word leaves -/

theorem ctrlWord_ofWord (w : Word) : (Ctrl.ofWord w).toWord = w &&& 0x00000007 := by
  apply BitVec.eq_of_getLsbD_eq
  intro i hi
  simp only [Ctrl.toWord, Ctrl.ofWord, BitVec.getLsbD_append]
  interval_cases i <;> simp

theorem keyCfgWord_ofWord (w : Word) : (KeyCfg.ofWord w).toWord = w &&& 0x80000003 := by
  apply BitVec.eq_of_getLsbD_eq
  intro i hi
  simp only [KeyCfg.toWord, KeyCfg.ofWord, BitVec.getLsbD_append]
  interval_cases i <;> simp

theorem tagWord_of_word (w : Word) : (w.extractLsb' 0 24).setWidth 32 = w &&& 0x00FFFFFF := by
  apply BitVec.eq_of_getLsbD_eq
  intro i hi
  interval_cases i <;> simp

/-- CTRL ignores its reserved bits (R59). -/
theorem ctrl_ofWord_masked (w : Word) : Ctrl.ofWord (w &&& 0x00000007) = Ctrl.ofWord w := by
  simp [Ctrl.ofWord]

/-- KEYCFG and KR_CFG ignore their reserved bits (R59). -/
theorem keyCfg_ofWord_masked (w : Word) : KeyCfg.ofWord (w &&& 0x80000003) = KeyCfg.ofWord w := by
  have hlen : (w &&& 0x80000003).extractLsb' 0 2 = w.extractLsb' 0 2 :=
    BitVec.extractLsb'_and.trans BitVec.and_allOnes
  simp only [KeyCfg.ofWord, hlen]
  simp

/-- KR_TAG ignores its reserved bits (R59). -/
theorem tag_masked (w : Word) : (w &&& 0x00FFFFFF).extractLsb' 0 24 = w.extractLsb' 0 24 :=
  BitVec.extractLsb'_and.trans BitVec.and_allOnes

/-! ### A change of one slot -/

theorem slot_updateSlot_same {s : State} {n : Nat} (hn : n < s.ring.length) (f : Slot → Slot) :
    (s.updateSlot n f).slot n = f (s.slot n) := by
  simp [State.slot, State.updateSlot, List.getD_eq_getElem?_getD, hn]

theorem slot_updateSlot_ne (s : State) {n m : Nat} (h : m ≠ n) (f : Slot → Slot) :
    (s.updateSlot n f).slot m = s.slot m := by
  simp [State.slot, State.updateSlot, List.getD_eq_getElem?_getD, h.symm]

/-- Settles O13, from where the fields of each word stand and what a written word leaves. -/
theorem registerFieldsStandWhereTheRulesPutThem : Obligations.RegisterFieldsStandWhereTheRulesPutThem := by
  intro s w n
  refine ⟨statusWord_fields s, rfl, ctrlWord_fields s.ctrl, rfl, rfl, ctrlWord_ofWord w, keyCfgWord_ofWord w,
    ⟨rfl, rfl, rfl, rfl⟩, ⟨rfl, rfl, rfl, rfl, rfl, rfl, rfl, rfl⟩, fun _ => paramsWord_fields s.params,
    fun hn => ⟨?_, ?_⟩, fun h => ?_, fun k h => ?_⟩
  · simp only [State.writeTarget, State.readTarget, slot_updateSlot_same hn]
    exact tagWord_of_word w
  · simp only [State.writeTarget, State.readTarget, slot_updateSlot_same hn]
    exact keyCfgWord_ofWord w
  · simp only [State.readTarget, h]; rfl
  · simp only [State.readTarget, h]; exact schedInfoWord_some k

/-! ### Host accesses of one target -/

/-- A performed host write of a mapped target (R105, R106). -/
theorem hostAccess_write_idle {s : State} {off : Nat} {t : Target} (hb : s.busy = false)
    (ht : accessTarget s.params off .bits32 = some t) (w : Word) :
    s.hostAccess off .bits32 (.write w) = { s.writeTarget w t with response := some .written } := by
  simp [State.hostAccess, ht, State.hostWrite, hb]

/-- A host read of a target that reads 0 answers 0, busy or not (R59, R105). -/
theorem hostAccess_read_zero {s : State} {off : Nat} {t : Target} (ht : accessTarget s.params off .bits32 = some t)
    (hz : s.readTarget t = 0) : s.hostAccess off .bits32 .read = { s with response := some (.value 0) } := by
  simp [State.hostAccess, ht, State.hostRead, hz]

/-- A host write to STATUS is performed in every state (R105). -/
theorem hostAccess_write_status (s : State) (w : Word) :
    s.hostAccess 0x00C .bits32 (.write w) = { s.writeStatus w with response := some .written } := by
  have ht : accessTarget s.params 0x00C .bits32 = some .status := rfl
  simp [State.hostAccess, ht, State.hostWrite, State.writeTarget]

/-- A host write to a read-only target changes nothing (R59). -/
theorem writeTarget_readOnly (s : State) (w : Word) {n : Nat} {t : Target}
    (h : t = .id ∨ t = .outLen ∨ t = .result ∨ t = .schedInfo ∨ t = .params ∨ t = .r n ∨ t = .buf .output n ∨
      t = .buf .sched n) : s.writeTarget w t = s := by
  rcases h with rfl | rfl | rfl | rfl | rfl | rfl | rfl | rfl <;> rfl

/-- The key registers read 0 (R59). -/
theorem readTarget_key (s : State) {n k : Nat} {t : Target} (h : t = .key n ∨ t = .krKey n k) : s.readTarget t = 0 := by
  rcases h with rfl | rfl <;> rfl

/-- Settles O17, from the reserved bits of each word and the access rules of each kind of target. -/
theorem reservedReadOnlyAndWriteOnlyRule : Obligations.ReservedReadOnlyAndWriteOnlyRule := by
  intro s w n k off
  obtain ⟨hstatus, hstatus3⟩ := statusWord_reserved s
  obtain ⟨hsched7, hsched16⟩ := schedInfoWord_reserved s.schedInfo
  refine ⟨fun t ht => ⟨writeTarget_readOnly s w ht, fun hb ha => ?_⟩, hostAccess_write_status s w,
    fun t ht => ⟨readTarget_key s ht, fun ha => hostAccess_read_zero ha (readTarget_key s ht)⟩,
    ⟨?_, ?_, ?_, ?_⟩, ctrlWord_reserved s.ctrl, hstatus, hstatus3, keyCfgWord_reserved s.keyCfg,
    keyCfgWord_reserved _, tagWord_reserved _, hsched7, hsched16⟩
  · rw [hostAccess_write_idle hb ha, writeTarget_readOnly s w ht]
  · simp only [State.writeTarget, ctrl_ofWord_masked]
  · simp only [State.writeTarget, keyCfg_ofWord_masked]
  · simp only [State.writeTarget, keyCfg_ofWord_masked]
  · simp only [State.writeTarget, tag_masked]

end Sys2Proof.Machine
end

section
/-! The Block registers, the key registers and the key-ring slots word by word (R50, R43, R54); and the statements about
them. -/

namespace Sys2Proof.Machine

theorem hostWrite_idle {s : State} (hb : s.busy = false) (w : Word) (t : Target) :
    s.hostWrite w t = s.writeTarget w t := by
  simp [State.hostWrite, hb]

theorem hostRead_eq_of_idle {s : State} (hb : s.busy = false) {t : Target} {v : Word} (h : s.readTarget t = v) :
    s.hostRead t = v := (hostRead_idle hb t).trans h

/-- Two idle states that hold the same in a target are read alike there. -/
theorem hostRead_congr_of_idle {s u : State} (hs : s.busy = false) (hu : u.busy = false) {t : Target}
    (h : u.readTarget t = s.readTarget t) : u.hostRead t = s.hostRead t :=
  hostRead_eq_of_idle hu (h.trans (hostRead_idle hs t).symm)

/-! ### Block registers -/

/-- Lane k of word n of a Block is its byte 4n + k (R50). -/
theorem laneByte_laneWord (x : Block) (n : Nat) {k : Nat} (hk : k < 4) :
    laneByte (laneWord x n) k = blockByte x (4 * n + k) := by
  rw [laneWord, laneByte_wordOfLanes _ _ _ _ hk]
  interval_cases k <;> rfl

theorem blockByte_setLaneWord (x : Block) (n : Nat) (w : Word) {j : Nat} (hj : j < 16) :
    blockByte (setLaneWord x n w) j = if j / 4 = n then laneByte w (j % 4) else blockByte x j :=
  blockByte_blockOfFn _ hj

/-- The bytes of the word just written are its lanes (R50). -/
theorem blockByte_setLaneWord_same (x : Block) {n k : Nat} (hn : n < 4) (hk : k < 4) (w : Word) :
    blockByte (setLaneWord x n w) (4 * n + k) = laneByte w k := by
  rw [blockByte_setLaneWord x n w (by omega), if_pos (by omega)]
  congr 1; omega

/-- Two words with the same lanes are equal (R100). -/
theorem word_ext {v w : Word} (h : ∀ k < 4, laneByte v k = laneByte w k) : v = w := by
  rw [← wordOfLanes_lanes v, ← wordOfLanes_lanes w, h 0 (by decide), h 1 (by decide), h 2 (by decide), h 3 (by decide)]

theorem laneWord_setLaneWord_same (x : Block) {n : Nat} (hn : n < 4) (w : Word) :
    laneWord (setLaneWord x n w) n = w :=
  word_ext fun k hk => by rw [laneByte_laneWord _ _ hk, blockByte_setLaneWord_same x hn hk]

theorem laneWord_setLaneWord_ne (x : Block) {n m : Nat} (hm : m < 4) (h : m ≠ n) (w : Word) :
    laneWord (setLaneWord x n w) m = laneWord x m :=
  word_ext fun k hk => by
    rw [laneByte_laneWord _ _ hk, laneByte_laneWord _ _ hk, blockByte_setLaneWord x n w (by omega), if_neg (by omega)]

/-- Lane k of word n of a Block is byte 4n + k of its 16 bytes (R10, R50). -/
theorem laneByte_laneWord_eq_getD (x : Block) {n k : Nat} (hn : n < 4) (hk : k < 4) :
    laneByte (laneWord x n) k = (bytesOfBlock x).getD (4 * n + k) 0 := by
  rw [laneByte_laneWord x n hk, blockByte_eq_getD x (by omega)]

theorem getD_bytesOfBlock_setLaneWord (x : Block) {n k : Nat} (hn : n < 4) (hk : k < 4) (w : Word) :
    (bytesOfBlock (setLaneWord x n w)).getD (4 * n + k) 0 = laneByte w k := by
  rw [← blockByte_eq_getD _ (by omega), blockByte_setLaneWord_same x hn hk]

/-- Settles O19, from the lanes of a Block's words before and after one of them is written. -/
theorem blockRegisterWordsAreInLaneOrder : Obligations.BlockRegisterWordsAreInLaneOrder := by
  refine ⟨fun x j hj => ⟨(blockByte_eq_getD x hj).symm, rfl⟩, blockOfBytes_bytesOfBlock,
    fun bs hbs => bytesOfBlock_blockOfBytes hbs, fun s n m w hb hn hm => ⟨?_, ?_, fun k hk => ?_⟩⟩
  · exact ⟨_, hostWrite_idle hb w _, rfl, hostRead_eq_of_idle (by exact hb) (laneWord_setLaneWord_same s.a hn w),
      fun hne => hostRead_congr_of_idle hb (by exact hb) (laneWord_setLaneWord_ne s.a hm hne w),
      fun k hk => getD_bytesOfBlock_setLaneWord s.a hn hk w⟩
  · exact ⟨_, hostWrite_idle hb w _, rfl, hostRead_eq_of_idle (by exact hb) (laneWord_setLaneWord_same s.b hn w),
      fun hne => hostRead_congr_of_idle hb (by exact hb) (laneWord_setLaneWord_ne s.b hm hne w),
      fun k hk => getD_bytesOfBlock_setLaneWord s.b hn hk w⟩
  · rw [hostRead_idle hb, hostRead_idle hb, hostRead_idle hb]
    exact ⟨laneByte_laneWord_eq_getD s.a hn hk, laneByte_laneWord_eq_getD s.b hn hk,
      laneByte_laneWord_eq_getD s.r hn hk⟩

/-! ### Key words -/

/-- Byte j of a list of words in lane order is lane j mod 4 of word j / 4 (R43). -/
theorem getD_flatMap_lanes (ws : List Word) (j : Nat) :
    (ws.flatMap lanes).getD j 0 = laneByte (ws.getD (j / 4) 0) (j % 4) := by
  induction ws generalizing j with
  | nil => simp [laneByte]
  | cons w ws ih =>
    rw [List.flatMap_cons]
    by_cases hj : j < 4
    · rw [List.getD_append _ _ _ _ (by simpa using hj), getD_lanes w hj, Nat.div_eq_of_lt hj, Nat.mod_eq_of_lt hj]
      rfl
    · obtain ⟨i, rfl⟩ := Nat.exists_eq_add_of_le (Nat.le_of_not_lt hj)
      rw [List.getD_append_right _ _ _ _ (by simp), length_lanes, Nat.add_sub_cancel_left, ih, Nat.add_mod_left,
        Nat.add_div_left i (by decide)]
      rfl

/-- The key bytes after word n is written: its four bytes are the word's lanes, the others stay (R43). -/
theorem getD_keyWordBytes_set (key : Vector Word 8) {n : Nat} (hn : n < 8) (w : Word) (j : Nat) :
    (keyWordBytes (key.setIfInBounds n w)).getD j 0 =
      if j / 4 = n then laneByte w (j % 4) else (keyWordBytes key).getD j 0 := by
  rw [keyWordBytes, keyWordBytes, getD_flatMap_lanes, getD_flatMap_lanes, Vector.toList_setIfInBounds]
  by_cases h : j / 4 = n
  · subst h; simp [List.getD_eq_getElem?_getD, hn]
  · simp [List.getD_eq_getElem?_getD, Ne.symm h, h]

/-- Settles O20, from the key bytes after a word is written. -/
theorem keyRegisterWordsAreInLaneOrder : Obligations.KeyRegisterWordsAreInLaneOrder := by
  intro s n w hb hn
  exact ⟨_, hostWrite_idle hb w _, rfl, hostRead_eq_of_idle (by exact hb) rfl,
    fun j _ => getD_keyWordBytes_set s.keyReg hn w j⟩

/-! ### Slots -/

/-- A change of one slot changes the ring only, and in it that slot only (R54). -/
theorem updateSlot_spec {s : State} {n : Nat} (hn : n < s.ring.length) (f : Slot → Slot) :
    s.updateSlot n f = { s with ring := (s.updateSlot n f).ring } ∧ (s.updateSlot n f).ring.length = s.ring.length ∧
      (s.updateSlot n f).slot n = f (s.slot n) ∧ ∀ m, m ≠ n → (s.updateSlot n f).slot m = s.slot m :=
  ⟨rfl, List.length_modify .., slot_updateSlot_same hn f, fun _ hm => slot_updateSlot_ne s hm f⟩

/-- Settles O21: each of the three writes changes one slot. -/
theorem slotRegistersHoldWhatTheHostWrites : Obligations.SlotRegistersHoldWhatTheHostWrites := by
  intro s n w hb hn
  refine ⟨⟨_, hostWrite_idle hb w _, updateSlot_spec hn _⟩, ⟨_, hostWrite_idle hb w _, updateSlot_spec hn _⟩,
    fun k hk => ?_⟩
  obtain ⟨hframe, hlen, hslot, hother⟩ := updateSlot_spec hn fun x => { x with key := x.key.setIfInBounds k w }
  refine ⟨_, hostWrite_idle hb w _, hframe, hlen, hother, ?_, fun j _ => ?_⟩
  · simp only [State.writeTarget, hslot]
  · simp only [State.writeTarget, hslot]
    exact getD_keyWordBytes_set (s.slot n).key hk w j

end Sys2Proof.Machine
end

section
/-! STATUS.OVR: what each kind of step does to it (R40); and the statement that it is sticky. -/

namespace Sys2Proof.Machine

/-- A performed host write keeps OVR, but for one to STATUS (R40). -/
theorem writeTarget_ovr (s : State) (w : Word) {t : Target} (ht : t ≠ .status) :
    (s.writeTarget w t).status.ovr = s.status.ovr := by
  cases t with
  | status => exact absurd rfl ht
  | buf x n => cases x <;> rfl
  | _ => rfl

/-- A host access that clears OVR writes 1 to bit 2 of STATUS (R40). -/
theorem hostAccess_clears_ovr {s : State} {off : Nat} {width : AccessWidth} {op : AccessOp}
    (hs : s.status.ovr = true) (ht : (s.hostAccess off width op).status.ovr = false) :
    width = .bits32 ∧ off = 0x00C ∧ ∃ w, op = .write w ∧ w.getLsbD 2 = true := by
  rcases hostAccess_cases s off width op with
    ⟨-, ha⟩ | ⟨t, -, hwidth, -, hoff, ⟨-, ha⟩ | ⟨w, hop, ⟨-, -, ha⟩ | ⟨-, ha⟩⟩⟩ <;> rw [ha] at ht
  · simp [hs] at ht
  · simp [hs] at ht
  · simp at ht
  · have hstatus : t = .status := by
      by_contra hne
      rw [writeTarget_ovr s w hne, hs] at ht
      cases ht
    subst hstatus
    cases hoff
    exact ⟨hwidth, rfl, w, hop, by simpa [State.writeTarget, hs] using ht⟩

/-- Every command leaves OVR as it was (R323). -/
theorem exec_ovr {s t : State} {i : Instr} (h : exec i s = .next t) : t.status.ovr = s.status.ovr := by
  rcases exec_cases h with ⟨u, e, hw, rfl⟩ | ⟨rfl, -⟩
  · obtain ⟨-, -, -, hstatus, -⟩ := hw.frame
    rw [finish_status, hstatus]
  · rfl

theorem engineStep_ovr {s t : State} (h : engineStep s = .next t) : t.status.ovr = s.status.ovr := by
  rcases engineStep_cases h with ⟨-, rfl⟩ | ⟨w, -, ⟨r, -, rfl⟩ | ⟨i, -, hexec⟩⟩
  · rfl
  · rfl
  · exact exec_ovr hexec

/-- Settles O22: of the steps, only a reset and a host access can clear OVR, and of the accesses only the W1C write. -/
theorem ovrIsSticky : Obligations.OvrIsSticky := by
  intro s t hstep hs ht
  rcases step_cases hstep with ⟨-, he⟩ | ⟨rest, ⟨-, he⟩ | ⟨x, hx, rfl⟩ | ⟨hr, -⟩⟩
  · rw [engineStep_ovr he, hs] at ht; cases ht
  · rw [engineStep_ovr he, hs] at ht; cases ht
  · right
    rcases busEvent_cases { s with schedule := rest } x with hkeep | ⟨off, haddr, -, hacc⟩
    · rw [hkeep, hs] at ht; cases ht
    · rw [hacc] at ht
      obtain ⟨hwidth, rfl, w, hop, hbit⟩ := hostAccess_clears_ovr (s := { s with schedule := rest }) hs ht
      exact ⟨x, rest, w, hx, hwidth, haddr, hop, hbit⟩
  · exact .inl ⟨rest, hr⟩

end Sys2Proof.Machine
end

section
/-! The key operand (R44, R295): when there is a key, which bytes it is, and what the commands that need one answer without
it. -/

namespace Sys2Proof.Machine

theorem ofKeylen_eq_none_iff (x : BitVec 2) : KeySize.ofKeylen x = none ↔ x = 3 := by
  revert x; decide

/-- KEYLEN 0, 1, 2 name keys of 16, 24, 32 bytes (R42). -/
theorem keyBytes_of_ofKeylen {x : BitVec 2} {k : KeySize} (h : KeySize.ofKeylen x = some k) :
    k.keyBytes = [16, 24, 32].getD x.toNat 0 := by
  revert x; cases k <;> decide

/-- There is no key exactly when VALID is 0 or KEYLEN is 3 (R44, R295). -/
theorem keyOf_eq_none_iff (cfg : KeyCfg) (words : Vector Word 8) :
    keyOf cfg words = none ↔ cfg.valid = false ∨ cfg.keylen = 3 := by
  rw [← ofKeylen_eq_none_iff]
  unfold keyOf
  split
  · rename_i hv
    split <;> simp [*]
  · rename_i hv
    simp [hv]

/-- A key has the size KEYLEN names and that many of the key bytes (R44, R295). -/
theorem keyOf_eq_some {cfg : KeyCfg} {words : Vector Word 8} {key : Key} (h : keyOf cfg words = some key) :
    KeySize.ofKeylen cfg.keylen = some key.size ∧ key.bytes = (keyWordBytes words).take key.size.keyBytes := by
  unfold keyOf at h
  split at h
  · split at h
    · rename_i k hk; cases h; exact ⟨hk, rfl⟩
    · cases h
  · cases h

/-- A key is the first 16, 24 or 32 key bytes, by KEYLEN (R44, R295). -/
theorem bytes_of_keyOf {cfg : KeyCfg} {words : Vector Word 8} {key : Key} (h : keyOf cfg words = some key) :
    key.bytes = (keyWordBytes words).take key.size.keyBytes ∧
      key.size.keyBytes = [16, 24, 32].getD cfg.keylen.toNat 0 ∧ key.bytes.length = key.size.keyBytes := by
  obtain ⟨hsize, hbytes⟩ := keyOf_eq_some h
  exact ⟨hbytes, keyBytes_of_ofKeylen hsize, length_of_keyOf h⟩

/-! ### The commands without their key -/

theorem exec_expandKey_of_no_key {s : State} (hkey : s.keyFromReg = none) :
    exec .expandKey s = .next (s.raise .expandKey .invalidKeyMaterial) := by
  simp only [exec, execExpandKey, hkey]

theorem exec_gcmEncrypt_of_no_key {s : State} (hlen : ¬(s.aadTooLong ∨ s.inTooLong ∨ s.nonceTooLong))
    (hkey : s.keyFromReg = none) : exec .gcmEncrypt s = .next (s.raise .gcmEncrypt .invalidKeyMaterial) := by
  simp only [exec, execGcmEncrypt, if_neg hlen, hkey]

theorem exec_gcmDecrypt_of_no_key {s : State} (hlen : ¬(s.aadTooLong ∨ s.inTooLong ∨ s.nonceTooLong))
    (hkey : s.keyFromReg = none) : exec .gcmDecrypt s = .next (s.raise .gcmDecrypt .invalidKeyMaterial) := by
  simp only [exec, execGcmDecrypt, if_neg hlen, hkey]

theorem exec_envEncode_of_no_key {s : State} {slot : Fin 16} (hslot : ¬s.params.krSlots ≤ slot.val)
    (hlen : ¬s.params.bufBytes - envOverhead < s.inLen.toNat) (hkey : (s.slot slot.val).keyOperand = none) :
    exec (.envEncode slot) s = .next (s.raise (.envEncode slot) .invalidKeyMaterial) := by
  simp only [exec, execEnvEncode, if_neg hslot, if_neg hlen, hkey]

theorem exec_envDecode_of_no_key {s : State} {x : Slot} (hlong : ¬s.inTooLong)
    (hshort : ¬s.inLen.toNat < envOverhead) (hslot : lookupSlot s.ring (envTag s.inBytes) = some x)
    (hkey : x.keyOperand = none) : exec .envDecode s = .next (s.raise .envDecode .invalidKeyMaterial) := by
  simp only [exec, execEnvDecode, if_neg hlong, if_neg hshort, hslot, hkey]

/-- A command that raises `e` completes with `e` (R323, R347). -/
theorem status_of_raise {s : State} {i : Instr} {e : ErrCode} (h : exec i s = .next (s.raise i e)) :
    ∃ t, exec i s = .next t ∧ t.status = Claim.doneStatus s e :=
  ⟨_, h, raise_status s i e⟩

/-- Settles O30, from when `keyOf` answers a key and from what each command answers without one. -/
theorem keyOperandOfKeyreg : Obligations.KeyOperandOfKeyreg := by
  refine ⟨fun s => ⟨keyOf_eq_none_iff _ _, fun _ => bytes_of_keyOf⟩,
    fun x => ⟨keyOf_eq_none_iff _ _, fun _ => bytes_of_keyOf⟩, fun s hkey => ⟨?_, fun haad hin hnonce => ?_⟩,
    fun s slot hslot hin hkey => ?_, fun s x hlong hshort hslot hkey => ?_⟩
  · exact status_of_raise (exec_expandKey_of_no_key hkey)
  · have hlen : ¬(s.aadTooLong ∨ s.inTooLong ∨ s.nonceTooLong) := by
      rintro (h | h | h)
      · exact Nat.not_lt.mpr haad h
      · exact Nat.not_lt.mpr hin h
      · exact Nat.not_lt.mpr hnonce h
    exact ⟨status_of_raise (exec_gcmEncrypt_of_no_key hlen hkey), status_of_raise (exec_gcmDecrypt_of_no_key hlen hkey)⟩
  · exact status_of_raise (exec_envEncode_of_no_key (Nat.not_le.mpr hslot) (Nat.not_lt.mpr hin) hkey)
  · exact status_of_raise (exec_envDecode_of_no_key (Nat.not_lt.mpr hlong) (Nat.not_lt.mpr hshort) hslot hkey)

end Sys2Proof.Machine
end

section
/-! What commands leave alone (R51, R52, R57, R136), what the hardening does (R34, R326), and that a command depends on CTRL
through HARDEN only, and only if it is composite (R33, R34); and the three statements about it. -/

namespace Sys2Proof.Machine

/-! ### The bytes outside SCHED and OUT -/

theorem readByte_storeSchedule (s : State) (key : Key) {x : Nat} (hx : ¬(0x600 ≤ x ∧ x < 0x6F0)) :
    (s.storeSchedule key.size (expandKey key)).mem.readByte x = s.mem.readByte x := by
  have := schedBytes_le key.size
  rw [storeSchedule_mem, readByte_writeBytes, if_neg]
  simp only [Buf.base, List.length_append, length_expandKey, length_zeros]
  omega

theorem readByte_writeOut (s : State) (bs : List Byte) {x : Nat} (hx : x < 0x3000) :
    (s.writeOut bs).mem.readByte x = s.mem.readByte x := by
  rw [writeOut_mem, readByte_writeBytes, if_neg]
  simp only [Buf.base]
  omega

theorem readByte_finish (s : State) (i : Instr) (e : ErrCode) {x : Nat} (hx : ¬(0x600 ≤ x ∧ x < 0x6F0)) :
    (s.finish i e).mem.readByte x = s.mem.readByte x := by
  unfold State.finish
  split
  · rw [complete_mem, hardenZeroize_mem, readByte_writeBytes, if_neg]
    simpa [Buf.base] using hx
  · rfl

namespace Wrote

variable {s u : State} {i : Instr} {e : ErrCode}

/-- No set of writes but ZEROIZE's touches a key, a slot or an operand register (R51, R57, R136). -/
theorem operands (h : Wrote s i u e) (hi : i ≠ .zeroize) :
    u.keyReg = s.keyReg ∧ u.keyCfg = s.keyCfg ∧ u.ring = s.ring ∧ u.a = s.a ∧ u.b = s.b ∧
      u.aadLen = s.aadLen ∧ u.inLen = s.inLen ∧ u.nonceLen = s.nonceLen ∧ u.sizeArg = s.sizeArg := by
  cases h with
  | zeroize hz => exact absurd hz hi
  | _ => simp

/-- No set of writes but ZEROIZE's touches a byte below OUT and outside SCHED (R52). -/
theorem readByte (h : Wrote s i u e) (hi : i ≠ .zeroize) {x : Nat} (hsched : ¬(0x600 ≤ x ∧ x < 0x6F0))
    (hout : x < 0x3000) : u.mem.readByte x = s.mem.readByte x := by
  cases h with
  | nothing _ => rfl
  | block v _ => rfl
  | size v _ => rfl
  | zeroize hz => exact absurd hz hi
  | error e _ _ => rw [onError_mem]
  | schedule key _ _ => exact readByte_storeSchedule s key hsched
  | stream bs v _ _ _ => exact readByte_writeOut s bs hout
  | tagMismatch key _ _ => rw [onError_mem]; exact readByte_storeSchedule s key hsched
  | composite key bs v _ _ _ => rw [setR_mem, readByte_writeOut _ bs hout, readByte_storeSchedule s key hsched]
  | encode key bs v _ _ _ =>
    rw [setR_mem, readByte_writeOut _ bs hout, advanceRng_mem, readByte_storeSchedule s key hsched]

end Wrote

/-- No command touches the parameters, CTRL or CMD (R36, R108). -/
theorem exec_control {s t : State} {i : Instr} (h : exec i s = .next t) :
    t.params = s.params ∧ t.ctrl = s.ctrl ∧ t.cmd = s.cmd := by
  rcases exec_cases h with ⟨u, e, hw, rfl⟩ | ⟨rfl, -⟩
  · obtain ⟨hparams, hctrl, hcmd, -⟩ := hw.frame
    simp [hparams, hctrl, hcmd]
  · exact ⟨rfl, rfl, rfl⟩

/-- Settles O45: a command's writes and its exit leave its inputs alone. -/
theorem commandsNeverWriteTheirInputs : Obligations.CommandsNeverWriteTheirInputs := by
  intro s t i h
  obtain ⟨hparams, hctrl, hcmd⟩ := exec_control h
  refine ⟨hparams, hctrl, hcmd, fun hi => ?_⟩
  rcases exec_cases h with ⟨u, e, hw, rfl⟩ | ⟨rfl, -⟩
  · simp only [finish_keyReg, finish_keyCfg, finish_ring, finish_a, finish_b, finish_aadLen, finish_inLen,
      finish_nonceLen, finish_sizeArg, hw.operands hi, true_and]
    intro x hx
    rw [readByte_finish u i e (by omega), hw.readByte hi (by omega) (by omega)]
  · exact ⟨rfl, rfl, rfl, rfl, rfl, rfl, rfl, rfl, rfl, fun _ _ => rfl⟩

/-! ### A state with another CTRL -/

/-- `s` with CTRL replaced, everything else kept. -/
def State.withCtrl (s : State) (c : Ctrl) : State := { s with ctrl := c }

section
variable (s : State) (c : Ctrl)

@[simp] theorem withCtrl_params : (s.withCtrl c).params = s.params := rfl
@[simp] theorem withCtrl_ctrl : (s.withCtrl c).ctrl = c := rfl
@[simp] theorem withCtrl_withCtrl (d : Ctrl) : (s.withCtrl c).withCtrl d = s.withCtrl d := rfl
@[simp] theorem withCtrl_inLen : (s.withCtrl c).inLen = s.inLen := rfl
@[simp] theorem withCtrl_aadLen : (s.withCtrl c).aadLen = s.aadLen := rfl
@[simp] theorem withCtrl_nonceLen : (s.withCtrl c).nonceLen = s.nonceLen := rfl
@[simp] theorem withCtrl_sizeArg : (s.withCtrl c).sizeArg = s.sizeArg := rfl
@[simp] theorem withCtrl_schedInfo : (s.withCtrl c).schedInfo = s.schedInfo := rfl
@[simp] theorem withCtrl_a : (s.withCtrl c).a = s.a := rfl
@[simp] theorem withCtrl_b : (s.withCtrl c).b = s.b := rfl
@[simp] theorem withCtrl_ring : (s.withCtrl c).ring = s.ring := rfl
@[simp] theorem withCtrl_keyFromReg : (s.withCtrl c).keyFromReg = s.keyFromReg := rfl
@[simp] theorem withCtrl_slot (n : Nat) : (s.withCtrl c).slot n = s.slot n := rfl
@[simp] theorem withCtrl_aadBytes : (s.withCtrl c).aadBytes = s.aadBytes := rfl
@[simp] theorem withCtrl_inBytes : (s.withCtrl c).inBytes = s.inBytes := rfl
@[simp] theorem withCtrl_nonceBytes : (s.withCtrl c).nonceBytes = s.nonceBytes := rfl
@[simp] theorem withCtrl_schedBytes (k : KeySize) : (s.withCtrl c).schedBytes k = s.schedBytes k := rfl
@[simp] theorem withCtrl_nextNonce : (s.withCtrl c).nextNonce = s.nextNonce := rfl

@[simp] theorem withCtrl_setR (v : Block) : (s.withCtrl c).setR v = (s.setR v).withCtrl c := rfl
@[simp] theorem withCtrl_setResult (v : Word) : (s.withCtrl c).setResult v = (s.setResult v).withCtrl c := rfl
@[simp] theorem withCtrl_writeOut (bs : List Byte) : (s.withCtrl c).writeOut bs = (s.writeOut bs).withCtrl c := rfl
@[simp] theorem withCtrl_storeSchedule (k : KeySize) (d : List Byte) :
    (s.withCtrl c).storeSchedule k d = (s.storeSchedule k d).withCtrl c := rfl
@[simp] theorem withCtrl_illegal : (s.withCtrl c).illegal = s.illegal.withCtrl c := rfl
@[simp] theorem withCtrl_zeroizeAll : (s.withCtrl c).zeroizeAll = s.zeroizeAll.withCtrl c := rfl
@[simp] theorem withCtrl_onError (i : Instr) : (s.withCtrl c).onError i = (s.onError i).withCtrl c := by
  unfold State.onError; split <;> rfl
@[simp] theorem withCtrl_advanceRng : (s.withCtrl c).advanceRng = s.advanceRng.withCtrl c := by
  unfold State.advanceRng
  rw [show (s.withCtrl c).rng = s.rng from rfl]
  split <;> rfl

end

/-- What a command answers, with CTRL replaced in it. -/
def answerWithCtrl (c : Ctrl) : Host.Outcome State Fault Refusal → Host.Outcome State Fault Refusal
  | .next t => .next (t.withCtrl c)
  | .fault r => .fault r
  | .refused r => .refused r

section
variable {s : State} {i : Instr} {c d : Ctrl}

/-- The exit depends on CTRL through HARDEN only, and in composite commands only (R326). -/
theorem withCtrl_finish (h : isComposite i = false ∨ c.harden = d.harden) (u : State) (e : ErrCode) :
    (u.withCtrl c).finish i e = ((u.withCtrl d).finish i e).withCtrl c := by
  have hcond : (isComposite i && c.harden) = (isComposite i && d.harden) := by
    rcases h with h | h <;> simp [h]
  unfold State.finish
  rw [withCtrl_ctrl, withCtrl_ctrl, hcond]
  split <;> rfl

theorem withCtrl_raise (h : isComposite i = false ∨ c.harden = d.harden) (u : State) (e : ErrCode) :
    (u.withCtrl c).raise i e = ((u.withCtrl d).raise i e).withCtrl c := by
  simp only [State.raise, withCtrl_onError]
  exact withCtrl_finish h _ e

/-- A command depends on CTRL through HARDEN only, and only if it is composite (R33, R34). -/
theorem exec_withCtrl (h : isComposite i = false ∨ c.harden = d.harden) (s : State) :
    exec i (s.withCtrl c) = answerWithCtrl c (exec i (s.withCtrl d)) := by
  have hfinish := withCtrl_finish h
  have hraise := withCtrl_raise h
  cases i with
  | nop => simp [exec, execNop, answerWithCtrl, hfinish]
  | zeroize => simp [exec, execZeroize, answerWithCtrl, hfinish]
  | gf8Xtime => simp [exec, execGf8Xtime, answerWithCtrl, hfinish]
  | gf8Mul => simp [exec, execGf8Mul, answerWithCtrl, hfinish]
  | gf128Halve => simp [exec, execGf128Halve, answerWithCtrl, hfinish]
  | gf128Mul => simp [exec, execGf128Mul, answerWithCtrl, hfinish]
  | expandKey => cases hkey : s.keyFromReg <;> simp [exec, execExpandKey, answerWithCtrl, hkey, hfinish, hraise]
  | encryptBlock => cases hinfo : s.schedInfo <;> simp [exec, execEncryptBlock, answerWithCtrl, hinfo, hfinish, hraise]
  | ctr pol =>
    by_cases hlen : s.inTooLong
    · simp [exec, execCtr, answerWithCtrl, hlen, hraise]
    · cases hinfo : s.schedInfo <;> simp [exec, execCtr, answerWithCtrl, hlen, hinfo, hfinish, hraise]
  | ghash =>
    by_cases hlen : s.aadTooLong ∨ s.inTooLong <;> simp [exec, execGhash, answerWithCtrl, hlen, hfinish, hraise]
  | gcmEncrypt =>
    by_cases hlen : s.aadTooLong ∨ s.inTooLong ∨ s.nonceTooLong
    · simp [exec, execGcmEncrypt, answerWithCtrl, hlen, hraise]
    · cases hkey : s.keyFromReg <;> simp [exec, execGcmEncrypt, answerWithCtrl, hlen, hkey, hfinish, hraise]
  | gcmDecrypt =>
    by_cases hlen : s.aadTooLong ∨ s.inTooLong ∨ s.nonceTooLong
    · simp [exec, execGcmDecrypt, answerWithCtrl, hlen, hraise]
    · cases hkey : s.keyFromReg with
      | none => simp [exec, execGcmDecrypt, answerWithCtrl, hlen, hkey, hraise]
      | some key =>
        cases hpt : gcmDecrypt key s.nonceBytes s.inBytes s.aadBytes s.b <;>
          simp [exec, execGcmDecrypt, answerWithCtrl, hlen, hkey, hpt, hfinish, hraise]
  | envEncode slot =>
    by_cases hslot : s.params.krSlots ≤ slot.val
    · simp [exec, execEnvEncode, answerWithCtrl, hslot]
    · by_cases hlen : s.params.bufBytes - envOverhead < s.inLen.toNat
      · simp [exec, execEnvEncode, answerWithCtrl, hslot, hlen, hraise]
      · cases hkey : (s.slot slot.val).keyOperand <;>
          simp [exec, execEnvEncode, answerWithCtrl, hslot, hlen, hkey, hfinish, hraise]
  | envDecode =>
    by_cases hlong : s.inTooLong
    · simp [exec, execEnvDecode, answerWithCtrl, hlong, hraise]
    · by_cases hshort : s.inLen.toNat < envOverhead
      · simp [exec, execEnvDecode, answerWithCtrl, hlong, hshort, hraise]
      · cases hslot : lookupSlot s.ring (envTag s.inBytes) with
        | none => simp [exec, execEnvDecode, answerWithCtrl, hlong, hshort, hslot, hraise]
        | some slot =>
          cases hkey : slot.keyOperand with
          | none => simp [exec, execEnvDecode, answerWithCtrl, hlong, hshort, hslot, hkey, hraise]
          | some key =>
            cases hpt : envOpen key s.inBytes <;>
              simp [exec, execEnvDecode, answerWithCtrl, hlong, hshort, hslot, hkey, hpt, hfinish, hraise]
  | sizeForCt =>
    by_cases hlen : 0xFFFFFFFF - envOverhead < s.sizeArg.toNat <;>
      simp [exec, execSizeForCt, answerWithCtrl, hlen, hfinish, hraise]
  | sizeForPt =>
    by_cases hlen : s.sizeArg.toNat < envOverhead <;>
      simp [exec, execSizeForPt, answerWithCtrl, hlen, hfinish, hraise]

/-- A command's next state under another CTRL with the same HARDEN, or for a command that is not composite. -/
theorem exec_withCtrl_next {t : State} (h : isComposite i = false ∨ c.harden = s.ctrl.harden)
    (hexec : exec i s = .next t) : exec i (s.withCtrl c) = .next (t.withCtrl c) := by
  rw [exec_withCtrl h s, show s.withCtrl s.ctrl = s from rfl, hexec]
  rfl

end

/-- Settles O44: CT_CMP leaves HARDEN as it is. -/
theorem ctCmpHasNoEffect : Obligations.CtCmpHasNoEffect := by
  intro s t i c h
  obtain ⟨-, hctrl, -⟩ := exec_control h
  rw [hctrl]
  exact exec_withCtrl_next (c := { s.ctrl with ctCmp := c }) (.inr rfl) h

/-! ### HARDEN -/

theorem isComposite_iff (i : Instr) : isComposite i = true ↔
    i = .gcmEncrypt ∨ i = .gcmDecrypt ∨ (∃ slot, i = .envEncode slot) ∨ i = .envDecode := by
  cases i <;> simp [isComposite]

/-- A composite command is of the OUT class (R327). -/
theorem cmdClass_of_composite {i : Instr} (h : isComposite i = true) : cmdClass i = .out := by
  rcases (isComposite_iff i).mp h with rfl | rfl | ⟨slot, rfl⟩ | rfl <;> rfl

/-- A composite command that succeeds has stored its schedule (R270, R271, R300, R301). -/
theorem Wrote.schedInfo_of_composite {s u : State} {i : Instr} (h : Wrote s i u .ok) (hi : isComposite i = true) :
    u.schedInfo ≠ none := by
  have hclass := cmdClass_of_composite hi
  cases h with
  | nothing hc => rw [hclass] at hc; cases hc
  | block v hc => rw [hclass] at hc; cases hc
  | size v hc => rw [hclass] at hc; cases hc
  | zeroize hz => subst hz; cases hi
  | error _ he _ => exact absurd rfl he
  | schedule key hk _ => subst hk; cases hi
  | stream bs v _ hn _ => rw [hi] at hn; cases hn
  | composite key bs v _ _ _ => simp
  | encode key bs v _ _ _ => simp

/-- Settles O43, from the exit of a composite command and from what HARDEN can change. -/
theorem hardenClearsTheScheduleOfCompositeCommandsOnly : Obligations.HardenClearsTheScheduleOfCompositeCommandsOnly := by
  refine ⟨isComposite_iff, fun s t i hwf h => ?_⟩
  obtain ⟨-, hctrl, -⟩ := exec_control h
  obtain ⟨u, e, hw, rfl⟩ : ∃ u e, Wrote s i u e ∧ t = u.finish i e := by
    rcases exec_cases h with hexit | ⟨-, hbad⟩
    · exact hexit
    · rw [hwf] at hbad; cases hbad
  obtain ⟨-, hu, -⟩ := hw.frame
  refine ⟨fun hi hh => ?_, fun hi hh herr => ?_, fun hi x => ?_⟩
  · rw [finish_hardened hi (by rw [hu, hh])]
    exact ⟨rfl, memRead_hardenZeroize u⟩
  · rw [finish_status] at herr
    subst herr
    rw [finish_plain (.inr (by rw [hu, hh]))]
    exact hw.schedInfo_of_composite hi
  · rw [hctrl]
    exact exec_withCtrl_next (c := { s.ctrl with harden := x }) (.inl hi) h

end Sys2Proof.Machine
end

section
/-! What one host access answers, case by case (R102 to R106): a bus error, a read, a write while a command runs; and the
statements about narrow and misaligned accesses, bus events, the busy-time rule and reads. -/

namespace Sys2Proof.Machine

/-! ### One host access -/

/-- A narrow or misaligned access reaches no target (R103). -/
theorem accessTarget_eq_none {off : Nat} {width : AccessWidth} (h : width ≠ .bits32 ∨ off % 4 ≠ 0) (p : Params) :
    accessTarget p off width = none := by
  cases width with
  | bits8 | bits16 => rfl
  | bits32 => exact if_neg (h.resolve_left fun hne => hne rfl)

/-- An access that reaches no target is a bus error without effect (R103, R104). -/
theorem hostAccess_busError {s : State} {off : Nat} {width : AccessWidth} (h : accessTarget s.params off width = none)
    (op : AccessOp) : s.hostAccess off width op = { s with response := some .busError } := by
  simp only [State.hostAccess, h]

/-- A host access is answered with a bus error exactly when it reaches no target (R103, R104). -/
theorem response_eq_busError_iff (s : State) (off : Nat) (width : AccessWidth) (op : AccessOp) :
    (s.hostAccess off width op).response = some .busError ↔ accessTarget s.params off width = none := by
  refine ⟨fun hresp => ?_, fun h => by rw [hostAccess_busError h]⟩
  rcases hostAccess_cases s off width op with
    ⟨hnone, -⟩ | ⟨t, -, -, -, -, ⟨-, ha⟩ | ⟨w, -, ⟨-, -, ha⟩ | ⟨-, ha⟩⟩⟩
  · exact hnone
  all_goals rw [ha] at hresp; cases hresp

/-- A read of a mapped target changes nothing but the response (R106). -/
theorem hostAccess_read {s : State} {off : Nat} {width : AccessWidth} {t : Target}
    (ht : accessTarget s.params off width = some t) :
    s.hostAccess off width .read = { s with response := some (.value (s.hostRead t)) } := by
  simp only [State.hostAccess, ht]

/-- The core's answer to the access before has no influence on a read. -/
theorem hostAccess_read_withResponse (s : State) (x : Option BusResult) (off : Nat) (width : AccessWidth) :
    ({ s with response := x } : State).hostAccess off width .read = s.hostAccess off width .read := by
  cases ht : accessTarget s.params off width with
  | none => rw [hostAccess_busError ht, hostAccess_busError (s := { s with response := x }) ht]
  | some t => rw [hostAccess_read ht, hostAccess_read (s := { s with response := x }) ht]; rfl

/-- While a command runs, a write to another target than STATUS only sets OVR (R105). -/
theorem hostAccess_write_busy {s : State} {off : Nat} {width : AccessWidth} {t : Target} (hb : s.busy = true)
    (ht : accessTarget s.params off width = some t) (hne : t ≠ .status) (w : Word) :
    s.hostAccess off width (.write w) = { s.dropWrite with response := some .written } := by
  simp [State.hostAccess, ht, State.hostWrite, hb, hne]

/-- STATUS is reached at its own offset only (R60). -/
theorem eq_statusOffset_of_accessTarget {p : Params} {off : Nat} {width : AccessWidth}
    (h : accessTarget p off width = some .status) : width = .bits32 ∧ off = 0x00C := by
  rcases hostAccess_cases (State.resetWith p) off width .read with ⟨hnone, -⟩ | ⟨t, ht, hwidth, -, hoff, -⟩
  · cases h.symm.trans hnone
  · cases h.symm.trans ht
    cases hoff
    exact ⟨hwidth, rfl⟩

/-- Settles O11: such an access reaches no target. -/
theorem narrowOrMisalignedAccessIsABusError : Obligations.NarrowOrMisalignedAccessIsABusError :=
  fun s _ _ op h => hostAccess_busError (accessTarget_eq_none h s.params) op

/-- Settles O15: a read changes nothing but the response, and the response has no influence on a read. -/
theorem readsHaveNoSideEffects : Obligations.ReadsHaveNoSideEffects := by
  intro s off width
  have hread : s.hostAccess off width .read = { s with response := (s.hostAccess off width .read).response } := by
    cases ht : accessTarget s.params off width with
    | none => rw [hostAccess_busError ht]
    | some t => rw [hostAccess_read ht]
  refine ⟨hread, ?_⟩
  calc (s.hostAccess off width .read).hostAccess off width .read
      = ({ s with response := (s.hostAccess off width .read).response } : State).hostAccess off width .read :=
        congrArg (State.hostAccess · off width .read) hread
    _ = s.hostAccess off width .read := hostAccess_read_withResponse s _ off width

/-! ### The window -/

/-- A bus address inside the window is its offset from BASE (R102). -/
theorem busOffset_base_add (p : Params) {off : Nat} (h : off < 0x4000) : busOffset p (p.base + off) = some off := by
  rw [busOffset, if_pos ⟨by omega, by omega⟩, Nat.add_sub_cancel_left]

/-- A bus address outside the window has no offset (R102). -/
theorem busOffset_outside {p : Params} {addr : Nat} (h : addr < p.base ∨ p.base + 0x4000 ≤ addr) :
    busOffset p addr = none := by
  rw [busOffset, if_neg (by omega)]

/-- A step that begins with a bus event is that event. -/
theorem step_bus {s : State} {x : Access} {rest : List Event} (h : s.schedule = .bus x :: rest) :
    step s = .next (({ s with schedule := rest } : State).busEvent x) := by
  simp only [step, h]

/-- Settles O9, from the offsets inside and outside the window. -/
theorem busEventsAreServedOneAtATime : Obligations.BusEventsAreServedOneAtATime := by
  refine ⟨fun s rest off width op hoff hs => ?_, fun s rest x hx hs => ?_⟩
  · rw [step_bus hs]
    simp only [State.busEvent, busOffset_base_add s.params hoff]
  · rw [step_bus hs]
    simp only [State.busEvent, busOffset_outside hx]

/-! ### While a command runs -/

/-- The five registers that a host can read while a command runs (R105). -/
theorem readableBusy_iff (t : Target) :
    t.readableBusy = true ↔ t = .id ∨ t = .ctrl ∨ t = .cmd ∨ t = .status ∨ t = .params := by
  cases t <;> simp [Target.readableBusy]

/-- A target that is readable while a command runs reads the same then as on an idle core (R105). -/
theorem hostRead_of_readableBusy {t : Target} (h : t.readableBusy = true) (s : State) :
    s.hostRead t = s.readTarget t := by
  simp [State.hostRead, h]

/-- Every other target reads 0 while a command runs (R105). -/
theorem hostRead_of_not_readableBusy {s : State} (hb : s.busy = true) {t : Target} (h : ¬t.readableBusy = true) :
    s.hostRead t = 0 := by
  simp [State.hostRead, hb, h]

/-- Settles O14: bus errors first, then the write to STATUS, the dropped writes, and the two kinds of read. -/
theorem busyTimeAccessRule : Obligations.BusyTimeAccessRule := by
  refine ⟨fun s off width op _ h => hostAccess_busError h op, fun s off t hb ht =>
    ⟨fun w hstatus => ?_, fun w hne => hostAccess_write_busy hb ht hne w, fun hreadable => ?_, fun hother => ?_⟩⟩
  · subst hstatus
    obtain ⟨-, rfl⟩ := eq_statusOffset_of_accessTarget ht
    exact hostAccess_write_status s w
  · rw [hostAccess_read ht, hostRead_of_readableBusy ((readableBusy_iff t).mpr hreadable)]
  · rw [hostAccess_read ht, hostRead_of_not_readableBusy hb (mt (readableBusy_iff t).mp hother)]

end Sys2Proof.Machine
end

section
/-! The register map against R60's table: each target stands at the offset the table gives it and at no other, and the
offsets of the table are the ranges of R104; and the statement about mapped offsets. -/

namespace Sys2Proof.Machine

/-! ### From the table to the map -/

/-- Past PARAMS no single register stands (R60). -/
theorem lookup_scalarMap_eq_none {off : Nat} (h : 0x030 < off) : scalarMap.lookup off = none := by
  rw [List.lookup_eq_none_iff]
  have hle : ∀ c ∈ scalarMap, c.1 ≤ 0x030 := by decide
  intro c hc
  have := hle c hc
  exact bne_iff_ne.mpr (by omega)

/-- The map at the offsets of slot `n` is the slot's own map (R54, R60). -/
theorem regMap_slot {p : Params} {n x off : Nat} (hn : n < p.krSlots) (hx : x < 0x40)
    (hoff : off = 0x200 + 0x40 * n + x) : regMap p off = slotMap n x := by
  have hdiv : (off - 0x200) / 0x40 = n := by omega
  have hmod : (off - 0x200) % 0x40 = x := by omega
  rw [regMap, lookup_scalarMap_eq_none (by omega)]
  simp only [hdiv, hmod]
  exact if_pos (by omega)

/-- The map at the offsets of a register array outside the key ring is the array's word there (R60). -/
theorem regMap_array {p : Params} (hp : p.legal) {base size n : Nat} {word : Nat → Target}
    (hrow : (base, size, word) ∈ arrayMap p) (hn : 4 * n < size) : regMap p (base + 4 * n) = some (word n) := by
  obtain ⟨-, hbuf, hbuf', hslots, hslots', -⟩ := hp
  simp only [arrayMap, Buf.base, Buf.size, List.mem_cons, List.not_mem_nil, or_false, Prod.mk.injEq] at hrow
  rcases hrow with h | h | h | h | h | h | h | h | h <;>
    (obtain ⟨rfl, rfl, rfl⟩ := h
     rw [regMap, lookup_scalarMap_eq_none (by omega)]
     simp (disch := omega) only [arrayMap, Buf.base, Buf.size, List.findSome?_cons, if_pos, if_neg,
       Nat.add_sub_cancel_left, Nat.mul_div_cancel_left])

/-- A word that the table puts into a register array is the map's word there. -/
theorem regMap_array_of_table {p : Params} (hp : p.legal) {base size n off : Nat} {word : Nat → Target} {c : Prop}
    [Decidable c] (h : (if c then some (base + 4 * n) else none) = some off) (hrow : (base, size, word) ∈ arrayMap p)
    (hn : c → 4 * n < size) : regMap p off = some (word n) := by
  obtain ⟨hc, hoff⟩ := Option.ite_none_right_eq_some.mp h
  cases hoff
  exact regMap_array hp hrow (hn hc)

/-- Where R60's table puts a target, the map has it. -/
theorem regMap_of_offsetOf {p : Params} (hp : p.legal) {t : Target} {off : Nat} (h : offsetOf p t = some off) :
    regMap p off = some t := by
  cases t with
  | key n => exact regMap_array_of_table hp (size := 32) h (by simp [arrayMap]) fun hn => by omega
  | a n => exact regMap_array_of_table hp (size := 16) h (by simp [arrayMap]) fun hn => by omega
  | b n => exact regMap_array_of_table hp (size := 16) h (by simp [arrayMap]) fun hn => by omega
  | r n => exact regMap_array_of_table hp (size := 16) h (by simp [arrayMap]) fun hn => by omega
  | krTag n =>
    obtain ⟨hn, hoff⟩ := Option.ite_none_right_eq_some.mp h
    cases hoff
    exact regMap_slot (x := 0) hn (by decide) rfl
  | krCfg n =>
    obtain ⟨hn, hoff⟩ := Option.ite_none_right_eq_some.mp h
    cases hoff
    exact regMap_slot (x := 4) hn (by decide) (by omega)
  | krKey n k =>
    obtain ⟨⟨hn, hk⟩, hoff⟩ := Option.ite_none_right_eq_some.mp h
    cases hoff
    rw [regMap_slot (x := 0x20 + 4 * k) hn (by omega) (by omega)]
    simp (disch := omega) [slotMap, if_neg]
  | buf x n =>
    cases x with
    | aad | input | output => exact regMap_array_of_table hp h (by simp [arrayMap, Buf.base, Buf.size]) id
    | nonce => exact regMap_array_of_table hp (size := 64) h (by simp [arrayMap, Buf.base, Buf.size]) fun hn => by omega
    | sched => exact regMap_array_of_table hp (size := 240) h (by simp [arrayMap, Buf.base, Buf.size]) fun hn => by omega
  | _ => cases h; rfl

/-- R60's table gives multiples of 4 only. -/
theorem aligned_of_offsetOf {p : Params} {t : Target} {off : Nat} (h : offsetOf p t = some off) : off % 4 = 0 := by
  cases t with
  | buf x n => cases x <;> simp [offsetOf] at h <;> omega
  | _ => simp [offsetOf] at h; omega

/-- A 32-bit access reaches the target that R60's table puts at its offset, and no other one (R104). -/
theorem accessTarget_eq_some_iff {p : Params} (hp : p.legal) (off : Nat) (t : Target) :
    accessTarget p off .bits32 = some t ↔ offsetOf p t = some off := by
  simp only [accessTarget, Option.ite_none_right_eq_some]
  exact ⟨fun ⟨ha, h⟩ => offsetOf_regMap ha h, fun h => ⟨aligned_of_offsetOf h, regMap_of_offsetOf hp h⟩⟩

/-! ### The ranges of the table -/

/-- The mapped offsets of R104 under the parameters `p`, as ranges of bytes. -/
def mappedRange (p : Params) (off : Nat) : Prop :=
  off ≤ 0x030 ∨ (0x040 ≤ off ∧ off < 0x090) ∨ (0x100 ≤ off ∧ off < 0x140) ∨
    (∃ n, n < p.krSlots ∧
      (off = 0x200 + 0x40 * n ∨ off = 0x204 + 0x40 * n ∨ (0x220 + 0x40 * n ≤ off ∧ off < 0x240 + 0x40 * n))) ∨
    (0x600 ≤ off ∧ off < 0x6F0) ∨ (0x1000 ≤ off ∧ off < 0x1000 + p.bufBytes) ∨
    (0x2000 ≤ off ∧ off < 0x2000 + p.bufBytes) ∨ (0x3000 ≤ off ∧ off < 0x3000 + p.bufBytes)

/-- Every offset of the table lies in the ranges of R104. -/
theorem mappedRange_of_offsetOf {p : Params} {t : Target} {off : Nat} (h : offsetOf p t = some off) :
    mappedRange p off := by
  unfold mappedRange
  cases t with
  | krTag n | krCfg n =>
    obtain ⟨hn, hoff⟩ := Option.ite_none_right_eq_some.mp h
    cases hoff
    exact .inr (.inr (.inr (.inl ⟨n, hn, by omega⟩)))
  | krKey n k =>
    obtain ⟨⟨hn, hk⟩, hoff⟩ := Option.ite_none_right_eq_some.mp h
    cases hoff
    exact .inr (.inr (.inr (.inl ⟨n, hn, by omega⟩)))
  | buf x n => cases x <;> simp [offsetOf] at h <;> omega
  | _ => simp [offsetOf] at h; omega

/-- R60's table puts a target at an offset when its index is in range and the offsets agree. -/
theorem tableEntry_eq_some {c : Prop} [Decidable c] {a off : Nat} (hc : c) (h : a = off) :
    (if c then some a else none) = some off := by
  rw [if_pos hc, h]

/-- At every aligned offset up to PARAMS stands a single register (R60). -/
theorem exists_offsetOf_scalar (p : Params) {off : Nat} (ha : off % 4 = 0) (h : off ≤ 0x030) :
    ∃ t, offsetOf p t = some off := by
  have hall : ∀ off ≤ 0x030, off % 4 = 0 → (scalarMap.lookup off).isSome = true := by decide
  obtain ⟨t, ht⟩ := Option.isSome_iff_exists.mp (hall off h ha)
  exact ⟨t, lookup_scalarMap ht p⟩

/-- From 0x040 to 0x08C stand the key words and the words of A, B and R (R60). -/
theorem exists_offsetOf_block (p : Params) {off : Nat} (ha : off % 4 = 0) (h : 0x040 ≤ off ∧ off < 0x090) :
    ∃ t, offsetOf p t = some off := by
  have hsplit : off < 0x060 ∨ (0x060 ≤ off ∧ off < 0x070) ∨ (0x070 ≤ off ∧ off < 0x080) ∨ 0x080 ≤ off := by omega
  rcases hsplit with hkey | hA | hB | hR
  · exact ⟨.key ((off - 0x040) / 4), tableEntry_eq_some (by omega) (by omega)⟩
  · exact ⟨.a ((off - 0x060) / 4), tableEntry_eq_some (by omega) (by omega)⟩
  · exact ⟨.b ((off - 0x070) / 4), tableEntry_eq_some (by omega) (by omega)⟩
  · exact ⟨.r ((off - 0x080) / 4), tableEntry_eq_some (by omega) (by omega)⟩

/-- At every aligned offset of the ranges of R104 the table puts a target. -/
theorem exists_offsetOf_of_mappedRange {p : Params} {off : Nat} (ha : off % 4 = 0) (h : mappedRange p off) :
    ∃ t, offsetOf p t = some off := by
  rcases h with h | h | h | ⟨n, hn, h | h | h⟩ | h | h | h | h
  · exact exists_offsetOf_scalar p ha h
  · exact exists_offsetOf_block p ha h
  · exact ⟨.buf .nonce ((off - 0x100) / 4), tableEntry_eq_some (by omega) (by omega)⟩
  · exact ⟨.krTag n, tableEntry_eq_some hn h.symm⟩
  · exact ⟨.krCfg n, tableEntry_eq_some hn h.symm⟩
  · exact ⟨.krKey n ((off - (0x220 + 0x40 * n)) / 4), tableEntry_eq_some ⟨hn, by omega⟩ (by omega)⟩
  · exact ⟨.buf .sched ((off - 0x600) / 4), tableEntry_eq_some (by omega) (by omega)⟩
  · exact ⟨.buf .aad ((off - 0x1000) / 4), tableEntry_eq_some (by omega) (by omega)⟩
  · exact ⟨.buf .input ((off - 0x2000) / 4), tableEntry_eq_some (by omega) (by omega)⟩
  · exact ⟨.buf .output ((off - 0x3000) / 4), tableEntry_eq_some (by omega) (by omega)⟩

/-- An aligned 32-bit access reaches no target exactly outside the ranges of R104. -/
theorem accessTarget_eq_none_iff {p : Params} (hp : p.legal) {off : Nat} (ha : off % 4 = 0) :
    accessTarget p off .bits32 = none ↔ ¬mappedRange p off := by
  rw [← Option.not_isSome_iff_eq_none, Option.isSome_iff_exists, not_iff_not]
  simp only [accessTarget_eq_some_iff hp]
  exact ⟨fun ⟨_, ht⟩ => mappedRange_of_offsetOf ht, exists_offsetOf_of_mappedRange ha⟩

/-- Settles O12, from the agreement of the map with R60's table and from the ranges of the table. -/
theorem mappedOffsetsAreThoseOfTheRegisterMap : Obligations.MappedOffsetsAreThoseOfTheRegisterMap := by
  intro s off hp
  refine ⟨accessTarget_eq_some_iff hp off, fun t ht hb => ?_, fun ha op => ⟨?_, fun hresp => ?_⟩⟩
  · have hmap := (accessTarget_eq_some_iff hp off t).mpr ht
    exact ⟨by rw [hostAccess_read hmap, hostRead_idle hb], hostAccess_write_idle hb hmap⟩
  · exact (response_eq_busError_iff s off .bits32 op).trans (accessTarget_eq_none_iff hp ha)
  · exact hostAccess_busError ((response_eq_busError_iff s off .bits32 op).mp hresp) op

end Sys2Proof.Machine
end

section
/-! The command word as its four fields (R130), the legal words (R134, R135) and the decoder as the inverse of `encode`;
and the three statements about the encoding. -/

namespace Sys2Proof

/-! ### A word is its fields -/

/-- Bits 31:14, 13:12, 11:8 and 7:0 are all of the word (R130). -/
theorem fields_append_eq_self (w : Word) :
    reservedField w ++ polField w ++ slotField w ++ opField w = w := by
  simp only [reservedField, polField, slotField, opField]
  rw [BitVec.extractLsb'_append_extractLsb'_eq_extractLsb' (start₁ := 12) (start₂ := 14) rfl,
    BitVec.extractLsb'_append_extractLsb'_eq_extractLsb' (start₁ := 8) (start₂ := 12) rfl,
    BitVec.extractLsb'_append_extractLsb'_eq_extractLsb' (start₁ := 0) (start₂ := 8) rfl]
  exact BitVec.extractLsb'_eq_self

/-- The family `EncodedFields` for every command at once (R130, R134). -/
theorem encodedFields : ∀ i : Instr, Laws.EncodedFields.Statement i
  | .nop => Laws.EncodedFields.nop
  | .expandKey => Laws.EncodedFields.expandKey
  | .encryptBlock => Laws.EncodedFields.encryptBlock
  | .gf8Xtime => Laws.EncodedFields.gf8Xtime
  | .gf8Mul => Laws.EncodedFields.gf8Mul
  | .gf128Halve => Laws.EncodedFields.gf128Halve
  | .gf128Mul => Laws.EncodedFields.gf128Mul
  | .ctr pol => Laws.EncodedFields.ctr pol
  | .ghash => Laws.EncodedFields.ghash
  | .gcmEncrypt => Laws.EncodedFields.gcmEncrypt
  | .gcmDecrypt => Laws.EncodedFields.gcmDecrypt
  | .envEncode slot => Laws.EncodedFields.envEncode slot
  | .envDecode => Laws.EncodedFields.envDecode
  | .sizeForCt => Laws.EncodedFields.sizeForCt
  | .sizeForPt => Laws.EncodedFields.sizeForPt
  | .zeroize => Laws.EncodedFields.zeroize

/-- A word is a command's encoding exactly when its fields are the command's (R130, R134). -/
theorem encode_eq_iff {i : Instr} {w : Word} :
    encode i = w ↔
      opField w = i.opcode ∧ slotField w = i.slotBits ∧ polField w = i.polBits ∧ reservedField w = 0 := by
  constructor
  · rintro rfl
    exact encodedFields i
  · rintro ⟨hop, hslot, hpol, hres⟩
    rw [← fields_append_eq_self w, hop, hslot, hpol, hres]
    rfl

/-! ### The legal words -/

/-- No check of R134 rejects the word on a core with `krSlots` key-ring slots. -/
structure LegalWord (krSlots : Nat) (w : Word) : Prop where
  reserved : reservedField w = 0
  opcode : (opField w).toNat ≤ 0x0F
  unusedSlot : opField w ≠ 0x0B → slotField w = 0
  unusedPolicy : opField w ≠ 0x07 → polField w = 0
  slotRange : opField w = 0x0B → (slotField w).toNat < krSlots
  policy : opField w = 0x07 → (polField w).toNat < 2

/-- A word is not legal exactly when one of the checks of R134 fails on it. -/
theorem not_legalWord_iff {krSlots : Nat} {w : Word} :
    ¬LegalWord krSlots w ↔
      reservedField w ≠ 0 ∨ 0x0F < (opField w).toNat ∨ (opField w ≠ 0x0B ∧ slotField w ≠ 0) ∨
        (opField w ≠ 0x07 ∧ polField w ≠ 0) ∨ (opField w = 0x0B ∧ krSlots ≤ (slotField w).toNat) ∨
        (opField w = 0x07 ∧ 2 ≤ (polField w).toNat) := by
  constructor
  · intro h
    by_contra hnone
    push Not at hnone
    obtain ⟨hres, hop, hslot, hpol, hrange, hpolicy⟩ := hnone
    exact h ⟨hres, hop, hslot, hpol, hrange, hpolicy⟩
  · rintro h ⟨hres, hop, hslot, hpol, hrange, hpolicy⟩
    rcases h with h | h | ⟨h, h'⟩ | ⟨h, h'⟩ | ⟨h, h'⟩ | ⟨h, h'⟩
    · exact h hres
    · omega
    · exact h' (hslot h)
    · exact h' (hpol h)
    · exact absurd (hrange h) (by omega)
    · exact absurd (hpolicy h) (by omega)

/-! ### The operand fields of a command -/

theorem opcode_le (i : Instr) : i.opcode.toNat ≤ 0x0F := by
  cases i <;> simp [Instr.opcode]

/-- Only ENV_ENCODE uses SLOT (R134). -/
theorem slotBits_eq_zero {i : Instr} (h : i.opcode ≠ 0x0B) : i.slotBits = 0 := by
  cases i with
  | envEncode slot => exact absurd rfl h
  | _ => rfl

/-- Only CTR uses POL (R134). -/
theorem polBits_eq_zero {i : Instr} (h : i.opcode ≠ 0x07) : i.polBits = 0 := by
  cases i with
  | ctr pol => exact absurd rfl h
  | _ => rfl

/-- No command has a reserved POL value (R133). -/
theorem polBits_lt (i : Instr) : i.polBits.toNat < 2 := by
  cases i with
  | ctr pol => cases pol <;> decide
  | _ => exact Nat.zero_lt_two

/-- Well-formedness on the fields: an ENV_ENCODE names an existing slot (R132). -/
theorem wf_iff {krSlots : Nat} {i : Instr} :
    i.wf krSlots = true ↔ (i.opcode = 0x0B → i.slotBits.toNat < krSlots) := by
  cases i with
  | envEncode slot => simp [Instr.wf, Instr.opcode, Instr.slotBits]
  | _ => simp [Instr.wf, Instr.opcode]

/-- `encode` makes a legal word of exactly the well-formed commands (R132, R134). -/
theorem legalWord_encode_iff {krSlots : Nat} {i : Instr} :
    LegalWord krSlots (encode i) ↔ i.wf krSlots = true := by
  obtain ⟨hop, hslot, hpol, hres⟩ := encodedFields i
  rw [wf_iff, ← hop, ← hslot]
  refine ⟨LegalWord.slotRange, fun hrange => ⟨hres, ?_, ?_, ?_, hrange, ?_⟩⟩
  · exact hop ▸ opcode_le i
  · exact fun h => hslot.trans (slotBits_eq_zero (hop ▸ h))
  · exact fun h => hpol.trans (polBits_eq_zero (hop ▸ h))
  · exact fun _ => hpol ▸ polBits_lt i

/-! ### The maps of R131 and R133 -/

/-- POL is read as the policy it was written for (R133), and as no other. -/
theorem policyOf_eq_some_iff {bits : BitVec 2} {pol : CounterPolicy} :
    policyOf bits = some pol ↔ bits = pol.polBits := by
  revert bits; cases pol <;> decide

/-- Only the POL values 2 and 3 are reserved (R133). -/
theorem exists_policyOf {bits : BitVec 2} (h : bits.toNat < 2) : ∃ pol, policyOf bits = some pol := by
  have hall : ∀ bits : BitVec 2, bits.toNat < 2 → (policyOf bits).isSome = true := by decide
  exact Option.isSome_iff_exists.mp (hall bits h)

/-- The opcode map has a command at every opcode up to 0x0F (R131). -/
theorem exists_commandOf {op : BitVec 8} (h : op.toNat ≤ 0x0F) (slot : BitVec 4) (pol : CounterPolicy) :
    ∃ i, commandOf op slot pol = some i := by
  unfold commandOf
  split
  case h_17 => simp only [imp_false] at *; omega
  all_goals exact ⟨_, rfl⟩

/-- The command the opcode map names has that opcode, and the operands it uses are those of the word (R130, R131). -/
theorem fields_of_commandOf {op : BitVec 8} {slot : BitVec 4} {pol : CounterPolicy} {i : Instr}
    (h : commandOf op slot pol = some i) :
    i.opcode = op ∧ (op = 0x0B → i.slotBits = slot) ∧ (op = 0x07 → i.polBits = pol.polBits) := by
  unfold commandOf at h
  split at h
  case h_17 => cases h
  all_goals
    next hop =>
    cases h
    obtain rfl : BitVec.ofNat 8 _ = op := hop ▸ BitVec.ofNat_toNat ..
    simp [Instr.opcode, Instr.slotBits, Instr.polBits]

/-- The fields of a command name that command in the opcode map (R131, R133). -/
theorem commandOf_fields (i : Instr) :
    ∃ pol, policyOf i.polBits = some pol ∧ commandOf i.opcode i.slotBits pol = some i := by
  cases i with
  | ctr pol => exact ⟨pol, policyOf_eq_some_iff.mpr rfl, rfl⟩
  | _ => exact ⟨.none, rfl, rfl⟩

/-! ### The decoder -/

/-- One check of `decode`: a word gets past it when it does not fail the check. -/
theorem ite_error_eq_ok {c : Prop} [Decidable c] {e : IllegalReason} {x : Except IllegalReason Instr} {i : Instr} :
    (if c then .error e else x) = .ok i ↔ ¬c ∧ x = .ok i := by
  by_cases h : c <;> simp [h]

/-- `decode` answers a command exactly on a legal word, and then the one the maps of R131 and R133 name. -/
theorem decode_eq_ok_iff {krSlots : Nat} {w : Word} {i : Instr} :
    decode krSlots w = .ok i ↔
      LegalWord krSlots w ∧
        ∃ pol, policyOf (polField w) = some pol ∧ commandOf (opField w) (slotField w) pol = some i := by
  unfold decode
  simp only [ite_error_eq_ok, not_and, not_not, Nat.not_lt, Nat.not_le]
  constructor
  · rintro ⟨hres, hop, hslot, hpol, hrange, h⟩
    split at h
    next => cases h
    next pol hpolicy =>
      split at h
      next j hj =>
        cases h
        refine ⟨⟨hres, hop, hslot, hpol, hrange, fun _ => ?_⟩, pol, hpolicy, hj⟩
        rw [policyOf_eq_some_iff.mp hpolicy]
        exact polBits_lt (.ctr pol)
      next => cases h
  · rintro ⟨⟨hres, hop, hslot, hpol, hrange, -⟩, pol, hpolicy, hi⟩
    exact ⟨hres, hop, hslot, hpol, hrange, by simp only [hpolicy, hi]⟩

/-- On a legal word the maps of R131 and R133 name exactly the command the word encodes. -/
theorem commandOf_iff_encode {krSlots : Nat} {w : Word} (hw : LegalWord krSlots w) {i : Instr} :
    (∃ pol, policyOf (polField w) = some pol ∧ commandOf (opField w) (slotField w) pol = some i) ↔ encode i = w := by
  rw [encode_eq_iff]
  constructor
  · rintro ⟨pol, hpolicy, hi⟩
    obtain ⟨hop, hslot, hpol⟩ := fields_of_commandOf hi
    refine ⟨hop.symm, ?_, ?_, hw.reserved⟩
    · by_cases h : opField w = 0x0B
      · exact (hslot h).symm
      · rw [hw.unusedSlot h, slotBits_eq_zero (hop ▸ h)]
    · by_cases h : opField w = 0x07
      · rw [hpol h, policyOf_eq_some_iff.mp hpolicy]
      · rw [hw.unusedPolicy h, polBits_eq_zero (hop ▸ h)]
  · rintro ⟨hop, hslot, hpol, -⟩
    rw [hop, hslot, hpol]
    exact commandOf_fields i

/-- `decode` answers a command on every legal word (R134). -/
theorem exists_decode_eq_ok_iff {krSlots : Nat} {w : Word} :
    (∃ i, decode krSlots w = .ok i) ↔ LegalWord krSlots w := by
  simp only [decode_eq_ok_iff]
  refine ⟨fun ⟨_, hw, _⟩ => hw, fun hw => ?_⟩
  have hpol : (polField w).toNat < 2 := by
    by_cases h : opField w = 0x07
    · exact hw.policy h
    · rw [hw.unusedPolicy h]; decide
  obtain ⟨pol, hpolicy⟩ := exists_policyOf hpol
  obtain ⟨i, hi⟩ := exists_commandOf hw.opcode (slotField w) pol
  exact ⟨i, hw, pol, hpolicy, hi⟩

/-- `decode` rejects exactly the words that are not legal (R134). -/
theorem exists_decode_eq_error_iff {krSlots : Nat} {w : Word} :
    (∃ e, decode krSlots w = .error e) ↔ ¬LegalWord krSlots w := by
  rw [← exists_decode_eq_ok_iff]
  cases decode krSlots w <;> simp

/-! ### The obligations -/

/-- Settles O1: past the checks, the command the word's fields name is the one whose encoding the word is. -/
theorem decodeAndEncodeAgree : Obligations.DecodeAndEncodeAgree := by
  intro krSlots w i
  calc decode krSlots w = .ok i
    _ ↔ LegalWord krSlots w ∧ encode i = w :=
      decode_eq_ok_iff.trans (and_congr_right fun hw => commandOf_iff_encode hw)
    _ ↔ i.wf krSlots = true ∧ encode i = w :=
      and_congr_left fun h => h ▸ legalWord_encode_iff

/-- Settles O2, from `decode` answering a command on every legal word. -/
theorem illegalWordsAreThoseOfTheDecodeRule : Obligations.IllegalWordsAreThoseOfTheDecodeRule :=
  fun _ _ => exists_decode_eq_error_iff.trans not_legalWord_iff

/-- Settles O3: each of the eighteen words is decoded by evaluation. -/
theorem opcodeMapWords : Obligations.OpcodeMapWords := rfl

end Sys2Proof
end

section
/-! Maps of words that are linear over xor, and the one argument by which the products of both fields commute; then
GF(2^8) (R160 to R162) and the S-box (R180). -/

open Sys2Proof.Claim

namespace Sys2Proof.Machine

/-! ### Maps that are linear over xor -/

/-- A map of words that is linear over xor. -/
def XorLinear {w m : Nat} (f : BitVec w → BitVec m) : Prop := ∀ x y, f (x ^^^ y) = f x ^^^ f y

namespace XorLinear
variable {w m : Nat}

theorem map_zero {f : BitVec w → BitVec m} (hf : XorLinear f) : f 0 = 0 := by
  simpa using hf 0 0

/-- Linear maps that agree on the words with one bit set are equal: a word is built up one bit at a time. -/
theorem ext {f g : BitVec w → BitVec m} (hf : XorLinear f) (hg : XorLinear g)
    (h : ∀ k < w, f (BitVec.twoPow w k) = g (BitVec.twoPow w k)) (x : BitVec w) : f x = g x := by
  suffices hbits : ∀ n ≤ w, ∀ x : BitVec w, (∀ i, n ≤ i → x.getLsbD i = false) → f x = g x from
    hbits w le_rfl x fun i hi => BitVec.getLsbD_of_ge x i hi
  intro n hn
  induction n with
  | zero =>
    intro x hx
    obtain rfl : x = 0 := BitVec.eq_of_getLsbD_eq fun i _ => by simp [hx i (Nat.zero_le i)]
    rw [hf.map_zero, hg.map_zero]
  | succ n ih =>
    intro x hx
    cases hbit : x.getLsbD n with
    | false =>
      refine ih (by omega) x fun i hi => ?_
      rcases hi.eq_or_lt with rfl | hlt
      · exact hbit
      · exact hx i hlt
    | true =>
      have hlow : f (x ^^^ BitVec.twoPow w n) = g (x ^^^ BitVec.twoPow w n) := by
        refine ih (by omega) _ fun i hi => ?_
        rcases hi.eq_or_lt with rfl | hlt
        · simp [hbit, show n < w by omega]
        · simp [hx i hlt, show n ≠ i by omega]
      have hx' : x = x ^^^ BitVec.twoPow w n ^^^ BitVec.twoPow w n := by
        rw [BitVec.xor_assoc, BitVec.xor_self, BitVec.xor_zero]
      rw [hx', hf, hg, hlow, h n (by omega)]

end XorLinear

/-- A product that is linear on both sides commutes when multiplying by `double^i one` is doubling i times and these
powers are the words with one bit set. -/
theorem mul_comm_of_powers {w : Nat} {mul : BitVec w → BitVec w → BitVec w} {double : BitVec w → BitVec w}
    {one : BitVec w} (hl : ∀ y, XorLinear (mul · y)) (hr : ∀ x, XorLinear (mul x))
    (hpow : ∀ i < w, ∀ y, mul (double^[i] one) y = double^[i] y)
    (hone : ∀ k < w, ∃ i < w, BitVec.twoPow w k = double^[i] one) (x y : BitVec w) : mul x y = mul y x := by
  refine (hl y).ext (hr y) (fun k hk => ?_) x
  refine (hr _).ext (hl _) (fun l hl => ?_) y
  obtain ⟨i, hi, hx⟩ := hone k hk
  obtain ⟨j, hj, hy⟩ := hone l hl
  rw [hx, hy]
  calc mul (double^[i] one) (double^[j] one)
    _ = double^[i] (double^[j] one) := hpow i hi _
    _ = double^[j] (double^[i] one) := by rw [← Function.iterate_add_apply, Nat.add_comm, Function.iterate_add_apply]
    _ = mul (double^[j] one) (double^[i] one) := (hpow j hj _).symm

/-- Sums of two conditional sums of one summand: it stays if one of the conditions holds, and cancels if both do. -/
theorem condXor_xor_condXor {w : Nat} (p q : Bool) (a b v : BitVec w) :
    (if p then a ^^^ v else a) ^^^ (if q then b ^^^ v else b) = if p ^^ q then a ^^^ b ^^^ v else a ^^^ b := by
  have hcancel : a ^^^ v ^^^ (b ^^^ v) = a ^^^ b := by
    rw [BitVec.xor_comm b v, BitVec.xor_assoc, ← BitVec.xor_assoc v v b, BitVec.xor_self, BitVec.zero_xor]
  cases p <;> cases q
  · rfl
  · simp [BitVec.xor_assoc]
  · simp [BitVec.xor_assoc, BitVec.xor_comm v]
  · simpa using hcancel

/-- Sums of two conditional sums under one condition. -/
theorem condXor_xor_condXor_same {w : Nat} (p : Bool) (a b u v : BitVec w) :
    (if p then a ^^^ u else a) ^^^ (if p then b ^^^ v else b) = if p then a ^^^ b ^^^ (u ^^^ v) else a ^^^ b := by
  split
  · ac_rfl
  · rfl

/-! ### GF(2^8) -/

@[simp] theorem xtime_zero : xtime 0#8 = 0#8 := rfl

theorem getLsbD_seven_eq_decide (x : Byte) : x.getLsbD 7 = decide (128 ≤ x.toNat) := BitVec.msb_eq_decide x

/-- Without a carry out of bit 7, doubling is doubling of integers (R160). -/
theorem toNat_xtime_of_lt {x : Byte} (h : x.toNat < 128) : (xtime x).toNat = 2 * x.toNat := by
  rw [xtime, getLsbD_seven_eq_decide, if_neg (by simpa using h)]
  show (x <<< 1 ^^^ 0#8).toNat = _
  rw [BitVec.xor_zero, BitVec.toNat_shiftLeft, Nat.shiftLeft_eq]
  omega

/-- A carry out of bit 7 is dropped and 0x1b XORed in (R160). -/
theorem xtime_of_le {x : Byte} (h : 128 ≤ x.toNat) : xtime x = BitVec.ofNat 8 (2 * x.toNat - 256) ^^^ 0x1b := by
  have hshift : x <<< 1 = BitVec.ofNat 8 (2 * x.toNat - 256) := by
    apply BitVec.eq_of_toNat_eq
    rw [BitVec.toNat_shiftLeft, Nat.shiftLeft_eq, BitVec.toNat_ofNat]
    omega
  rw [xtime, getLsbD_seven_eq_decide, hshift, if_pos (by simpa using h)]

/-- One pass of the loop of R161: the accumulator after bit i of `y`. -/
def gf8Step (x y : Byte) (acc : Byte) (i : Nat) : Byte := if y.getLsbD i then xtime acc ^^^ x else xtime acc

theorem gf8Mul_eq_foldl (x y : Byte) : gf8Mul x y = [7, 6, 5, 4, 3, 2, 1, 0].foldl (gf8Step x y) 0 := rfl

/-- Multiplication distributes over xor in its first operand (R161). -/
theorem xorLinear_gf8Mul_left (y : Byte) : XorLinear (gf8Mul · y) := fun x x' =>
  List.foldl_hom₂ _ (· ^^^ ·) (gf8Step x y) (gf8Step x' y) (gf8Step (x ^^^ x') y) 0 0 fun acc acc' i => by
    simp only [gf8Step, xtime_xor, condXor_xor_condXor_same]

/-- Multiplication distributes over xor in its second operand (R161). -/
theorem xorLinear_gf8Mul_right (x : Byte) : XorLinear (gf8Mul x) := fun y y' =>
  List.foldl_hom₂ _ (· ^^^ ·) (gf8Step x y) (gf8Step x y') (gf8Step x (y ^^^ y')) 0 0 fun acc acc' i => by
    simp only [gf8Step, xtime_xor, condXor_xor_condXor, BitVec.getLsbD_xor]

/-- The product by `x^k` is k doublings (R161). -/
theorem gf8Mul_twoPow (x : Byte) {k : Nat} (hk : k < 8) : gf8Mul x (BitVec.twoPow 8 k) = xtime^[k] x := by
  rw [gf8Mul_eq_foldl]
  interval_cases k <;> simp [gf8Step]

/-- The words with one bit set are the powers of `x` (R160). -/
theorem twoPow_eq_iterate_xtime : ∀ k < 8, BitVec.twoPow 8 k = xtime^[k] 1 := by decide

/-- Multiplication in GF(2^8) commutes (R161). -/
theorem gf8Mul_comm (x y : Byte) : gf8Mul x y = gf8Mul y x := by
  refine mul_comm_of_powers (mul := fun x y => gf8Mul y x) (double := xtime) (one := 1) xorLinear_gf8Mul_right
    xorLinear_gf8Mul_left (fun i hi z => ?_) (fun k hk => ⟨k, hk, twoPow_eq_iterate_xtime k hk⟩) y x
  rw [← twoPow_eq_iterate_xtime i hi, gf8Mul_twoPow z hi]

@[simp] theorem gf8Mul_zero (x : Byte) : gf8Mul x 0 = 0 := (xorLinear_gf8Mul_right x).map_zero

@[simp] theorem gf8Mul_one (x : Byte) : gf8Mul x 1 = x := gf8Mul_twoPow x (k := 0) (by decide)

theorem gf8Mul_two (x : Byte) : gf8Mul x 2 = xtime x := gf8Mul_twoPow x (k := 1) (by decide)

theorem gf8Mul_three (x : Byte) : gf8Mul x 3 = xtime x ^^^ x := by
  rw [show (3 : Byte) = 2 ^^^ 1 from rfl, xorLinear_gf8Mul_right, gf8Mul_two, gf8Mul_one]

/-- Settles O47, from the two ranges of `xtime`, the products by the powers of `x` and linearity on both sides. -/
theorem gf8MulLaws : Obligations.Gf8MulLaws :=
  ⟨fun _ => ⟨toNat_xtime_of_lt, xtime_of_le⟩, fun x _ hk => gf8Mul_twoPow x hk, fun x y z =>
    ⟨gf8Mul_zero x, gf8Mul_one x, gf8Mul_two x, gf8Mul_three x, gf8Mul_comm x y, xorLinear_gf8Mul_right x y z⟩⟩

/-! ### The S-box -/

/-- The byte that the affine map of R180 sends to `z`. -/
def affineInv (z : Byte) : Byte := z.rotateLeft 1 ^^^ z.rotateLeft 3 ^^^ z.rotateLeft 6 ^^^ 0x05

theorem affineBit_affineInv : ∀ z : Byte, ∀ i < 8, affineBit (affineInv z) i = z.getLsbD i := by decide +kernel

theorem affineInv_sbox_zero : affineInv (sbox 0) = 0 := by decide

/-- The byte behind the table's entry is the inverse, for each of the 255 bytes that have one (R180). -/
theorem gf8Mul_affineInv_sbox : ∀ x : Byte, x ≠ 0 → gf8Mul x (affineInv (sbox x)) = 1 := by decide +kernel

/-- Settles O49: the affine map undone on the table's entry gives the inverse. -/
theorem sboxIsAffineOfTheInverse : Obligations.SboxIsAffineOfTheInverse := by
  intro x
  refine ⟨affineInv (sbox x), ?_, fun i hi => (affineBit_affineInv _ i hi).symm⟩
  by_cases hx : x = 0
  · exact .inl ⟨hx, by rw [hx, affineInv_sbox_zero]⟩
  · exact .inr (gf8Mul_affineInv_sbox x hx)

end Sys2Proof.Machine
end

section
/-! GF(2^128) (R163 to R165): the product as a sum of halvings, its laws, and `halve` on the bytes of a Block. -/

open Sys2Proof.Claim

namespace Sys2Proof.Machine

/-! ### The product -/

theorem xorLinear_iterate_halve (n : Nat) : XorLinear halve^[n] := fun x y => by
  induction n with
  | zero => rfl
  | succ n ih => simp only [Function.iterate_succ_apply', ih, halve_xor]

/-- One pass of the loop of R165 on Z: V is `y` halved as often as there were passes before. -/
def mulTerm (x y : Block) (z : Block) (i : Nat) : Block := if blockBit x i then z ^^^ halve^[i] y else z

theorem mulStep_foldl_range (x y : Block) (n : Nat) :
    (List.range n).foldl (mulStep x) (0, y) = ((List.range n).foldl (mulTerm x y) 0, halve^[n] y) := by
  induction n with
  | zero => rfl
  | succ n ih =>
    rw [List.range_succ, List.foldl_append, List.foldl_append, ih, Function.iterate_succ_apply']
    rfl

/-- The product is the sum of `y` halved i times over the bits i of `x` (R165). -/
theorem mulGF128_eq_foldl (x y : Block) : mulGF128 x y = (List.range 128).foldl (mulTerm x y) 0 := by
  rw [mulGF128, mulStep_foldl_range]

theorem blockBit_xor (x y : Block) (i : Nat) : blockBit (x ^^^ y) i = (blockBit x i ^^ blockBit y i) :=
  BitVec.getMsbD_xor

/-- Multiplication distributes over xor in its first operand (R165). -/
theorem xorLinear_mulGF128_left (y : Block) : XorLinear (mulGF128 · y) := fun x x' => by
  simp only [mulGF128_eq_foldl]
  exact List.foldl_hom₂ _ (· ^^^ ·) (mulTerm x y) (mulTerm x' y) (mulTerm (x ^^^ x') y) 0 0 fun z z' i => by
    simp only [mulTerm, condXor_xor_condXor, blockBit_xor]

/-- Multiplication distributes over xor in its second operand (R165). -/
theorem xorLinear_mulGF128_right (x : Block) : XorLinear (mulGF128 x) := fun y y' => by
  simp only [mulGF128_eq_foldl]
  exact List.foldl_hom₂ _ (· ^^^ ·) (mulTerm x y) (mulTerm x y') (mulTerm x (y ^^^ y')) 0 0 fun z z' i => by
    simp only [mulTerm, xorLinear_iterate_halve i y y', condXor_xor_condXor_same]

/-- Bit i of R163 stands at position 127 - i of the integer. -/
theorem blockBit_twoPow {i j : Nat} (hi : i < 128) (hj : j < 128) :
    blockBit (BitVec.twoPow 128 (127 - i)) j = decide (i = j) := by
  have hij : 127 - i = 127 - j ↔ i = j := by omega
  simp [blockBit, BitVec.getMsbD_eq_getLsbD, hj, hij, show 127 - i < 128 by omega]

/-- With only bit i set, the sum of the first n passes of R165 has at most one term. -/
theorem foldl_mulTerm_twoPow {i n : Nat} (hi : i < 128) (hn : n ≤ 128) (y : Block) :
    (List.range n).foldl (mulTerm (BitVec.twoPow 128 (127 - i)) y) 0 = if i < n then halve^[i] y else 0 := by
  induction n with
  | zero => rfl
  | succ n ih =>
    rw [List.range_succ, List.foldl_append, ih (by omega), List.foldl_cons, List.foldl_nil, mulTerm,
      blockBit_twoPow hi (by omega)]
    rcases Nat.lt_trichotomy i n with h | rfl | h
    · simp [h, h.ne, h.le]
    · simp
    · simp [h.ne', h.not_gt, h.not_ge]

/-- The product of the Block with only bit i set is `y` halved i times (R165). -/
theorem mulGF128_twoPow {i : Nat} (hi : i < 128) (y : Block) :
    mulGF128 (BitVec.twoPow 128 (127 - i)) y = halve^[i] y := by
  rw [mulGF128_eq_foldl, foldl_mulTerm_twoPow hi le_rfl, if_pos hi]

/-- Halving moves a set bit to the next one (R163, R164). -/
theorem halve_twoPow_succ {k : Nat} (hk : k < 127) : halve (BitVec.twoPow 128 (k + 1)) = BitVec.twoPow 128 k := by
  unfold halve
  apply BitVec.eq_of_getLsbD_eq
  intro i hi
  simp [show k + 1 < 128 by omega, show k < 128 by omega, Nat.add_comm 1]

/-- The Blocks with one bit set are the powers of `x`, the identity halved as often as R165 says (R163). -/
theorem twoPow_eq_iterate_halve {i : Nat} (hi : i < 128) :
    BitVec.twoPow 128 (127 - i) = halve^[i] (BitVec.twoPow 128 127) := by
  induction i with
  | zero => rfl
  | succ i ih =>
    rw [Function.iterate_succ_apply', ← ih (by omega), ← halve_twoPow_succ (by omega)]
    congr 2; omega

/-- Multiplication in GF(2^128) commutes (R165). -/
theorem mulGF128_comm (x y : Block) : mulGF128 x y = mulGF128 y x := by
  refine mul_comm_of_powers (double := halve) (one := BitVec.twoPow 128 127) xorLinear_mulGF128_left
    xorLinear_mulGF128_right (fun i hi z => ?_) (fun k hk => ⟨127 - k, by omega, ?_⟩) x y
  · rw [← twoPow_eq_iterate_halve hi, mulGF128_twoPow hi]
  · rw [← twoPow_eq_iterate_halve (by omega), show 127 - (127 - k) = k by omega]

@[simp] theorem mulGF128_zero_left (y : Block) : mulGF128 0 y = 0 := (xorLinear_mulGF128_left y).map_zero

/-- The identity is the Block with only bit 0 of R163 set (R165). -/
@[simp] theorem mulGF128_one_left (y : Block) : mulGF128 (0x80#8 ++ 0#120) y = y :=
  mulGF128_twoPow (i := 0) (by decide) y

/-! ### The bytes of a Block -/

theorem intBe_bytesOfBlock (x : Block) : intBe (bytesOfBlock x) = x.toNat := by
  rw [bytesOfBlock, intBe_beBytes]
  exact Nat.mod_eq_of_lt x.isLt

/-- A Block whose bytes after the first are zero (R10). -/
theorem blockByte_append_zero (b : Byte) {j : Nat} (hj : j < 16) :
    blockByte (b ++ 0#120) j = if j = 0 then b else 0 := by
  apply BitVec.eq_of_getLsbD_eq
  intro i hi
  simp only [blockByte, BitVec.getLsbD_extractLsb', BitVec.getLsbD_append, hi]
  split
  · simp [show ¬j = 0 by omega]
  · simp [show j = 0 by omega]

theorem getElem_bytesOfBlock (x : Block) {j : Nat} (hj : j < (bytesOfBlock x).length) :
    (bytesOfBlock x)[j] = blockByte x j := by
  rw [blockByte_eq_getD x (by simpa using hj), List.getD_eq_getElem _ _ hj]

/-- XORing into byte 0 of the bytes of a Block (R164). -/
theorem modify_bytesOfBlock (x : Block) (b : Byte) :
    (bytesOfBlock x).modify 0 (· ^^^ b) = bytesOfBlock (x ^^^ (b ++ 0#120)) := by
  refine List.ext_getElem (by simp) fun j hj hj' => ?_
  rw [List.getElem_modify, getElem_bytesOfBlock, getElem_bytesOfBlock, blockByte_xor,
    blockByte_append_zero b (by simpa using hj')]
  cases j <;> simp

/-- `halve` on the bytes of a Block (R164). -/
theorem bytesOfBlock_halve (y : Block) : bytesOfBlock (halve y) = halveBytes (bytesOfBlock y) := by
  have hbit : ((bytesOfBlock y).getD 15 0).getLsbD 0 = y.getLsbD 0 := by
    rw [← blockByte_eq_getD y (by decide)]
    simp [blockByte]
  have hshift : beBytes 16 (intBe (bytesOfBlock y) / 2) = bytesOfBlock (y >>> 1) := by
    rw [intBe_bytesOfBlock, bytesOfBlock, BitVec.toNat_ushiftRight, Nat.shiftRight_eq_div_pow, pow_one]
  rw [halveBytes, hbit, hshift, modify_bytesOfBlock, halve]
  split
  · rfl
  · rw [BitVec.xor_zero]

/-- Settles O48, from the bytes of `halve`, the products by the powers of `x` and linearity on both sides. -/
theorem gf128MulLaws : Obligations.Gf128MulLaws :=
  ⟨bytesOfBlock_halve, fun _ y hi => mulGF128_twoPow hi y, fun x y z =>
    ⟨mulGF128_zero_left y, mulGF128_one_left y, (mulGF128_comm y _).trans (mulGF128_one_left y), mulGF128_comm x y,
      xorLinear_mulGF128_left z x y⟩⟩

end Sys2Proof.Machine
end

section
/-! The commands of the two fields (R166 to R169). -/

open Sys2Proof.Claim

namespace Sys2Proof.Machine

theorem blockOfBytes_cons_zeros (b : Byte) : blockOfBytes (b :: zeros 15) = b ++ 0#120 := by
  refine block_ext fun j hj => ?_
  rw [blockByte_blockOfBytes (by simp) hj, blockByte_append_zero b hj]
  cases j with
  | zero => rfl
  | succ j => rw [List.getD_cons_succ, zeros, List.getD_replicate 0 (by omega), if_neg (by omega)]

/-- A command that is not composite and only writes R completes with OK (R323, R326). -/
theorem finish_setR {s : State} {i : Instr} (hi : isComposite i = false) (v : Block) :
    (s.setR v).finish i .ok = { s with r := v, seq := .idle, status := doneStatus s .ok } :=
  finish_plain (.inl hi) .ok

/-- Settles O28: byte 0 of A and of B in, byte 0 of R out. -/
theorem gf8CommandsWriteByteZeroOfR : Obligations.Gf8CommandsWriteByteZeroOfR := by
  intro s
  simp only [← blockByte_eq_getD _ (show 0 < 16 by decide), blockOfBytes_cons_zeros]
  exact ⟨congrArg Host.Outcome.next (finish_setR rfl _), congrArg Host.Outcome.next (finish_setR rfl _)⟩

/-- Settles O29, from the bytes of `halve`. -/
theorem gf128CommandsWriteR : Obligations.Gf128CommandsWriteR := by
  intro s
  rw [← bytesOfBlock_halve, blockOfBytes_bytesOfBlock]
  exact ⟨congrArg Host.Outcome.next (finish_setR rfl _), congrArg Host.Outcome.next (finish_setR rfl _)⟩

end Sys2Proof.Machine
end

section
/-! The forward cipher (R180 to R190): its transforms on the bytes of a Block, the key schedule as a recurrence on its
words, and the loop of `encryptBlock` regrouped into rounds. -/

open Sys2Proof.Claim

namespace Sys2Proof.Machine

theorem length_slice {s : List Byte} {i n : Nat} (h : i + n ≤ s.length) : (slice s i n).length = n := by
  simp only [slice, List.length_take, List.length_drop]; omega

/-! ### The transforms on byte r + 4c, row r of column c (R10) -/

theorem blockByte_subBytes (x : Block) {j : Nat} (hj : j < 16) :
    blockByte (subBytes x) j = sbox (blockByte x j) := blockByte_blockOfFn _ hj

theorem blockByte_shiftRows (x : Block) {r c : Nat} (hr : r < 4) (hc : c < 4) :
    blockByte (shiftRows x) (r + 4 * c) = blockByte x (r + 4 * ((c + r) % 4)) := by
  rw [shiftRows, blockByte_blockOfFn _ (by omega), show (r + 4 * c) % 4 = r by omega, show (r + 4 * c) / 4 = c by omega]

/-- A mixed byte depends on its column only (R183). -/
theorem blockByte_mixColumns (x : Block) {r c : Nat} (hr : r < 4) (hc : c < 4) :
    blockByte (mixColumns x) (r + 4 * c) =
      mixColumnByte (blockByte x (4 * c)) (blockByte x (4 * c + 1)) (blockByte x (4 * c + 2))
        (blockByte x (4 * c + 3)) r := by
  rw [mixColumns, blockByte_blockOfFn _ (by omega), show (r + 4 * c) % 4 = r by omega, show (r + 4 * c) / 4 = c by omega]

/-- Row r of the matrix of R183 is row 0 turned r places: 2 at the byte's own row, 3 at the next one, 1 at the others. -/
theorem mixColumnByte_eq_gf8Mul (a : Nat → Byte) {r : Nat} (hr : r < 4) :
    mixColumnByte (a 0) (a 1) (a 2) (a 3) r =
      gf8Mul (a r) 2 ^^^ gf8Mul (a ((r + 1) % 4)) 3 ^^^ a ((r + 2) % 4) ^^^ a ((r + 3) % 4) := by
  rw [gf8Mul_two, gf8Mul_three]
  interval_cases r <;> simp only [mixColumnByte, m2, m3, Nat.reduceAdd, Nat.reduceMod] <;> ac_rfl

/-- Settles O50, from each transform on one byte of a Block. -/
theorem roundTransformByteFormulas : Obligations.RoundTransformByteFormulas := by
  intro x r c hr hc
  refine ⟨blockByte_shiftRows x hr hc, blockByte_subBytes x (by omega), fun k => blockByte_xor x k _, ?_⟩
  have hmix := mixColumnByte_eq_gf8Mul (fun i => blockByte x (i + 4 * c)) hr
  simpa only [blockByte_mixColumns x hr hc, Nat.zero_add, Nat.add_comm (4 * c)] using hmix

/-! ### The words of the key schedule (R186) -/

/-- RotWord moves byte 0 to the end (R186). -/
theorem rotWord_append (t0 t1 t2 t3 : Byte) : rotWord (t0 ++ t1 ++ t2 ++ t3) = t1 ++ t2 ++ t3 ++ t0 := by
  apply BitVec.eq_of_getLsbD_eq
  intro i hi
  simp only [rotWord, BitVec.getLsbD_rotateLeft, BitVec.getLsbD_append]
  by_cases h : i < 8
  · simp [h, show ¬24 + i < 8 by omega, show ¬24 + i - 8 < 8 by omega, show ¬24 + i - 8 - 8 < 8 by omega,
      show 24 + i - 8 - 8 - 8 = i by omega]
  · simp [h, hi, show i - 8 - 8 - 8 < 8 by omega]

/-- SubWord substitutes each byte (R186). -/
theorem subWord_append (t0 t1 t2 t3 : Byte) :
    subWord (t0 ++ t1 ++ t2 ++ t3) = sbox t0 ++ sbox t1 ++ sbox t2 ++ sbox t3 := by
  simp (disch := decide) only [subWord, BitVec.extractLsb'_append_eq_of_le, BitVec.extractLsb'_append_eq_of_add_le,
    Nat.reduceSub]
  simp

/-- Word i by the rules (a), (b), (c) of R186, from the words before it. -/
def scheduleWord (nk : Nat) (ws : List (BitVec 32)) (i : Nat) : BitVec 32 :=
  ws.getD (i - nk) 0 ^^^
    (if i % nk = 0 then subWord (rotWord (ws.getD (i - 1) 0)) ^^^ (rcon (i / nk - 1) ++ 0#24)
    else if nk = 8 ∧ i % nk = 4 then subWord (ws.getD (i - 1) 0)
    else ws.getD (i - 1) 0)

/-- Every word after the first `nk` is the one that R186 makes from the words before it. -/
def FollowsSchedule (nk : Nat) (ws : List (BitVec 32)) : Prop :=
  ∀ i, nk ≤ i → i < ws.length → ws.getD i 0 = scheduleWord nk ws i

/-- Word i depends on words before it only. -/
theorem scheduleWord_append {nk i : Nat} {ws : List (BitVec 32)} (hnk : 0 < nk) (hi : nk ≤ i) (hlen : i ≤ ws.length)
    (vs : List (BitVec 32)) : scheduleWord nk (ws ++ vs) i = scheduleWord nk ws i := by
  rw [scheduleWord, scheduleWord, List.getD_append _ _ _ _ (by omega), List.getD_append _ _ _ _ (by omega)]

theorem FollowsSchedule.append_word {nk : Nat} {ws : List (BitVec 32)} (h : FollowsSchedule nk ws) (hnk : 0 < nk) :
    FollowsSchedule nk (ws ++ [scheduleWord nk ws ws.length]) := by
  intro i hi hlt
  rw [List.length_append, List.length_singleton] at hlt
  rw [scheduleWord_append hnk hi (by omega)]
  rcases Nat.lt_succ_iff_lt_or_eq.mp hlt with hlt | rfl
  · rw [List.getD_append _ _ _ _ hlt, h i hi hlt]
  · rw [List.getD_append_right _ _ _ _ le_rfl, Nat.sub_self]; rfl

/-- One pass of the loop of R186 makes the next word and leaves the round constant that R187 gives for the one after it.
`ws` holds the words so far, the latest first. -/
theorem expandLoop_succ {nk : Nat} {ws : List (BitVec 32)} (hnk : 0 < nk) (hlen : nk ≤ ws.length) (n : Nat) :
    expandLoop nk (n + 1) ws.length (rcon ((ws.length - 1) / nk)) ws =
      expandLoop nk n (ws.length + 1) (rcon (ws.length / nk)) (scheduleWord nk ws.reverse ws.length :: ws) := by
  have hback : ws.reverse.getD (ws.length - nk) 0 = ws.getD (nk - 1) 0 := by
    rw [List.getD_reverse _ (by omega)]; congr 1; omega
  have hlast : ws.reverse.getD (ws.length - 1) 0 = ws.headD 0 := by
    rw [List.getD_reverse _ (by omega), Nat.sub_self, List.headD_eq_head?_getD, List.head?_eq_getElem?]; rfl
  obtain ⟨m, hm⟩ := Nat.exists_eq_succ_of_ne_zero (show ws.length ≠ 0 by omega)
  rw [expandLoop, scheduleWord, hback, hlast, hm, Nat.succ_sub_one]
  split
  case isTrue hmod =>
    rw [Nat.succ_div_of_dvd (Nat.dvd_of_mod_eq_zero hmod), Nat.add_sub_cancel]
    rfl
  case isFalse hmod =>
    rw [Nat.succ_div_of_not_dvd (mt Nat.mod_eq_zero_of_dvd hmod)]
    split <;> rfl

/-- The loop of R186 keeps the words it starts from. -/
theorem suffix_expandLoop (nk n i : Nat) (rc : Byte) (ws : List (BitVec 32)) : ws <:+ expandLoop nk n i rc ws := by
  induction n generalizing i rc ws with
  | zero => exact List.suffix_rfl
  | succ n ih =>
    unfold expandLoop
    split
    · exact (List.suffix_cons _ _).trans (ih _ _ _)
    · split <;> exact (List.suffix_cons _ _).trans (ih _ _ _)

/-- What the loop of R186 makes from words that follow the schedule follows it. -/
theorem followsSchedule_expandLoop {nk : Nat} (hnk : 0 < nk) (n : Nat) {ws : List (BitVec 32)} (hlen : nk ≤ ws.length)
    (h : FollowsSchedule nk ws.reverse) :
    FollowsSchedule nk (expandLoop nk n ws.length (rcon ((ws.length - 1) / nk)) ws).reverse := by
  induction n generalizing ws with
  | zero => exact h
  | succ n ih =>
    have hnext := h.append_word hnk
    rw [List.length_reverse, ← List.reverse_cons] at hnext
    rw [expandLoop_succ hnk hlen]
    exact ih (ws := scheduleWord nk ws.reverse ws.length :: ws) (by rw [List.length_cons]; omega) hnext

theorem nk_pos (k : KeySize) : 0 < k.nk := by cases k <;> decide

theorem nk_eq_eight_iff (k : KeySize) : k.nk = 8 ↔ k = .aes256 := by cases k <;> decide

/-- The words of a schedule follow R186. -/
theorem followsSchedule_expandWords (k : KeySize) (key : List Byte) : FollowsSchedule k.nk (expandWords k key) := by
  have hstart : rcon ((((List.range k.nk).map (keyWord key)).reverse.length - 1) / k.nk) = 0x01 := by
    rw [List.length_reverse, List.length_map, List.length_range, Nat.div_eq_of_lt (Nat.sub_one_lt (nk_pos k).ne')]
    rfl
  have hloop := followsSchedule_expandLoop (nk_pos k) (4 * (k.nr + 1) - k.nk)
    (ws := ((List.range k.nk).map (keyWord key)).reverse) (by simp) fun i hi hlt => by
      simp only [List.reverse_reverse, List.length_map, List.length_range] at hlt; omega
  rw [hstart] at hloop
  simpa [expandWords] using hloop

/-- The first Nk words are those of the key (R186). -/
theorem prefix_expandWords (k : KeySize) (key : List Byte) : (List.range k.nk).map (keyWord key) <+: expandWords k key := by
  rw [expandWords, ← List.reverse_suffix, List.reverse_reverse]
  exact suffix_expandLoop _ _ _ _ _

/-! ### The bytes of the key schedule (R188) -/

/-- Word i of the key, written as bytes, is bytes 4i to 4i + 3 (R186). -/
theorem beBytes_keyWord {key : List Byte} {i : Nat} (hi : 4 * i + 4 ≤ key.length) :
    beBytes 4 (keyWord key i).toNat = slice key (4 * i) 4 := by
  have hbytes := beBytes_intBe (slice key (4 * i) 4)
  rw [length_slice hi] at hbytes
  rw [keyWord, BitVec.toNat_ofNat, show (2 : Nat) ^ 32 = 256 ^ 4 by norm_num, beBytes_mod, hbytes]

/-- The words of the key, written as bytes, are the key (R186). -/
theorem flatMap_keyWord {key : List Byte} {n : Nat} (hn : 4 * n ≤ key.length) :
    (List.range n).flatMap (fun i => beBytes 4 (keyWord key i).toNat) = key.take (4 * n) := by
  induction n with
  | zero => rfl
  | succ n ih =>
    rw [List.range_succ, List.flatMap_append, ih (by omega), List.flatMap_singleton, beBytes_keyWord (by omega), slice,
      ← List.take_add]
    rfl

/-- Bytes 4i to 4i + 3 of a list of words, written as bytes, are word i. -/
theorem slice_flatMap_beBytes {ws : List (BitVec 32)} {i : Nat} (hi : i < ws.length) :
    slice (ws.flatMap fun w => beBytes 4 w.toNat) (4 * i) 4 = beBytes 4 (ws.getD i 0).toNat := by
  induction ws generalizing i with
  | nil => simp at hi
  | cons w ws ih =>
    rw [List.flatMap_cons]
    cases i with
    | zero => exact List.take_left' (length_beBytes 4 _)
    | succ i =>
      rw [List.getD_cons_succ, ← ih (by simpa using hi), slice, Nat.mul_succ, Nat.add_comm, ← List.drop_drop,
        List.drop_left' (length_beBytes 4 _)]
      rfl

/-- A schedule begins with its key (R186). -/
theorem take_expandKey {key : Key} (hkey : key.bytes.length = key.size.keyBytes) :
    (expandKey key).take key.size.keyBytes = key.bytes := by
  obtain ⟨ws, hws⟩ := prefix_expandWords key.size key.bytes
  have hbytes : (List.range key.size.nk).flatMap (fun i => beBytes 4 (keyWord key.bytes i).toNat) = key.bytes := by
    rw [flatMap_keyWord hkey.ge]
    exact List.take_of_length_le hkey.le
  rw [expandKey, ← hws, List.flatMap_append, List.flatMap_map, hbytes]
  exact List.take_left' hkey

/-- Nk is a quarter of the key's length (R185). -/
theorem nk_of_length {key : Key} (hkey : key.bytes.length = key.size.keyBytes) : key.size.nk = key.bytes.length / 4 := by
  rw [hkey, KeySize.keyBytes, Nat.mul_div_cancel_left _ (by decide)]

/-- Settles O51, from the loop's invariant `FollowsSchedule` and from the words as bytes. -/
theorem keyScheduleRecurrence : Obligations.KeyScheduleRecurrence := by
  refine ⟨fun t0 t1 t2 t3 => ⟨rotWord_append t0 t1 t2 t3, subWord_append t0 t1 t2 t3⟩, fun key hkey => ?_⟩
  have hnk := nk_of_length hkey
  refine ⟨hnk, congrArg (· + 6) hnk, length_expandKey key, take_expandKey hkey,
    fun i hi => slice_flatMap_beBytes (by rwa [length_expandWords]), fun i hi hlt => ?_⟩
  rw [followsSchedule_expandWords key.size key.bytes i hi (by rwa [length_expandWords]), scheduleWord]
  have hrule : (key.size.nk = 8 ∧ i % key.size.nk = 4) ↔ (key.size = .aes256 ∧ i % 8 = 4) := by
    rw [← nk_eq_eight_iff]
    exact and_congr_right fun h => by rw [h]
  simp only [hrule]

/-! ### The loop of the cipher (R190) -/

/-- Round key r is bytes 16r to 16r + 15 of the schedule (R188). -/
theorem blockByte_roundKey {sched : List Byte} {r j : Nat} (hr : 16 * r + 16 ≤ sched.length) (hj : j < 16) :
    blockByte (roundKey sched r) j = sched.getD (16 * r + j) 0 := by
  rw [roundKey, blockByte_blockOfBytes (length_slice hr) hj]
  simp [slice, List.getD_eq_getElem?_getD, List.getElem?_take_of_lt hj]

/-- A full round of the standard cipher: pass r of R190's loop from its SubBytes on, then the AddRoundKey of the next
pass. -/
def fullRound (sched : List Byte) (x : Block) (r : Nat) : Block :=
  addRoundKey (mixColumns (shiftRows (subBytes x))) (roundKey sched (r + 1))

/-- The passes of R190's loop before the last are full rounds, when each AddRoundKey is counted to the pass before it. -/
theorem addRoundKey_foldl_cipherRound (sched : List Byte) (x : Block) {nr m : Nat} (hm : m < nr) :
    addRoundKey ((List.range m).foldl (cipherRound sched nr) x) (roundKey sched m) =
      (List.range m).foldl (fullRound sched) (addRoundKey x (roundKey sched 0)) := by
  induction m with
  | zero => rfl
  | succ m ih =>
    rw [List.range_succ, List.foldl_append, List.foldl_append, ← ih (by omega)]
    simp only [List.foldl_cons, List.foldl_nil, cipherRound, fullRound, if_neg (show ¬m = nr - 1 by omega)]

/-- R190's loop as one AddRoundKey, full rounds, and its last pass, the final round without MixColumns. -/
theorem encryptBlock_eq_rounds {sched : List Byte} {nr : Nat} (hlen : sched.length = 16 * (nr + 1)) (hnr : 0 < nr)
    (x : Block) : encryptBlock sched x =
      addRoundKey (shiftRows (subBytes
        ((List.range (nr - 1)).foldl (fullRound sched) (addRoundKey x (roundKey sched 0))))) (roundKey sched nr) := by
  obtain ⟨m, rfl⟩ := Nat.exists_eq_succ_of_ne_zero hnr.ne'
  have hrounds : sched.length / 16 - 1 = m + 1 := by omega
  rw [Nat.succ_sub_one, ← addRoundKey_foldl_cipherRound sched x (nr := m + 1) (by omega), encryptBlock, hrounds,
    List.range_succ, List.foldl_append]
  simp [cipherRound]

/-- Settles O52: R190's loop regrouped. -/
theorem encryptBlockIsTheStandardCipher : Obligations.EncryptBlockIsTheStandardCipher := fun k _ x hlen =>
  ⟨fun r hr _ hj => blockByte_roundKey (by omega) hj, encryptBlock_eq_rounds hlen (Nat.succ_pos _) x⟩

end Sys2Proof.Machine
end

section
/-! The commands EXPAND_KEY and ENCRYPT_BLOCK (R195, R196). -/

open Sys2Proof.Claim

namespace Sys2Proof.Machine

theorem exec_expandKey_of_key {s : State} {key : Key} (hkey : s.keyFromReg = some key) :
    exec .expandKey s = .next ((s.storeSchedule key.size (expandKey key)).complete .ok) := by
  simp only [exec, execExpandKey, hkey, finish_plain (i := .expandKey) (.inl rfl)]

theorem exec_encryptBlock_of_schedule {s : State} {k : KeySize} (hk : s.schedInfo = some k) :
    exec .encryptBlock s = .next ((s.setR (encryptBlock (s.schedBytes k) s.a)).finish .encryptBlock .ok) := by
  simp only [exec, execEncryptBlock, hk]

theorem exec_encryptBlock_of_no_schedule {s : State} (h : s.schedInfo = none) :
    exec .encryptBlock s = .next (s.raise .encryptBlock .invalidKeyMaterial) := by
  simp only [exec, execEncryptBlock, h]

/-- Settles O31: with a key from what `storeSchedule` writes, without one from the error exit. -/
theorem expandKeyStoresTheSchedule : Obligations.ExpandKeyStoresTheSchedule := by
  refine fun s => ⟨fun key hkey => ⟨_, exec_expandKey_of_key hkey, rfl, memRead_storeSchedule s key, ?_,
    fun x => readByte_storeSchedule s key⟩, exec_expandKey_of_no_key⟩
  rw [← nk_of_length (length_of_keyOf hkey)]
  exact schedInfoWord_some key.size

/-- Settles O32: R takes the cipher of A, or is cleared by the error exit. -/
theorem encryptBlockUsesTheStoredSchedule : Obligations.EncryptBlockUsesTheStoredSchedule := fun _ =>
  ⟨fun _ hk => (exec_encryptBlock_of_schedule hk).trans (congrArg Host.Outcome.next (finish_setR rfl _)),
    exec_encryptBlock_of_no_schedule⟩

end Sys2Proof.Machine
end

section
/-! Counter mode (R220 to R224): `ctrApply` as the data XORed with a key stream, byte by byte, and the counter it ends
with. -/

open Sys2Proof.Claim

namespace Sys2Proof.Machine

/-! ### XOR of byte sequences -/

theorem getD_xorBytes {s t : List Byte} {j : Nat} (hs : j < s.length) (ht : j < t.length) :
    (xorBytes s t).getD j 0 = s.getD j 0 ^^^ t.getD j 0 := by
  simp [xorBytes, List.getD_eq_getElem?_getD, hs, ht]

/-- Bytes past the end of the shorter sequence play no part (R8). -/
theorem xorBytes_take_length (s t : List Byte) : xorBytes s (t.take s.length) = xorBytes s t := by
  have htake : (xorBytes s t).take s.length = xorBytes (s.take s.length) (t.take s.length) := List.take_zipWith
  rw [← List.take_of_length_le (l := xorBytes s t) (i := s.length) (by simp), htake, List.take_length]

/-- XOR with a sequence in two parts. -/
theorem xorBytes_append_right (s t u : List Byte) :
    xorBytes s (t ++ u) = xorBytes (s.take t.length) t ++ xorBytes (s.drop t.length) u := by
  rw [← List.take_append_drop t.length (xorBytes s (t ++ u)), xorBytes, List.take_zipWith, List.drop_zipWith,
    List.take_left, List.drop_left]
  rfl

/-! ### The counters (R220, R222) -/

theorem inc128_add_ofNat (c : Block) (k : Nat) : inc128 c + BitVec.ofNat 128 k = c + BitVec.ofNat 128 (k + 1) := by
  rw [inc128, BitVec.add_assoc, ← BitVec.ofNat_add, Nat.add_comm]

/-- Counter k of `ctr_apply`, counted from the first. -/
theorem firstCounter_add_ofNat (c0 : Block) (pol : CounterPolicy) (k : Nat) :
    firstCounter c0 pol + BitVec.ofNat 128 k =
      BitVec.ofNat 128 (c0.toNat + (if pol = .preIncrement then 1 else 0) + k) := by
  cases pol with
  | none => simp [firstCounter, BitVec.ofNat_add]
  | preIncrement => simp [firstCounter, inc128, BitVec.ofNat_add]

/-- The counter after the last increment (R221). -/
theorem ctrChunks_counter (sched : List Byte) (c : Block) (cs : List (List Byte)) :
    (ctrChunks sched c cs).2 = c + BitVec.ofNat 128 cs.length := by
  induction cs generalizing c with
  | nil => simp [ctrChunks]
  | cons chunk cs ih => rw [ctrChunks, ih, inc128_add_ofNat, List.length_cons]

/-! ### The key stream -/

/-- The key stream of R221: the bytes of the cipher of `n` successive counters from `c` on. -/
def keystream (sched : List Byte) : Block → Nat → List Byte
  | _, 0 => []
  | c, n + 1 => bytesOfBlock (encryptBlock sched c) ++ keystream sched (inc128 c) n

@[simp] theorem length_keystream (sched : List Byte) (c : Block) (n : Nat) :
    (keystream sched c n).length = 16 * n := by
  induction n generalizing c with
  | zero => rfl
  | succ n ih => rw [keystream, List.length_append, length_bytesOfBlock, ih]; omega

theorem getD_keystream (sched : List Byte) (c : Block) {n j : Nat} (hj : j < 16 * n) :
    (keystream sched c n).getD j 0 = blockByte (encryptBlock sched (c + BitVec.ofNat 128 (j / 16))) (j % 16) := by
  induction n generalizing c j with
  | zero => omega
  | succ n ih =>
    rw [keystream]
    by_cases hfirst : j < 16
    · rw [List.getD_append _ _ _ _ (by simpa using hfirst), ← blockByte_eq_getD _ hfirst, Nat.div_eq_of_lt hfirst,
        Nat.mod_eq_of_lt hfirst, BitVec.add_zero]
    · obtain ⟨i, rfl⟩ := Nat.exists_eq_add_of_le' (Nat.le_of_not_lt hfirst)
      rw [List.getD_append_right _ _ _ _ (by simp), length_bytesOfBlock, Nat.add_sub_cancel, ih _ (by omega),
        inc128_add_ofNat, Nat.add_mod_right, Nat.add_div_right _ (by decide)]

/-- The loop of R221 over the first `n` chunks XORs the data with `n` blocks of key stream. -/
theorem ctrChunks_chunksN (sched : List Byte) (c : Block) (n : Nat) (data : List Byte) :
    (ctrChunks sched c (chunksN n data)).1 = xorBytes data (keystream sched c n) := by
  induction n generalizing c data with
  | zero => simp [chunksN, ctrChunks, keystream, xorBytes]
  | succ n ih =>
    rw [chunksN, ctrChunks, keystream, ih, ctrChunk, xorBytes_take_length, xorBytes_append_right, length_bytesOfBlock]

/-- `ctr_apply` is the XOR with the key stream from the first counter on, one block for each chunk (R221, R223). -/
theorem ctrApply_eq_xorBytes (sched : List Byte) (c0 : Block) (pol : CounterPolicy) (data : List Byte) :
    (ctrApply sched c0 pol data).1 =
      xorBytes data (keystream sched (firstCounter c0 pol) ((data.length + 15) / 16)) :=
  ctrChunks_chunksN sched _ _ data

/-! ### The obligations -/

/-- Settles O53, from the bytes of the key stream and the counter after the last chunk. -/
theorem ctrOutputBytesAndNextCounter : Obligations.CtrOutputBytesAndNextCounter := by
  rintro sched c0 pol data _ rfl
  refine ⟨length_ctrApply sched c0 pol data, fun j hj => ?_, ?_⟩
  · have hstream : j < 16 * ((data.length + 15) / 16) := by omega
    rw [ctrApply_eq_xorBytes, getD_xorBytes hj (by simpa using hstream), getD_keystream _ _ hstream,
      firstCounter_add_ofNat]
  · rw [ctrApply, ctrChunks_counter, length_chunks, firstCounter_add_ofNat]

/-- Settles O54: both times the data is XORed with the same key stream, its length being the same. -/
theorem ctrIsItsOwnInverse : Obligations.CtrIsItsOwnInverse := by
  intro sched c0 pol data
  rw [ctrApply_eq_xorBytes, length_ctrApply, ctrApply_eq_xorBytes]
  refine xorBytes_xorBytes ?_
  rw [length_keystream]
  omega

end Sys2Proof.Machine
end

section
/-! The command CTR (R225), and what a command's write to OUT leaves alone. -/

open Sys2Proof.Claim

namespace Sys2Proof.Machine

/-- A write of `n` bytes to OUT sets OUT_LEN to `n` (R225). -/
theorem writeOut_eq_memWrite (s : State) {bs : List Byte} {n : Word} (h : bs.length = n.toNat) :
    s.writeOut bs = { s.memWrite .output 0 bs with outLen := n } := by
  rw [State.writeOut, h, BitVec.ofNat_toNat, BitVec.setWidth_eq]

/-- A write to OUT leaves every other byte alone (R11). -/
theorem sameOutside_writeOut (s : State) (bs : List Byte) :
    SameOutside s.mem (s.writeOut bs).mem 0x3000 bs.length := fun x hx =>
  (readByte_memWrite s .output 0 bs x).trans (if_neg hx)

theorem exec_ctr_of_too_long (pol : CounterPolicy) {s : State} (hlen : s.inTooLong) :
    exec (.ctr pol) s = .next (s.raise (.ctr pol) .lengthError) := by
  simp only [exec, execCtr, if_pos hlen]

theorem exec_ctr_of_no_schedule (pol : CounterPolicy) {s : State} (hlen : ¬s.inTooLong) (h : s.schedInfo = none) :
    exec (.ctr pol) s = .next (s.raise (.ctr pol) .invalidKeyMaterial) := by
  simp only [exec, execCtr, if_neg hlen, h]

theorem exec_ctr_of_schedule (pol : CounterPolicy) {s : State} (hlen : ¬s.inTooLong) {k : KeySize}
    (hk : s.schedInfo = some k) :
    exec (.ctr pol) s = .next (((s.writeOut (ctrApply (s.schedBytes k) s.a pol s.inBytes).1).setR
      (ctrApply (s.schedBytes k) s.a pol s.inBytes).2).complete .ok) := by
  simp only [exec, execCtr, if_neg hlen, hk, finish_plain (i := .ctr pol) (.inl rfl)]

/-- Settles O33: with a schedule from what the write to OUT does, without one or with too long an input from the error
exit. -/
theorem ctrAppliesTheKeystream : Obligations.CtrAppliesTheKeystream := by
  refine fun s pol => ⟨fun hlen k hk => ?_, exec_ctr_of_too_long pol,
    fun hlen => exec_ctr_of_no_schedule pol (Nat.not_lt.mpr hlen)⟩
  have hbytes : (ctrApply (s.schedBytes k) s.a pol s.inBytes).1.length = s.inLen.toNat :=
    (length_ctrApply _ _ _ _).trans (length_memRead s .input 0 _)
  refine ⟨_, exec_ctr_of_schedule pol (Nat.not_lt.mpr hlen) hk, ?_, ?_, ?_⟩
  · rw [writeOut_eq_memWrite s hbytes]
    rfl
  · have hout := memRead_writeOut s (ctrApply (s.schedBytes k) s.a pol s.inBytes).1
    rwa [hbytes] at hout
  · rw [← hbytes]
    exact sameOutside_writeOut s _

end Sys2Proof.Machine
end

section
/-! GHASH (R240 to R244): the bytes of a padded block and of the length block, and what is folded in as a map that is linear
over xor in the accumulator and the data together. -/

open Sys2Proof.Claim

namespace Sys2Proof.Machine

/-! ### Zero bytes and XOR -/

@[simp] theorem getD_zeros (n j : Nat) : (zeros n).getD j 0 = 0 := by
  rw [zeros, List.getD_eq_getElem?_getD, List.getElem?_getD_replicate_default_eq]

/-- Zero bytes at the end are the bytes that are read past the end. -/
theorem getD_append_zeros (s : List Byte) (n j : Nat) : (s ++ zeros n).getD j 0 = s.getD j 0 := by
  rcases Nat.lt_or_ge j s.length with hj | hj
  · rw [List.getD_append _ _ _ _ hj]
  · rw [List.getD_append_right _ _ _ _ hj, getD_zeros, List.getD_eq_default _ _ hj]

/-- `getD_xorBytes` past the end as well, where the byte sequences have the same length (R8). -/
theorem getD_xorBytes_of_length_eq {s t : List Byte} (h : s.length = t.length) (j : Nat) :
    (xorBytes s t).getD j 0 = s.getD j 0 ^^^ t.getD j 0 := by
  rcases Nat.lt_or_ge j s.length with hj | hj
  · exact getD_xorBytes hj (h ▸ hj)
  · rw [List.getD_eq_default s _ hj, List.getD_eq_default t _ (h ▸ hj), List.getD_eq_default _ _ (by simp [hj])]
    rfl

theorem xorBytes_zeros_zeros (n : Nat) : xorBytes (zeros n) (zeros n) = zeros n := by
  simp [xorBytes, zeros]

/-! ### The bytes of a padded block and of the length block -/

/-- A padded block holds the chunk's bytes, then zero bytes (R241). -/
theorem blockByte_padBlock {chunk : List Byte} (hlen : chunk.length ≤ 16) {j : Nat} (hj : j < 16) :
    blockByte (padBlock chunk) j = chunk.getD j 0 := by
  have hpadded : (chunk ++ zeros (16 - chunk.length)).length = 16 := by
    rw [List.length_append, length_zeros]; omega
  rw [padBlock, blockByte_blockOfBytes hpadded hj, getD_append_zeros]

/-- Padding is linear over xor on chunks of the same length (R241). -/
theorem padBlock_xorBytes {c c' : List Byte} (hlen : c.length = c'.length) (hle : c.length ≤ 16) :
    padBlock (xorBytes c c') = padBlock c ^^^ padBlock c' := by
  refine block_ext fun j hj => ?_
  have hxor : (xorBytes c c').length ≤ 16 := by rw [length_xorBytes]; omega
  rw [blockByte_xor, blockByte_padBlock hxor hj, blockByte_padBlock hle hj, blockByte_padBlock (hlen ▸ hle) hj,
    getD_xorBytes_of_length_eq hlen]

/-- Bytes 0..7 of the length block are the first bit length, big-endian (R242). -/
theorem blockByte_lengthBlock_low (a c : Nat) {j : Nat} (hj : j < 8) :
    blockByte (lengthBlock a c) j = BitVec.ofNat 8 (8 * a / 2 ^ (8 * (7 - j))) := by
  rw [lengthBlock, blockByte_blockOfBytes (by simp) (by omega), List.getD_append _ _ _ _ (by simpa using hj),
    getD_beBytes hj]

/-- Bytes 8..15 of the length block are the second bit length, big-endian (R242). -/
theorem blockByte_lengthBlock_high (a c : Nat) {j : Nat} (hj : j < 8) :
    blockByte (lengthBlock a c) (8 + j) = BitVec.ofNat 8 (8 * c / 2 ^ (8 * (7 - j))) := by
  rw [lengthBlock, blockByte_blockOfBytes (by simp) (by omega), List.getD_append_right _ _ _ _ (by simp),
    length_beBytes, Nat.add_sub_cancel_left, getD_beBytes hj]

theorem lengthBlock_zero_zero : lengthBlock 0 0 = 0#128 := by decide

/-! ### What a data item folds in -/

theorem ghashData_nil (h acc : Block) : ghashData h acc [] = acc := by
  rw [ghashData, chunks_nil, List.foldl_nil]

/-- The first block of a data item, then the rest of it (R240). -/
theorem ghashData_of_ne_nil (h acc : Block) {data : List Byte} (hne : data ≠ []) :
    ghashData h acc data = ghashData h (ghashBlock h acc (data.take 16)) (data.drop 16) := by
  rw [ghashData, chunks_eq_cons hne, List.foldl_cons, ghashData]

/-- Folding in one block is linear over xor (R240, R241). -/
theorem ghashBlock_xor (h acc acc' : Block) {c c' : List Byte} (hlen : c.length = c'.length) (hle : c.length ≤ 16) :
    ghashBlock h (acc ^^^ acc') (xorBytes c c') = ghashBlock h acc c ^^^ ghashBlock h acc' c' := by
  have hregroup : acc ^^^ acc' ^^^ (padBlock c ^^^ padBlock c') = acc ^^^ padBlock c ^^^ (acc' ^^^ padBlock c') := by
    ac_rfl
  rw [ghashBlock, padBlock_xorBytes hlen hle, hregroup]
  exact xorLinear_mulGF128_left h _ _

/-- Folding in the first `n` chunks is linear over xor: each block is. -/
theorem foldl_ghashBlock_chunksN_xor (h acc acc' : Block) (n : Nat) {d d' : List Byte} (hlen : d.length = d'.length) :
    (chunksN n (xorBytes d d')).foldl (ghashBlock h) (acc ^^^ acc') =
      (chunksN n d).foldl (ghashBlock h) acc ^^^ (chunksN n d').foldl (ghashBlock h) acc' := by
  induction n generalizing acc acc' d d' with
  | zero => rfl
  | succ n ih =>
    have htake : (xorBytes d d').take 16 = xorBytes (d.take 16) (d'.take 16) := List.take_zipWith
    have hdrop : (xorBytes d d').drop 16 = xorBytes (d.drop 16) (d'.drop 16) := List.drop_zipWith
    simp only [chunksN, List.foldl_cons]
    rw [htake, hdrop, ghashBlock_xor h acc acc' (by simp [hlen]) (by simp), ih _ _ (by simp [hlen])]

/-- Folding in a data item is linear over xor in the accumulator and the data, for data of one length (R244). -/
theorem ghashData_xor (h acc acc' : Block) {d d' : List Byte} (hlen : d.length = d'.length) :
    ghashData h (acc ^^^ acc') (xorBytes d d') = ghashData h acc d ^^^ ghashData h acc' d' := by
  have hxor : (xorBytes d d').length = d.length := by rw [length_xorBytes, ← hlen, Nat.min_self]
  rw [ghashData, ghashData, ghashData, chunks, chunks, chunks, hxor, ← hlen]
  exact foldl_ghashBlock_chunksN_xor h acc acc' _ hlen

/-- Zero bytes fold nothing into a zero accumulator. -/
theorem ghashData_zero_zeros (h : Block) (n : Nat) : ghashData h 0 (zeros n) = 0 := by
  have hself := ghashData_xor h 0 0 (rfl : (zeros n).length = (zeros n).length)
  rwa [xorBytes_zeros_zeros, BitVec.xor_self, BitVec.xor_self] at hself

/-! ### The hash -/

/-- The hash as the part that is linear in the inputs and the part of the length block (R240). -/
theorem ghash_eq_xor (h : Block) (aad ct : List Byte) (acc : Block) :
    ghash h aad ct acc =
      mulGF128 (ghashData h (ghashData h acc aad) ct) h ^^^ mulGF128 (lengthBlock aad.length ct.length) h :=
  xorLinear_mulGF128_left h _ _

/-- The hash of two empty inputs (R244). -/
theorem ghash_nil_nil (h acc : Block) : ghash h [] [] acc = mulGF128 acc h := by
  rw [ghash, ghashData_nil, ghashData_nil, List.length_nil, lengthBlock_zero_zero, BitVec.xor_zero]

/-- With H zero the hash is zero (R244). -/
theorem ghash_zero_key (aad ct : List Byte) (acc : Block) : ghash 0 aad ct acc = 0 :=
  (xorLinear_mulGF128_right _).map_zero

/-- For fixed lengths the hash is affine: its constant is the hash of zero bytes from a zero accumulator (R244). -/
theorem ghash_xor_ghash (h acc acc' : Block) {aad aad' ct ct' : List Byte} (haad : aad.length = aad'.length)
    (hct : ct.length = ct'.length) :
    ghash h aad ct acc ^^^ ghash h aad' ct' acc' =
      ghash h (xorBytes aad aad') (xorBytes ct ct') (acc ^^^ acc') ^^^
        ghash h (zeros aad.length) (zeros ct.length) 0 := by
  have hlinear := xorLinear_mulGF128_left h (ghashData h (ghashData h acc aad) ct)
    (ghashData h (ghashData h acc' aad') ct')
  simp only [ghash_eq_xor, ghashData_xor _ _ _ haad, ghashData_xor _ _ _ hct, ghashData_zero_zeros, hlinear,
    mulGF128_zero_left, length_xorBytes, length_zeros, ← haad, ← hct, Nat.min_self]
  ac_rfl

/-- Settles O55, from the bytes of each block folded in and from linearity of the fold. -/
theorem ghashIsAffine : Obligations.GhashIsAffine := by
  refine ⟨fun _ _ _ _ => rfl, ghashData_nil, fun h acc _ => ghashData_of_ne_nil h acc,
    fun _ hlen _ hj => blockByte_padBlock hlen hj,
    fun a c _ hj => ⟨blockByte_lengthBlock_low a c hj, blockByte_lengthBlock_high a c hj⟩, ghash_nil_nil, ?_,
    fun h acc acc' _ _ _ _ => ghash_xor_ghash h acc acc'⟩
  rintro _ aad ct acc rfl
  exact ghash_zero_key aad ct acc

end Sys2Proof.Machine
end

section
/-! The command GHASH (R245). -/

open Sys2Proof.Claim

namespace Sys2Proof.Machine

theorem exec_ghash_of_too_long {s : State} (hlen : s.aadTooLong ∨ s.inTooLong) :
    exec .ghash s = .next (s.raise .ghash .lengthError) := by
  simp only [exec, execGhash, if_pos hlen]

theorem exec_ghash_of_lengths {s : State} (haad : ¬s.aadTooLong) (hin : ¬s.inTooLong) :
    exec .ghash s = .next ((s.setR (ghash s.a s.aadBytes s.inBytes s.b)).finish .ghash .ok) := by
  simp only [exec, execGhash, if_neg (not_or.mpr ⟨haad, hin⟩)]

/-- Settles O34: R takes the hash, or is cleared by the error exit. -/
theorem ghashCommandWritesTheHash : Obligations.GhashCommandWritesTheHash := fun _ =>
  ⟨fun haad hin => (exec_ghash_of_lengths (Nat.not_lt.mpr haad) (Nat.not_lt.mpr hin)).trans
    (congrArg Host.Outcome.next (finish_setR rfl _)), exec_ghash_of_too_long⟩

end Sys2Proof.Machine
end

section
/-! GF(2^128) has no zero divisors (R163 to R165). The map `y * y + y` (Artin and Schreier's) is linear over xor, and repeated
on one Block it makes a chain that ends in the identity. The chain spans all Blocks, so from every non-zero Block the map
leads to the identity; and it keeps what multiplies with a given Block to zero. -/

namespace Sys2Proof.Machine

/-! ### Products in any order -/

/-- Halving commutes with multiplication (R164, R165). -/
theorem mulGF128_halve_right (x : Block) : Function.Semiconj (mulGF128 x) halve halve := fun y => by
  refine XorLinear.ext (f := (mulGF128 · (halve y))) (g := fun x => halve (mulGF128 x y)) (xorLinear_mulGF128_left _)
    (fun x x' => ?_) (fun k hk => ?_) x
  · simp only [xorLinear_mulGF128_left y x x', halve_xor]
  · obtain ⟨i, hi, rfl⟩ : ∃ i < 128, k = 127 - i := ⟨127 - k, by omega, by omega⟩
    simp only [mulGF128_twoPow hi]
    rw [← Function.iterate_succ_apply, Function.iterate_succ_apply']

/-- Multiplication in GF(2^128) is associative (R165). -/
theorem mulGF128_assoc (x y z : Block) : mulGF128 (mulGF128 x y) z = mulGF128 x (mulGF128 y z) := by
  refine XorLinear.ext (f := fun z => mulGF128 (mulGF128 x y) z) (g := fun z => mulGF128 x (mulGF128 y z))
    (xorLinear_mulGF128_right _) (fun z z' => ?_) (fun k hk => ?_) z
  · simp only [xorLinear_mulGF128_right y z z', xorLinear_mulGF128_right x _ _]
  · obtain ⟨i, hi, rfl⟩ : ∃ i < 128, k = 127 - i := ⟨127 - k, by omega, by omega⟩
    simp only [mulGF128_comm _ (BitVec.twoPow 128 (127 - i)), mulGF128_twoPow hi,
      ((mulGF128_halve_right x).iterate_right i).eq]

/-! ### The map `y * y + y` -/

/-- The map `y * y + y` of GF(2^128). -/
def artinSchreier (y : Block) : Block := mulGF128 y y ^^^ y

theorem xorLinear_artinSchreier : XorLinear artinSchreier := fun x y => by
  have hcancel : ∀ p q r : Block, p ^^^ q ^^^ (q ^^^ r) = p ^^^ r := fun p q r => by
    rw [BitVec.xor_assoc, ← BitVec.xor_assoc q q r, BitVec.xor_self, BitVec.zero_xor]
  have hsquare : mulGF128 (x ^^^ y) (x ^^^ y) = mulGF128 x x ^^^ mulGF128 y y := by
    refine (xorLinear_mulGF128_left _ x y).trans ?_
    beta_reduce
    rw [xorLinear_mulGF128_right, xorLinear_mulGF128_right, mulGF128_comm y x, hcancel]
  rw [artinSchreier, artinSchreier, artinSchreier, hsquare]
  ac_rfl

theorem xorLinear_iterate_artinSchreier (n : Nat) : XorLinear artinSchreier^[n] := fun x y => by
  induction n with
  | zero => rfl
  | succ n ih => simp only [Function.iterate_succ_apply', ih, xorLinear_artinSchreier _ _]

/-- From the Block 1, the element `x^127`, the map leads to the identity in 127 steps: the trace of `x^127` is 1. -/
theorem iterate_artinSchreier_one : artinSchreier^[127] 1 = BitVec.twoPow 128 127 := by decide +kernel

theorem artinSchreier_identity : artinSchreier (BitVec.twoPow 128 127) = 0 := by decide +kernel

/-- The sum of the chain 1, `artinSchreier 1`, `artinSchreier (artinSchreier 1)` and so on over the lowest `n` bits of `c`,
bit `n - 1` with the chain's beginning. -/
def chainSum (c : Block) : Nat → Block
  | 0 => 0
  | n + 1 => if c.getLsbD n then artinSchreier (chainSum c n) ^^^ 1 else artinSchreier (chainSum c n)

theorem xorLinear_chainSum (n : Nat) : XorLinear (chainSum · n) := fun c c' => by
  induction n with
  | zero => exact (BitVec.xor_self (x := (0 : Block))).symm
  | succ n ih => simp only [chainSum, ih, xorLinear_artinSchreier _ _, condXor_xor_condXor, BitVec.getLsbD_xor]

/-- After 128 steps nothing is left of the chain. -/
theorem iterate_artinSchreier_chainSum (c : Block) (n : Nat) : artinSchreier^[128] (chainSum c n) = 0 := by
  have hone : artinSchreier^[128] 1 = 0 := by
    rw [Function.iterate_succ_apply', iterate_artinSchreier_one, artinSchreier_identity]
  induction n with
  | zero => exact (xorLinear_iterate_artinSchreier 128).map_zero
  | succ n ih =>
    have hshift : artinSchreier^[128] (artinSchreier (chainSum c n)) = 0 := by
      rw [← Function.iterate_succ_apply, Function.iterate_succ_apply', ih, xorLinear_artinSchreier.map_zero]
    rw [chainSum]
    split
    · rw [xorLinear_iterate_artinSchreier, hshift, hone]
      exact BitVec.xor_self
    · exact hshift

/-- A sum with a summand leads to the identity: the summand nearest to the chain's beginning gets there last. -/
theorem exists_iterate_chainSum_eq_identity {c : Block} {n i : Nat} (hn : n ≤ 128) (hi : i < n)
    (hbit : c.getLsbD i = true) :
    ∃ k, 128 - n ≤ k ∧ artinSchreier^[k] (chainSum c n) = BitVec.twoPow 128 127 := by
  induction n with
  | zero => omega
  | succ n ih =>
    rw [chainSum]
    cases hlast : c.getLsbD n with
    | true =>
      refine ⟨127, by omega, ?_⟩
      rw [if_pos rfl, xorLinear_iterate_artinSchreier, iterate_artinSchreier_one, ← Function.iterate_succ_apply,
        iterate_artinSchreier_chainSum]
      exact BitVec.zero_xor
    | false =>
      have hne : i ≠ n := by rintro rfl; rw [hbit] at hlast; cases hlast
      obtain ⟨k, hk, hchain⟩ := ih (by omega) (by omega)
      obtain ⟨k, rfl⟩ := Nat.exists_eq_succ_of_ne_zero (show k ≠ 0 by omega)
      exact ⟨k, by omega, hchain⟩

theorem exists_iterate_chainSum_of_ne_zero {c : Block} (hc : c ≠ 0) :
    ∃ k, artinSchreier^[k] (chainSum c 128) = BitVec.twoPow 128 127 := by
  obtain ⟨i, hi, hbit⟩ : ∃ i < 128, c.getLsbD i = true := by
    by_contra hno
    push Not at hno
    exact hc (BitVec.eq_of_getLsbD_eq fun i hi => by simpa using hno i hi)
  obtain ⟨k, -, hk⟩ := exists_iterate_chainSum_eq_identity le_rfl hi hbit
  exact ⟨k, hk⟩

/-- No two sums of the chain are equal: their difference leads to the identity. -/
theorem chainSum_injective : Function.Injective (chainSum · 128) := fun c c' hcc => by
  by_contra hne
  obtain ⟨k, hk⟩ := exists_iterate_chainSum_of_ne_zero (mt (BitVec.xor_eq_zero_iff (x := c) (y := c')).mp hne)
  have hzero : chainSum (c ^^^ c') 128 = 0 := (xorLinear_chainSum 128 c c').trans (BitVec.xor_eq_zero_iff.mpr hcc)
  rw [hzero, (xorLinear_iterate_artinSchreier k).map_zero] at hk
  exact absurd hk (by decide)

/-- The map leads from every non-zero Block to the identity: the sums of the chain are as many as the Blocks, so every Block
is one. -/
theorem exists_iterate_artinSchreier_eq_identity {y : Block} (hy : y ≠ 0) :
    ∃ k, artinSchreier^[k] y = BitVec.twoPow 128 127 := by
  obtain ⟨c, rfl⟩ := Finite.surjective_of_injective chainSum_injective y
  exact exists_iterate_chainSum_of_ne_zero fun hc => hy (by rw [hc]; exact (xorLinear_chainSum 128).map_zero)

/-! ### No zero divisors -/

/-- What multiplies with `a` to zero is kept by the map. -/
theorem mulGF128_iterate_artinSchreier_eq_zero {a y : Block} (h : mulGF128 a y = 0) (k : Nat) :
    mulGF128 a (artinSchreier^[k] y) = 0 := by
  induction k with
  | zero => exact h
  | succ k ih =>
    rw [Function.iterate_succ_apply', artinSchreier, xorLinear_mulGF128_right, ← mulGF128_assoc, ih, mulGF128_zero_left,
      BitVec.xor_self]
    rfl

/-- GF(2^128) has no zero divisors (R165): what multiplies with a non-zero Block to zero multiplies with the identity to
zero. -/
theorem eq_zero_of_mulGF128_eq_zero {a h : Block} (hh : h ≠ 0) (hmul : mulGF128 a h = 0) : a = 0 := by
  obtain ⟨k, hk⟩ := exists_iterate_artinSchreier_eq_identity hh
  have hone := mulGF128_iterate_artinSchreier_eq_zero hmul k
  rwa [hk, mulGF128_comm, show BitVec.twoPow 128 127 = 0x80#8 ++ 0#120 by decide, mulGF128_one_left] at hone

/-- Multiplication by a non-zero Block is injective (R165). -/
theorem mulGF128_left_injective {h : Block} (hh : h ≠ 0) : Function.Injective (mulGF128 · h) := fun x y hxy =>
  BitVec.xor_eq_zero_iff.mp (eq_zero_of_mulGF128_eq_zero hh
    ((xorLinear_mulGF128_left h x y).trans (BitVec.xor_eq_zero_iff.mpr hxy)))

end Sys2Proof.Machine
end

section
/-! GCM on byte sequences (R260 to R266): what `gcmEncrypt` gives and when `gcmDecrypt` answers a plaintext, and that with a
non-zero H the tag tells apart data that differ in one byte; and the two statements about them. -/

open Sys2Proof.Claim

namespace Sys2Proof.Machine

/-! ### Encryption -/

/-- The two cases of J0 (R262) determine it. -/
theorem eq_deriveJ0_iff {h j0 : Block} {nonce : List Byte} :
    j0 = deriveJ0 h nonce ↔
      (nonce.length = 12 → bytesOfBlock j0 = nonce ++ [0x00, 0x00, 0x00, 0x01]) ∧
        (nonce.length ≠ 12 → j0 = ghash h [] nonce 0) := by
  by_cases h12 : nonce.length = 12
  · have hbytes : bytesOfBlock (deriveJ0 h nonce) = nonce ++ [0x00, 0x00, 0x00, 0x01] := by
      rw [deriveJ0, if_pos h12, bytesOfBlock_blockOfBytes (by simp [h12])]
    refine ⟨fun hj => ⟨fun _ => hj ▸ hbytes, fun hne => absurd h12 hne⟩, fun ⟨hfast, _⟩ => ?_⟩
    rw [← blockOfBytes_bytesOfBlock j0, hfast h12, ← hbytes, blockOfBytes_bytesOfBlock]
  · simp [deriveJ0, h12]

/-- The length and the bytes of counter mode's output with the counter incremented first (R221, R222) determine it. -/
theorem eq_ctrApply_preIncrement_iff {sched data out : List Byte} {c0 : Block} :
    out = (ctrApply sched c0 .preIncrement data).1 ↔
      out.length = data.length ∧ ∀ j < data.length, out.getD j 0 =
        data.getD j 0 ^^^ blockByte (encryptBlock sched (BitVec.ofNat 128 (c0.toNat + 1 + j / 16))) (j % 16) := by
  obtain ⟨hlen, hbyte, -⟩ := ctrOutputBytesAndNextCounter sched c0 .preIncrement data 1 rfl
  refine ⟨?_, fun ⟨houtlen, hout⟩ => List.ext_getElem (houtlen.trans hlen.symm) fun j hj hj' => ?_⟩
  · rintro rfl
    exact ⟨hlen, hbyte⟩
  · rw [← List.getD_eq_getElem _ 0 hj, ← List.getD_eq_getElem _ 0 hj', hout j (houtlen ▸ hj), hbyte j (houtlen ▸ hj)]

/-- J0 of R262 under the H of a key. -/
def keyJ0 (key : Key) (nonce : List Byte) : Block := deriveJ0 (hashKey (expandKey key)) nonce

theorem gcmEncrypt_fst (key : Key) (nonce pt aad : List Byte) :
    (gcmEncrypt key nonce pt aad).1 = (ctrApply (expandKey key) (keyJ0 key nonce) .preIncrement pt).1 := rfl

theorem gcmEncrypt_snd (key : Key) (nonce pt aad : List Byte) :
    (gcmEncrypt key nonce pt aad).2 =
      gcmTag (expandKey key) (keyJ0 key nonce) aad (gcmEncrypt key nonce pt aad).1 := rfl

/-- Encryption gives what R261 to R263 say, and nothing else is that. -/
theorem isGcmResult_iff {key : Key} {nonce pt aad ct : List Byte} {tag : Block} :
    IsGcmResult key nonce pt aad ct tag ↔
      ct = (gcmEncrypt key nonce pt aad).1 ∧ tag = (gcmEncrypt key nonce pt aad).2 := by
  constructor
  · rintro ⟨_, _, j0, rfl, rfl, hfast, hslow, hlen, hct, rfl⟩
    obtain rfl : j0 = keyJ0 key nonce := eq_deriveJ0_iff.mpr ⟨hfast, hslow⟩
    obtain rfl := eq_ctrApply_preIncrement_iff.mpr ⟨hlen, hct⟩
    exact ⟨rfl, rfl⟩
  · rintro ⟨rfl, rfl⟩
    obtain ⟨hfast, hslow⟩ := eq_deriveJ0_iff.mp (rfl : keyJ0 key nonce = _)
    obtain ⟨hlen, hct⟩ := eq_ctrApply_preIncrement_iff.mp (gcmEncrypt_fst key nonce pt aad)
    exact ⟨_, _, _, rfl, rfl, hfast, hslow, hlen, hct, rfl⟩

/-! ### Decryption -/

/-- Decryption refuses every tag but the one over the ciphertext (R265, R266). -/
theorem gcmDecrypt_eq_none {key : Key} {nonce ct aad : List Byte} {tag : Block}
    (h : gcmTag (expandKey key) (keyJ0 key nonce) aad ct ≠ tag) : gcmDecrypt key nonce ct aad tag = none :=
  if_neg (mt of_decide_eq_true h)

/-- Decryption of an encrypted plaintext gives it back (R272). -/
theorem gcmDecrypt_gcmEncrypt (key : Key) (nonce pt aad : List Byte) :
    gcmDecrypt key nonce (gcmEncrypt key nonce pt aad).1 aad (gcmEncrypt key nonce pt aad).2 = some pt :=
  (if_pos (decide_eq_true rfl)).trans (congrArg some (ctrIsItsOwnInverse _ _ _ pt))

/-- Decryption answers a plaintext exactly when its encryption is the ciphertext with that tag (R265, R272). -/
theorem gcmDecrypt_eq_some_iff {key : Key} {nonce pt ct aad : List Byte} {tag : Block} :
    gcmDecrypt key nonce ct aad tag = some pt ↔
      ct = (gcmEncrypt key nonce pt aad).1 ∧ tag = (gcmEncrypt key nonce pt aad).2 := by
  constructor
  · intro h
    obtain rfl : gcmTag (expandKey key) (keyJ0 key nonce) aad ct = tag := by
      by_contra hne
      rw [gcmDecrypt_eq_none hne] at h
      cases h
    obtain rfl : (ctrApply (expandKey key) (keyJ0 key nonce) .preIncrement ct).1 = pt :=
      Option.some.inj ((if_pos (decide_eq_true rfl)).symm.trans h)
    have hct : (gcmEncrypt key nonce (ctrApply (expandKey key) (keyJ0 key nonce) .preIncrement ct).1 aad).1 = ct :=
      ctrIsItsOwnInverse _ _ _ ct
    rw [gcmEncrypt_snd, hct]
    exact ⟨rfl, rfl⟩
  · rintro ⟨rfl, rfl⟩
    exact gcmDecrypt_gcmEncrypt key nonce pt aad

/-- Settles O56, from the round trip and the refusal of every other tag. -/
theorem gcmRoundTripAndTagCheck : Obligations.GcmRoundTripAndTagCheck := fun key nonce pt aad _ =>
  ⟨gcmDecrypt_gcmEncrypt key nonce pt aad, length_gcmEncrypt key nonce pt aad,
    fun htag => gcmDecrypt_eq_none (gcmEncrypt_snd key nonce pt aad ▸ htag.symm)⟩

/-! ### One changed byte -/

theorem padBlock_modify_ne {chunk : List Byte} {i : Nat} (hi : i < chunk.length) (hlen : chunk.length ≤ 16)
    {f : Byte → Byte} (hf : ∀ x, f x ≠ x) : padBlock (chunk.modify i f) ≠ padBlock chunk := fun heq => by
  have hbyte := congrArg (blockByte · i) heq
  beta_reduce at hbyte
  rw [blockByte_padBlock (by simpa using hlen) (by omega), blockByte_padBlock hlen (by omega),
    List.getD_eq_getElem _ _ (by simpa using hi), List.getD_eq_getElem _ _ hi, List.getElem_modify_eq] at hbyte
  exact hf _ hbyte

theorem ghashBlock_left_injective {h : Block} (hh : h ≠ 0) (chunk : List Byte) :
    Function.Injective (ghashBlock h · chunk) := fun _ _ heq =>
  (BitVec.xor_left_inj _).mp (mulGF128_left_injective hh heq)

/-- With a non-zero H, what is folded in after a difference keeps it. -/
theorem ghashData_left_injective {h : Block} (hh : h ≠ 0) (data : List Byte) :
    Function.Injective (ghashData h · data) := by
  simp only [ghashData]
  induction chunks data with
  | nil => exact Function.injective_id
  | cons chunk rest ih => exact ih.comp (ghashBlock_left_injective hh chunk)

/-- With a non-zero H, data that differ in one byte are folded into different Blocks: the accumulators differ from the block
of that byte on. -/
theorem ghashData_modify_ne {h : Block} (hh : h ≠ 0) (acc : Block) {data : List Byte} {i : Nat} (hi : i < data.length)
    {f : Byte → Byte} (hf : ∀ x, f x ≠ x) : ghashData h acc (data.modify i f) ≠ ghashData h acc data := by
  have hne : data ≠ [] := List.ne_nil_of_length_pos (by omega)
  rw [ghashData_of_ne_nil h acc hne, ghashData_of_ne_nil h acc (by simpa using hne), List.take_modify]
  by_cases hfirst : i < 16
  · rw [List.drop_modify_of_lt _ _ _ _ hfirst]
    refine (ghashData_left_injective hh _).ne ((mulGF128_left_injective hh).ne fun heq => ?_)
    exact padBlock_modify_ne (by rw [List.length_take]; omega) (by simp) hf ((BitVec.xor_right_inj acc).mp heq)
  · rw [List.modify_eq_self (by rw [List.length_take]; omega), List.drop_modify_of_ge _ _ _ _ (by omega)]
    exact ghashData_modify_ne hh _ (by rw [List.length_drop]; omega) hf
termination_by i

/-- With a non-zero H, inputs of the same lengths that are folded into different Blocks have different tags (R263). -/
theorem gcmTag_ne {sched aad aad' ct ct' : List Byte} (hh : hashKey sched ≠ 0) (j0 : Block)
    (haad : aad'.length = aad.length) (hct : ct'.length = ct.length)
    (hne : ghashData (hashKey sched) (ghashData (hashKey sched) 0 aad') ct' ≠
      ghashData (hashKey sched) (ghashData (hashKey sched) 0 aad) ct) :
    gcmTag sched j0 aad' ct' ≠ gcmTag sched j0 aad ct := fun htag => by
  have hhash := mulGF128_left_injective hh ((BitVec.xor_right_inj _).mp htag)
  rw [haad, hct] at hhash
  exact hne ((BitVec.xor_left_inj _).mp hhash)

theorem xor_one_shiftLeft_ne {j : Nat} (hj : j < 8) (x : Byte) : x ^^^ ((1 : Byte) <<< j) ≠ x := by
  have hbit : (1 : Byte) <<< j ≠ 0 := by revert j; decide
  rwa [Ne, ← BitVec.xor_eq_zero_iff, BitVec.xor_comm, ← BitVec.xor_assoc, BitVec.xor_self, BitVec.zero_xor]

/-- Settles O57: the flipped bit changes what is folded in, hence the tag. -/
theorem oneFlippedBitIsDetected : Obligations.OneFlippedBitIsDetected := by
  intro key nonce pt aad i j hj hh
  have hflip := xor_one_shiftLeft_ne hj
  refine ⟨fun hi => gcmDecrypt_eq_none ?_, fun hi => gcmDecrypt_eq_none ?_⟩
  · exact gcmTag_ne hh _ rfl (List.length_modify _ _ _) (ghashData_modify_ne hh _ (by rwa [length_gcmEncrypt]) hflip)
  · exact gcmTag_ne hh _ (List.length_modify _ _ _) rfl
      ((ghashData_left_injective hh _).ne (ghashData_modify_ne hh _ hi hflip))

end Sys2Proof.Machine
end

section
/-! The exits of the composite commands (R270, R271, R300, R301, R326, R343) and the commands GCM_ENCRYPT and GCM_DECRYPT. -/

open Sys2Proof.Claim

namespace Sys2Proof.Machine

/-! ### What the exit of a composite command leaves -/

/-- The exit writes SCHED, SCHED_INFO, STATUS and the sequencer only (R323, R326). -/
theorem finish_eq_with (u : State) (i : Instr) (e : ErrCode) :
    u.finish i e = { u with
      mem := (u.finish i e).mem, schedInfo := (u.finish i e).schedInfo, seq := .idle, status := doneStatus u e } := by
  unfold State.finish
  split <;> rfl

theorem memRead_output_finish (u : State) (i : Instr) (e : ErrCode) (n : Nat) :
    (u.finish i e).memRead .output 0 n = u.memRead .output 0 n :=
  memRead_congr fun j _ => readByte_finish u i e (by simp only [Buf.base]; omega)

theorem memRead_sched_writeOut (u : State) (bs : List Byte) :
    (u.writeOut bs).memRead .sched 0 240 = u.memRead .sched 0 240 :=
  memRead_congr fun j hj => readByte_writeOut u bs (by simp only [Buf.base]; omega)

/-- A composite command that has stored its schedule leaves it or clears it, as HARDEN says (R326). -/
theorem schedAfterComposite_finish (s u : State) {i : Instr} {key : Key} (hi : isComposite i = true)
    (hctrl : u.ctrl = s.ctrl) (hinfo : u.schedInfo = some key.size)
    (hsched : u.memRead .sched 0 240 = expandKey key ++ zeros (240 - (expandKey key).length)) (e : ErrCode) :
    SchedAfterComposite s (u.finish i e) key := by
  unfold SchedAfterComposite
  split
  case isTrue hh =>
    rw [finish_hardened hi (by rw [hctrl, hh])]
    exact ⟨rfl, memRead_hardenZeroize u⟩
  case isFalse hh =>
    rw [finish_plain (.inr (by rw [hctrl]; exact Bool.eq_false_iff.mpr hh))]
    exact ⟨hinfo, hsched⟩

/-- The state in which a composite command succeeds, before its exit: the schedule of `key` is stored, `bs` is in OUT and `v`
in R. -/
def State.answered (s : State) (key : Key) (bs : List Byte) (v : Block) : State :=
  ((s.storeSchedule key.size (expandKey key)).writeOut bs).setR v

/-- A composite command that succeeds with `n` bytes for OUT changes OUT, OUT_LEN, R, SCHED, SCHED_INFO, STATUS and the
sequencer (R270, R271, R301). -/
theorem finish_answered {s : State} {i : Instr} (hi : isComposite i = true) (key : Key) {bs : List Byte} {n : Word}
    (hbs : bs.length = n.toNat) (v : Block) :
    (s.answered key bs v).finish i .ok = { s with
      mem := ((s.answered key bs v).finish i .ok).mem, outLen := n
      schedInfo := ((s.answered key bs v).finish i .ok).schedInfo, r := v, seq := .idle, status := doneStatus s .ok } ∧
    ((s.answered key bs v).finish i .ok).memRead .output 0 n.toNat = bs ∧
    SchedAfterComposite s ((s.answered key bs v).finish i .ok) key ∧
    SameOutsideSchedAndOut s.mem ((s.answered key bs v).finish i .ok).mem n.toNat := by
  refine ⟨?_, ?_, schedAfterComposite_finish s _ hi ?_ ?_ ?_ _, fun x hsched hout => ?_⟩
  · refine (finish_eq_with _ i .ok).trans ?_
    simp [State.answered, doneStatus, hbs]
  · rw [memRead_output_finish, ← hbs]
    exact memRead_writeOut _ bs
  · rw [State.answered, setR_ctrl, writeOut_ctrl, storeSchedule_ctrl]
  · rw [State.answered, setR_schedInfo, writeOut_schedInfo, storeSchedule_schedInfo]
  · exact (memRead_sched_writeOut _ bs).trans (memRead_storeSchedule s key)
  · rw [readByte_finish _ i .ok hsched, ← readByte_storeSchedule s key hsched]
    exact sameOutside_writeOut _ bs x (hbs ▸ hout)

/-- The error writes of a composite command (R343). -/
theorem onError_of_composite {i : Instr} (hi : isComposite i = true) (u : State) :
    u.onError i = { u with outLen := 0, r := 0 } := by
  rw [State.onError, cmdClass_of_composite hi]

/-- The end of a composite command whose tag check failed: the schedule of `key` is stored before the check (R271, R343). -/
def State.tagRefused (s : State) (i : Instr) (key : Key) : State :=
  (s.storeSchedule key.size (expandKey key)).raise i .authenticationFailure

/-- A composite command whose tag check failed leaves OUT alone and clears OUT_LEN and R (R271, R301, R343). -/
theorem tagRefused_spec (s : State) {i : Instr} (hi : isComposite i = true) (key : Key) :
    s.tagRefused i key = { s with
      mem := (s.tagRefused i key).mem, outLen := 0, schedInfo := (s.tagRefused i key).schedInfo, r := 0, seq := .idle
      status := doneStatus s .authenticationFailure } ∧
    SchedAfterComposite s (s.tagRefused i key) key ∧ SameOutside s.mem (s.tagRefused i key).mem 0x600 240 := by
  refine ⟨(finish_eq_with _ i _).trans ?_, schedAfterComposite_finish s _ hi ?_ ?_ ?_ _, fun x hx => ?_⟩
  · simp [State.tagRefused, State.raise, doneStatus, onError_of_composite hi]
  · rw [onError_ctrl, storeSchedule_ctrl]
  · rw [onError_schedInfo, storeSchedule_schedInfo]
  · rw [State.memRead, onError_mem]
    exact memRead_storeSchedule s key
  · rw [State.tagRefused, State.raise, readByte_finish _ i _ hx, onError_mem]
    exact readByte_storeSchedule s key hx

/-! ### GCM_ENCRYPT and GCM_DECRYPT -/

/-- The lengths that GCM_ENCRYPT and GCM_DECRYPT accept (R345). -/
theorem gcmLengths_iff (s : State) : ¬(s.aadTooLong ∨ s.inTooLong ∨ s.nonceTooLong) ↔
    s.aadLen.toNat ≤ s.params.bufBytes ∧ s.inLen.toNat ≤ s.params.bufBytes ∧ s.nonceLen.toNat ≤ 64 := by
  simp only [not_or, Nat.not_lt]

theorem exec_gcmEncrypt_of_key {s : State} (hlen : ¬(s.aadTooLong ∨ s.inTooLong ∨ s.nonceTooLong)) {key : Key}
    (hkey : s.keyFromReg = some key) :
    exec .gcmEncrypt s = .next ((s.answered key (gcmEncrypt key s.nonceBytes s.inBytes s.aadBytes).1
      (gcmEncrypt key s.nonceBytes s.inBytes s.aadBytes).2).finish .gcmEncrypt .ok) := by
  simp only [exec, execGcmEncrypt, if_neg hlen, hkey, State.answered]

theorem exec_gcmDecrypt_of_opened {s : State} (hlen : ¬(s.aadTooLong ∨ s.inTooLong ∨ s.nonceTooLong)) {key : Key}
    (hkey : s.keyFromReg = some key) {pt : List Byte}
    (hpt : gcmDecrypt key s.nonceBytes s.inBytes s.aadBytes s.b = some pt) :
    exec .gcmDecrypt s = .next ((s.answered key pt 0).finish .gcmDecrypt .ok) := by
  simp only [exec, execGcmDecrypt, if_neg hlen, hkey, hpt, State.answered]

theorem exec_gcmDecrypt_of_refused {s : State} (hlen : ¬(s.aadTooLong ∨ s.inTooLong ∨ s.nonceTooLong)) {key : Key}
    (hkey : s.keyFromReg = some key) (hrefused : gcmDecrypt key s.nonceBytes s.inBytes s.aadBytes s.b = none) :
    exec .gcmDecrypt s = .next (s.tagRefused .gcmDecrypt key) := by
  simp only [exec, execGcmDecrypt, if_neg hlen, hkey, hrefused, State.tagRefused]

/-- Settles O35, from the bytes of `gcmEncrypt` and the exit of a composite command that succeeds. -/
theorem gcmEncryptWritesCiphertextAndTag : Obligations.GcmEncryptWritesCiphertextAndTag := by
  refine ⟨fun key nonce pt aad => isGcmResult_iff.mpr ⟨rfl, rfl⟩, fun s key haad hin hnonce hkey => ?_⟩
  have hlen : (gcmEncrypt key s.nonceBytes s.inBytes s.aadBytes).1.length = s.inLen.toNat :=
    (length_gcmEncrypt _ _ _ _).trans (length_memRead s .input 0 _)
  exact ⟨_, exec_gcmEncrypt_of_key ((gcmLengths_iff s).mpr ⟨haad, hin, hnonce⟩) hkey, finish_answered rfl key hlen _⟩

/-- Settles O36, from when `gcmDecrypt` answers a plaintext and from the two exits of a composite command. -/
theorem gcmDecryptVerifiesThenDecrypts : Obligations.GcmDecryptVerifiesThenDecrypts := by
  refine ⟨fun key nonce pt ct aad tag => gcmDecrypt_eq_some_iff.trans isGcmResult_iff.symm,
    fun s key haad hin hnonce hkey => ?_⟩
  have hlens := (gcmLengths_iff s).mpr ⟨haad, hin, hnonce⟩
  refine ⟨fun pt hpt => ?_, fun hrefused => ?_⟩
  · have hlen : pt.length = s.inLen.toNat := (length_of_gcmDecrypt hpt).trans (length_memRead s .input 0 _)
    exact ⟨_, exec_gcmDecrypt_of_opened hlens hkey hpt, finish_answered rfl key hlen 0⟩
  · exact ⟨_, exec_gcmDecrypt_of_refused hlens hkey hrefused, tagRefused_spec s rfl key⟩

end Sys2Proof.Machine
end

section
/-! A failed authentication discloses nothing (R267, R271, R301, R343); and GCM_DECRYPT after GCM_ENCRYPT on the machine
(R272). -/

open Sys2Proof.Claim

namespace Sys2Proof.Machine

/-! ### Authentication failure -/

/-- The key that a decrypting command uses (R271, R301). -/
def State.decryptKey (s : State) : Instr → Option Key
  | .gcmDecrypt => s.keyFromReg
  | .envDecode => (lookupSlot s.ring (envTag s.inBytes)).bind Slot.keyOperand
  | _ => none

theorem exec_gcmDecrypt_authenticationFailure {s t : State} (h : exec .gcmDecrypt s = .next t)
    (herr : t.status.err = .authenticationFailure) :
    ∃ key, s.decryptKey .gcmDecrypt = some key ∧ t = s.tagRefused .gcmDecrypt key := by
  simp only [exec, execGcmDecrypt] at h
  split at h
  · cases h; simp at herr
  · split at h
    · cases h; simp at herr
    · rename_i key hkey
      split at h
      · cases h; exact ⟨key, hkey, rfl⟩
      · cases h; simp at herr

theorem exec_envDecode_authenticationFailure {s t : State} (h : exec .envDecode s = .next t)
    (herr : t.status.err = .authenticationFailure) :
    ∃ key, s.decryptKey .envDecode = some key ∧ t = s.tagRefused .envDecode key := by
  simp only [exec, execEnvDecode] at h
  split at h
  · cases h; simp at herr
  · split at h
    · cases h; simp at herr
    · split at h
      · cases h; simp at herr
      · rename_i slot hslot
        split at h
        · cases h; simp at herr
        · rename_i key hkey
          split at h
          · cases h; exact ⟨key, by rw [State.decryptKey, hslot]; exact hkey, rfl⟩
          · cases h; simp at herr

/-- A decrypting command that fails authentication has stored the schedule of its key. -/
theorem exec_eq_tagRefused {s t : State} {i : Instr} (hi : i = .gcmDecrypt ∨ i = .envDecode) (h : exec i s = .next t)
    (herr : t.status.err = .authenticationFailure) : ∃ key, s.decryptKey i = some key ∧ t = s.tagRefused i key := by
  rcases hi with rfl | rfl
  · exact exec_gcmDecrypt_authenticationFailure h herr
  · exact exec_envDecode_authenticationFailure h herr

/-- Under HARDEN = 1, and for one key, SCHED and SCHED_INFO end the same. -/
theorem schedAfterComposite_unique {s s' t t' : State} {key key' : Key} (h : SchedAfterComposite s t key)
    (h' : SchedAfterComposite s' t' key') (hctrl : s'.ctrl = s.ctrl) (hsame : s.ctrl.harden = true ∨ key' = key) :
    t'.schedInfo = t.schedInfo ∧ t'.memRead .sched 0 240 = t.memRead .sched 0 240 := by
  unfold SchedAfterComposite at h h'
  rw [hctrl] at h'
  split at h
  case isTrue hh =>
    rw [if_pos hh] at h'
    obtain ⟨⟨hinfo, hread⟩, hinfo', hread'⟩ := And.intro h h'
    exact ⟨hinfo'.trans hinfo.symm, hread'.trans hread.symm⟩
  case isFalse hh =>
    obtain rfl := hsame.resolve_left hh
    rw [if_neg hh] at h'
    obtain ⟨⟨hinfo, hread⟩, hinfo', hread'⟩ := And.intro h h'
    exact ⟨hinfo'.trans hinfo.symm, hread'.trans hread.symm⟩

/-- Two states that read the same from an array have the same bytes there. -/
theorem readByte_eq_of_memRead_eq {s u : State} {x : Buf} {n a : Nat} (h : u.memRead x 0 n = s.memRead x 0 n)
    (ha : x.base ≤ a ∧ a < x.base + n) : u.mem.readByte a = s.mem.readByte a := by
  obtain ⟨j, rfl⟩ := Nat.exists_eq_add_of_le ha.1
  have hj : j < n := by omega
  rw [← getD_readBytes u.mem x.base hj, ← getD_readBytes s.mem x.base hj]
  exact congrArg (·.getD j 0) h

/-- Settles O46: both commands end as `tagRefused` says, and that depends on the operands through the key's schedule only. -/
theorem authenticationFailureIsUniform : Obligations.AuthenticationFailureIsUniform := by
  intro s s' t t' i hi hs' hmem h h' herr herr'
  have hcomposite : isComposite i = true := by rcases hi with rfl | rfl <;> rfl
  have hctrl : s'.ctrl = s.ctrl := by rw [hs']
  obtain ⟨key, hkey, rfl⟩ := exec_eq_tagRefused hi h herr
  obtain ⟨key', hkey', rfl⟩ := exec_eq_tagRefused hi h' herr'
  obtain ⟨ht, hsched, hout⟩ := tagRefused_spec s hcomposite key
  obtain ⟨ht', hsched', hout'⟩ := tagRefused_spec s' hcomposite key'
  refine ⟨?_, by rw [ht], by rw [ht], fun x hx => ?_, fun hsame => ?_⟩
  · refine ht'.trans ?_
    conv_rhs => rw [ht]
    rw [hs']
    rfl
  · have hbyte := hout x (by omega)
    exact ⟨hbyte, by rw [hout' x (by omega), hmem x (.inr hx), hbyte]⟩
  · have hkeys : s.ctrl.harden = true ∨ key' = key := by
      refine hsame.imp_right fun hsame => Option.some.inj (hkey'.symm.trans (Eq.trans ?_ hkey))
      rcases hsame with ⟨rfl, hreg, hcfg⟩ | ⟨rfl, hlookup⟩
      · simp only [State.decryptKey, State.keyFromReg, hreg, hcfg]
      · exact congrArg (·.bind Slot.keyOperand) hlookup
    obtain ⟨hinfo, hread⟩ := schedAfterComposite_unique hsched hsched' hctrl hkeys
    exact ⟨hinfo, fun x hx => readByte_eq_of_memRead_eq hread hx⟩

/-! ### GCM_ENCRYPT, then GCM_DECRYPT -/

/-- GCM_ENCRYPT succeeds only with legal lengths and a key (R270). -/
theorem exec_gcmEncrypt_ok {s t : State} (h : exec .gcmEncrypt s = .next t) (hok : t.status.err = .ok) :
    ¬(s.aadTooLong ∨ s.inTooLong ∨ s.nonceTooLong) ∧ ∃ key, s.keyFromReg = some key := by
  simp only [exec, execGcmEncrypt] at h
  split at h
  · cases h; simp at hok
  · rename_i hlen
    split at h
    · cases h; simp at hok
    · rename_i key hkey
      exact ⟨hlen, key, hkey⟩

/-- IN of the state handed back is what OUT held. -/
theorem inBytes_handedBack (t : State) : (handedBack t).inBytes = t.memRead .output 0 t.outLen.toNat := by
  have hread := readBytes_writeBytes_same t.mem 0x2000 (t.memRead .output 0 t.outLen.toNat)
  rwa [length_memRead] at hread

/-- Handing back writes no byte below IN. -/
theorem readByte_handedBack (t : State) {x : Nat} (hx : x < 0x2000) :
    (handedBack t).mem.readByte x = t.mem.readByte x :=
  (readByte_writeBytes t.mem 0x2000 _ x).trans (if_neg (by omega))

/-- After a command and handing back its result, an array below IN other than SCHED reads as before the command. -/
theorem memRead_handedBack {s t : State} {i : Instr} (h : exec i s = .next t) (hi : i ≠ .zeroize) {x : Buf} {n : Nat}
    (hx : x.base + n ≤ 0x600 ∨ 0x6F0 ≤ x.base ∧ x.base + n ≤ 0x2000) :
    (handedBack t).memRead x 0 n = s.memRead x 0 n := by
  obtain ⟨-, -, -, hinputs⟩ := commandsNeverWriteTheirInputs s t i h
  obtain ⟨-, -, -, -, -, -, -, -, -, hmem⟩ := hinputs hi
  exact memRead_congr fun j hj => by rw [readByte_handedBack t (by omega), hmem _ (by omega)]

/-- GCM_ENCRYPT, then handing back, leaves the key, the nonce and the associated data, and lengths that are legal. -/
theorem operands_handedBack {s t : State} (hlegal : s.params.legal) (h : exec .gcmEncrypt s = .next t)
    (hlen : ¬(s.aadTooLong ∨ s.inTooLong ∨ s.nonceTooLong)) (hout : t.outLen = s.inLen) :
    ¬((handedBack t).aadTooLong ∨ (handedBack t).inTooLong ∨ (handedBack t).nonceTooLong) ∧
      (handedBack t).keyFromReg = s.keyFromReg ∧ (handedBack t).nonceBytes = s.nonceBytes ∧
      (handedBack t).aadBytes = s.aadBytes := by
  obtain ⟨hparams, -, -, hinputs⟩ := commandsNeverWriteTheirInputs s t .gcmEncrypt h
  obtain ⟨hreg, hcfg, -, -, -, haadLen, -, hnonceLen, -⟩ := hinputs (by decide)
  obtain ⟨haad, -, hnonce⟩ := (gcmLengths_iff s).mp hlen
  obtain ⟨-, -, hbuf, -⟩ := hlegal
  refine ⟨?_, ?_, ?_, ?_⟩
  · simpa only [State.aadTooLong, State.inTooLong, State.nonceTooLong, handedBack, hparams, haadLen, hout, hnonceLen]
      using hlen
  · simp only [State.keyFromReg, handedBack, hreg, hcfg]
  · show (handedBack t).memRead .nonce 0 t.nonceLen.toNat = s.memRead .nonce 0 s.nonceLen.toNat
    rw [hnonceLen, memRead_handedBack h (by decide) (by simp only [Buf.base]; omega)]
  · show (handedBack t).memRead .aad 0 t.aadLen.toNat = s.memRead .aad 0 s.aadLen.toNat
    rw [haadLen, memRead_handedBack h (by decide) (by simp only [Buf.base]; omega)]

/-- Settles O58: the operands of GCM_DECRYPT are those of GCM_ENCRYPT with the ciphertext for the plaintext and its tag, so
the plaintext comes back. -/
theorem gcmEncryptThenDecryptGivesThePlaintext : Obligations.GcmEncryptThenDecryptGivesThePlaintext := by
  intro s t hlegal h hok
  obtain ⟨hlen, key, hkey⟩ := exec_gcmEncrypt_ok h hok
  obtain ⟨haad, hin, hnonce⟩ := (gcmLengths_iff s).mp hlen
  obtain ⟨_, ht, hregs, hct, -⟩ := gcmEncryptWritesCiphertextAndTag.2 s key haad hin hnonce hkey
  obtain rfl := Host.Outcome.next.inj (h.symm.trans ht)
  have hout : t.outLen = s.inLen := by rw [hregs]
  have htag : t.r = (gcmEncrypt key s.nonceBytes s.inBytes s.aadBytes).2 := by rw [hregs]; rfl
  obtain ⟨hlen', hkey', hnonceBytes, haadBytes⟩ := operands_handedBack hlegal h hlen hout
  have hopen : gcmDecrypt key (handedBack t).nonceBytes (handedBack t).inBytes (handedBack t).aadBytes
      (handedBack t).b = some s.inBytes := by
    rw [hnonceBytes, haadBytes, inBytes_handedBack, hout, hct]
    exact (congrArg (gcmDecrypt key _ _ _) htag).trans (gcmDecrypt_gcmEncrypt _ _ _ _)
  obtain ⟨hregs', hpt, -⟩ := finish_answered (s := handedBack t) (i := .gcmDecrypt) rfl key (bs := s.inBytes)
    (length_memRead s .input 0 _) 0
  exact ⟨_, exec_gcmDecrypt_of_opened hlen' (hkey'.trans hkey) hopen, by rw [finish_status], by rw [hregs'], hpt⟩

end Sys2Proof.Machine
end

section
/-! The key ring's lookup (R294): the three tag bytes and the value compared, and the slot that is found. -/

namespace Sys2Proof.Machine

/-- Tag byte 0 is the least significant of the value compared (R294). -/
theorem toNat_tagOfBytes (v0 v1 v2 : Byte) :
    (tagOfBytes [v0, v1, v2]).toNat = v0.toNat + v1.toNat * 2 ^ 8 + v2.toNat * 2 ^ 16 := by
  show (v2 ++ v1 ++ v0).toNat = _
  rw [BitVec.toNat_append, BitVec.toNat_append, ← Nat.shiftLeft_add_eq_or_of_lt v1.isLt,
    ← Nat.shiftLeft_add_eq_or_of_lt v0.isLt, Nat.shiftLeft_eq, Nat.shiftLeft_eq]
  ring

/-- The bytes of a version tag make the tag again (R54, R294). -/
@[simp] theorem tagOfBytes_tagBytes (v : BitVec 24) : tagOfBytes (tagBytes v) = v := by
  show v.extractLsb' 16 8 ++ v.extractLsb' 8 8 ++ v.extractLsb' 0 8 = v
  rw [BitVec.extractLsb'_append_extractLsb'_eq_extractLsb' (show 16 = 8 + 8 from rfl),
    BitVec.extractLsb'_append_extractLsb'_eq_extractLsb' (show 8 = 0 + 8 from rfl), BitVec.extractLsb'_eq_self]

/-- The lookup finds the lowest-numbered slot that is valid and has the tag (R294). -/
theorem lookupSlot_eq_some_iff {ring : List Slot} {v : BitVec 24} {x : Slot} :
    lookupSlot ring v = some x ↔ ∃ n < ring.length, ring.getD n Slot.zero = x ∧ x.cfg.valid = true ∧ x.tag = v ∧
      ∀ m < n, ¬((ring.getD m Slot.zero).cfg.valid = true ∧ (ring.getD m Slot.zero).tag = v) := by
  simp only [lookupSlot, List.find?_eq_some_iff_getElem, Bool.not_eq_true', ← Bool.not_eq_true, Bool.and_eq_true,
    decide_eq_true_iff]
  constructor
  · rintro ⟨⟨hvalid, htag⟩, n, hn, hget, hlow⟩
    refine ⟨n, hn, (List.getD_eq_getElem _ _ hn).trans hget, hvalid, htag, fun m hm => ?_⟩
    rw [List.getD_eq_getElem _ _ (hm.trans hn)]
    exact hlow m hm
  · rintro ⟨n, hn, hget, hvalid, htag, hlow⟩
    refine ⟨⟨hvalid, htag⟩, n, hn, (List.getD_eq_getElem _ _ hn).symm.trans hget, fun m hm => ?_⟩
    rw [← List.getD_eq_getElem _ Slot.zero (hm.trans hn)]
    exact hlow m hm

/-- The lookup fails exactly when no valid slot has the tag (R294). -/
theorem lookupSlot_eq_none_iff {ring : List Slot} {v : BitVec 24} :
    lookupSlot ring v = none ↔ ∀ n < ring.length,
      ¬((ring.getD n Slot.zero).cfg.valid = true ∧ (ring.getD n Slot.zero).tag = v) := by
  rw [lookupSlot, List.find?_eq_none, List.forall_mem_iff_getElem]
  refine forall₂_congr fun n hn => ?_
  rw [List.getD_eq_getElem _ _ hn, Bool.and_eq_true, decide_eq_true_iff]

/-- Settles O60, from the value of the tag bytes and from which slot the lookup finds. -/
theorem lookupTakesTheLowestMatchingSlot : Obligations.LookupTakesTheLowestMatchingSlot :=
  ⟨toNat_tagOfBytes, fun v => ⟨length_tagBytes v, tagOfBytes_tagBytes v⟩,
    fun _ _ => ⟨fun _ => lookupSlot_eq_some_iff, lookupSlot_eq_none_iff⟩⟩

end Sys2Proof.Machine
end

section
/-! The commands SIZE_FOR_CT and SIZE_FOR_PT (R303, R304). -/

open Sys2Proof.Claim

namespace Sys2Proof.Machine

/-- A size command writes RESULT and completes with OK (R323). -/
theorem finish_setResult {s : State} {i : Instr} (hi : isComposite i = false) (v : Word) :
    (s.setResult v).finish i .ok = { s with result := v, seq := .idle, status := doneStatus s .ok } :=
  finish_plain (.inl hi) .ok

theorem sizeForCiphertext_eq_ofNat (p : Word) : sizeForCiphertext p = BitVec.ofNat 32 (p.toNat + 31) := by
  rw [sizeForCiphertext]
  bv_omega

theorem sizeForPlaintext_eq_ofNat {x : Word} (hx : 31 ≤ x.toNat) :
    sizeForPlaintext x = BitVec.ofNat 32 (x.toNat - 31) := by
  rw [sizeForPlaintext]
  bv_omega

theorem exec_sizeForCt_of_fits {s : State} (h : s.sizeArg.toNat ≤ 0xFFFFFFE0) :
    exec .sizeForCt s = .next ((s.setResult (sizeForCiphertext s.sizeArg)).finish .sizeForCt .ok) :=
  if_neg (Nat.not_lt.mpr h)

theorem exec_sizeForCt_of_too_large {s : State} (h : 0xFFFFFFE0 < s.sizeArg.toNat) :
    exec .sizeForCt s = .next (s.raise .sizeForCt .lengthError) := if_pos h

theorem exec_sizeForPt_of_envelope {s : State} (h : 31 ≤ s.sizeArg.toNat) :
    exec .sizeForPt s = .next ((s.setResult (sizeForPlaintext s.sizeArg)).finish .sizeForPt .ok) :=
  if_neg (Nat.not_lt.mpr h)

theorem exec_sizeForPt_of_too_small {s : State} (h : s.sizeArg.toNat < 31) :
    exec .sizeForPt s = .next (s.raise .sizeForPt .malformedEnvelope) := if_pos h

/-- Settles O39: RESULT takes the size, or is cleared by the error exit. -/
theorem sizeCommandsWriteResult : Obligations.SizeCommandsWriteResult := by
  refine fun s => ⟨fun h => ?_, exec_sizeForCt_of_too_large, fun h => ?_, exec_sizeForPt_of_too_small⟩
  · rw [exec_sizeForCt_of_fits h, finish_setResult rfl, sizeForCiphertext_eq_ofNat]
  · rw [exec_sizeForPt_of_envelope h, finish_setResult rfl, sizeForPlaintext_eq_ofNat h]

end Sys2Proof.Machine
end

section
/-! The envelope (R290 to R299) and the commands ENV_ENCODE and ENV_DECODE (R300, R301), one after the other too. -/

open Sys2Proof.Claim

namespace Sys2Proof.Machine

/-! ### The nonce and its draw -/

/-- Byte 0 of a nonce is its most significant (R290). -/
theorem getD_nonceToBytes (x : Nonce) {j : Nat} (hj : j < 12) :
    (nonceToBytes x).getD j 0 = x.extractLsb' (8 * (11 - j)) 8 := by
  rw [nonceToBytes, getD_beBytes hj]
  exact BitVec.eq_of_toNat_eq (by simp [BitVec.extractLsb'_toNat, Nat.shiftRight_eq_div_pow])

/-- With a nonce in `rng` the draw takes it (R296). -/
theorem draw_of_rng {s : State} {x : Nonce} {rest : List Nonce} (h : s.rng = x :: rest) :
    s.nextNonce = x ∧ s.advanceRng.rng = rest ∧ s.advanceRng.draws = s.draws := by
  simp only [State.nextNonce, State.advanceRng, h, and_self]

/-- With no nonce in `rng` the draw is free, and counted (R296). -/
theorem draw_of_no_rng {s : State} (h : s.rng = []) :
    s.advanceRng.rng = [] ∧ s.advanceRng.draws = s.draws + 1 := by
  simp only [State.advanceRng, h, and_self]

theorem advanceRng_storeSchedule (s : State) (k : KeySize) (sched : List Byte) :
    (s.storeSchedule k sched).advanceRng = s.advanceRng.storeSchedule k sched := by
  unfold State.advanceRng
  rw [storeSchedule_rng]
  split <;> rfl

/-! ### Layout: tag, nonce, ciphertext, GCM tag (R290) -/

/-- The fields of an envelope by their ends: the GCM tag is what stands after the ciphertext (R290). -/
theorem envOpen_eq (key : Key) (env : List Byte) :
    envOpen key env = gcmDecrypt key ((env.drop 3).take 12) ((env.drop 15).take (env.length - 31)) []
      (blockOfBytes (env.drop (env.length - 16))) := by
  have hlast : slice env (env.length - 16) 16 = env.drop (env.length - 16) :=
    List.take_of_length_le (by rw [List.length_drop]; omega)
  rw [envOpen, hlast]
  rfl

/-- The version tag of an envelope is the one it was made with (R290, R298). -/
@[simp] theorem envTag_envEncode (tag : BitVec 24) (key : Key) (nonce : Nonce) (pt : List Byte) :
    envTag (envEncode tag key nonce pt) = tag := tagOfBytes_tagBytes tag

/-- The fields of an envelope of R290, put side by side, are what is decrypted (R299). -/
theorem envOpen_append (key : Key) {tag nonce gcm : List Byte} (htag : tag.length = 3) (hnonce : nonce.length = 12)
    (hgcm : gcm.length = 16) (ct : List Byte) :
    envOpen key (tag ++ nonce ++ ct ++ gcm) = gcmDecrypt key nonce ct [] (blockOfBytes gcm) := by
  have hlen : (tag ++ nonce ++ ct ++ gcm).length = 31 + ct.length := by simp [htag, hnonce, hgcm]; omega
  have h3 : (tag ++ nonce ++ ct ++ gcm).drop 3 = nonce ++ (ct ++ gcm) := by simp [← htag]
  have h15 : (tag ++ nonce ++ ct ++ gcm).drop 15 = ct ++ gcm := by
    rw [List.append_assoc]
    exact List.drop_left' (by simp [htag, hnonce])
  have hlast : (tag ++ nonce ++ ct ++ gcm).drop (31 + ct.length - 16) = gcm :=
    List.drop_left' (by simp [htag, hnonce]; omega)
  rw [envOpen_eq, hlen, h3, h15, hlast, List.take_left' hnonce, List.take_left' (by omega)]

/-- An envelope opens, under its key, to its plaintext (R298, R299). -/
theorem envOpen_envEncode (tag : BitVec 24) (key : Key) (nonce : Nonce) (pt : List Byte) :
    envOpen key (envEncode tag key nonce pt) = some pt := by
  rw [envEncode, envOpen_append key (length_tagBytes tag) (length_nonceToBytes nonce) (length_bytesOfBlock _),
    blockOfBytes_bytesOfBlock, gcmDecrypt_gcmEncrypt]

/-! ### ENV_ENCODE -/

/-- The envelope that ENV_ENCODE writes for the nonce it draws (R300). -/
def State.envelope (s : State) (slot : Fin 16) (key : Key) : List Byte :=
  envEncode (s.slot slot.val).tag key s.nextNonce s.inBytes

/-- The length of an envelope that fits OUT is no sum that wraps (R300). -/
theorem toNat_envelopeLength {s : State} (hlegal : s.params.legal) (hin : s.inLen.toNat ≤ s.params.bufBytes - 31) :
    (s.inLen + 31).toNat = s.inLen.toNat + 31 := by
  obtain ⟨-, -, hmax, -⟩ := hlegal
  bv_omega

theorem exec_envEncode_of_key {s : State} {slot : Fin 16} (hslot : slot.val < s.params.krSlots)
    (hin : s.inLen.toNat ≤ s.params.bufBytes - 31) {key : Key} (hkey : (s.slot slot.val).keyOperand = some key) :
    exec (.envEncode slot) s =
      .next ((s.advanceRng.answered key (s.envelope slot key) 0).finish (.envEncode slot) .ok) := by
  have hlen : ¬s.params.bufBytes - envOverhead < s.inLen.toNat := Nat.not_lt.mpr hin
  simp only [exec, execEnvEncode, if_neg (Nat.not_le.mpr hslot), if_neg hlen, hkey, advanceRng_storeSchedule,
    State.answered, State.envelope]

/-- Settles O37, from the draw, the length of the envelope and the exit of a composite command that succeeds. -/
theorem envEncodeWritesTheEnvelope : Obligations.EnvEncodeWritesTheEnvelope := by
  intro s slot key hlegal hslot hin hkey
  have hword := toNat_envelopeLength hlegal hin
  have hlen : (s.envelope slot key).length = (s.inLen + 31).toNat := by
    rw [State.envelope, length_envEncode, State.inBytes, length_memRead, hword, envOverhead]
  obtain ⟨hregs, hout, hsched, hframe⟩ := finish_answered (s := s.advanceRng) (i := .envEncode slot) rfl key hlen 0
  refine ⟨_, s.nextNonce, exec_envEncode_of_key hslot hin hkey, fun x rest h => ?_, fun h => ?_,
    length_nonceToBytes _, fun j hj => getD_nonceToBytes _ hj, ?_, ?_, ?_, ?_⟩
  · rw [hregs]
    exact draw_of_rng h
  · rw [hregs]
    exact draw_of_no_rng h
  · refine hregs.trans ?_
    simp [State.answered, doneStatus]
  · rw [← hword]
    exact hout
  · unfold SchedAfterComposite at hsched ⊢
    rwa [advanceRng_ctrl] at hsched
  · rwa [advanceRng_mem, hword] at hframe

/-! ### ENV_DECODE -/

theorem exec_envDecode_of_opened {s : State} (hlong : ¬s.inTooLong) (hshort : ¬s.inLen.toNat < envOverhead) {x : Slot}
    (hslot : lookupSlot s.ring (envTag s.inBytes) = some x) {key : Key} (hkey : x.keyOperand = some key)
    {pt : List Byte} (hpt : envOpen key s.inBytes = some pt) :
    exec .envDecode s = .next ((s.answered key pt 0).finish .envDecode .ok) := by
  simp only [exec, execEnvDecode, if_neg hlong, if_neg hshort, hslot, hkey, hpt, State.answered]

theorem exec_envDecode_of_refused {s : State} (hlong : ¬s.inTooLong) (hshort : ¬s.inLen.toNat < envOverhead) {x : Slot}
    (hslot : lookupSlot s.ring (envTag s.inBytes) = some x) {key : Key} (hkey : x.keyOperand = some key)
    (hrefused : envOpen key s.inBytes = none) : exec .envDecode s = .next (s.tagRefused .envDecode key) := by
  simp only [exec, execEnvDecode, if_neg hlong, if_neg hshort, hslot, hkey, hrefused, State.tagRefused]

/-- Settles O38, from the fields of the envelope and from the two exits of a composite command. -/
theorem envDecodeOpensTheEnvelope : Obligations.EnvDecodeOpensTheEnvelope := by
  rintro s x key env hlong hshort rfl hslot hkey
  have hlong' : ¬s.inTooLong := Nat.not_lt.mpr hlong
  have hshort' : ¬s.inLen.toNat < envOverhead := Nat.not_lt.mpr hshort
  rw [← envOpen_eq]
  refine ⟨fun pt hpt => ?_, fun hrefused => ?_⟩
  · have hword : (s.inLen - 31).toNat = s.inLen.toNat - 31 := by bv_omega
    have hlen : pt.length = (s.inLen - 31).toNat := by
      rw [length_of_envOpen (by rw [length_memRead]; exact hshort) hpt, length_memRead, hword, envOverhead]
    rw [← hword]
    exact ⟨_, exec_envDecode_of_opened hlong' hshort' hslot hkey hpt, finish_answered rfl key hlen 0⟩
  · exact ⟨_, exec_envDecode_of_refused hlong' hshort' hslot hkey hrefused, tagRefused_spec s rfl key⟩

/-! ### ENV_ENCODE, then ENV_DECODE -/

/-- ENV_ENCODE from an existing slot succeeds only with a plaintext that fits and a key (R300). -/
theorem exec_envEncode_ok {s t : State} {slot : Fin 16} (hslot : slot.val < s.params.krSlots)
    (h : exec (.envEncode slot) s = .next t) (hok : t.status.err = .ok) :
    s.inLen.toNat ≤ s.params.bufBytes - 31 ∧ ∃ key, (s.slot slot.val).keyOperand = some key := by
  simp only [exec, execEnvEncode, if_neg (Nat.not_le.mpr hslot)] at h
  split at h
  · cases h; simp at hok
  · rename_i hlen
    split at h
    · cases h; simp at hok
    · rename_i key hkey
      exact ⟨Nat.not_lt.mp hlen, key, hkey⟩

/-- A slot with a key is valid (R295). -/
theorem valid_of_keyOperand {x : Slot} {key : Key} (h : x.keyOperand = some key) : x.cfg.valid = true := by
  by_contra hno
  rw [Slot.keyOperand, (keyOf_eq_none_iff _ _).mpr (.inl (Bool.eq_false_iff.mpr hno))] at h
  cases h

/-- The tag of a valid slot selects it when no lower valid slot has that tag (R294). -/
theorem lookupSlot_tag_of_lowest {s : State} {n : Nat} (hn : n < s.ring.length) (hvalid : (s.slot n).cfg.valid = true)
    (hlow : ∀ m < n, (s.slot m).cfg.valid = true → (s.slot m).tag ≠ (s.slot n).tag) :
    lookupSlot s.ring (s.slot n).tag = some (s.slot n) :=
  lookupSlot_eq_some_iff.mpr ⟨n, hn, rfl, hvalid, rfl, fun m hm => not_and.mpr (hlow m hm)⟩

/-- Settles O59: the tag of the envelope selects the slot it was made from, and under that slot's key it opens to the
plaintext. -/
theorem envelopeEncodeThenDecodeGivesThePlaintext : Obligations.EnvelopeEncodeThenDecodeGivesThePlaintext := by
  intro s t slot hlegal hring hslot h hok hlow
  obtain ⟨hin, key, hkey⟩ := exec_envEncode_ok hslot h hok
  have hword := toNat_envelopeLength hlegal hin
  obtain ⟨_, nonce, ht, -, -, -, -, hregs, henv, -⟩ := envEncodeWritesTheEnvelope s slot key hlegal hslot hin hkey
  obtain rfl := Host.Outcome.next.inj (h.symm.trans ht)
  have hout : t.outLen = s.inLen + 31 := by rw [hregs]
  have hbytes : (handedBack t).inBytes = envEncode (s.slot slot.val).tag key nonce s.inBytes := by
    rw [inBytes_handedBack, hout, hword]
    exact henv
  have hlong : ¬(handedBack t).inTooLong := by
    obtain ⟨-, hmin, -⟩ := hlegal
    show ¬t.params.bufBytes < t.outLen.toNat
    rw [hout, hword, show t.params = s.params by rw [hregs]]
    omega
  have hshort : ¬(handedBack t).inLen.toNat < envOverhead := by
    show ¬t.outLen.toNat < envOverhead
    rw [hout, hword, envOverhead]
    omega
  have hlookup : lookupSlot (handedBack t).ring (envTag (handedBack t).inBytes) = some (s.slot slot.val) := by
    rw [hbytes, envTag_envEncode, show (handedBack t).ring = s.ring by rw [handedBack, hregs]]
    exact lookupSlot_tag_of_lowest (by rwa [hring]) (valid_of_keyOperand hkey) hlow
  have hopen : envOpen key (handedBack t).inBytes = some s.inBytes := by rw [hbytes, envOpen_envEncode]
  obtain ⟨hregs', hpt, -⟩ := finish_answered (s := handedBack t) (i := .envDecode) rfl key (bs := s.inBytes)
    (length_memRead s .input 0 _) 0
  exact ⟨hout, _, exec_envDecode_of_opened hlong hshort hlookup hkey hopen, by rw [finish_status], by rw [hregs'], hpt⟩

end Sys2Proof.Machine
end

section
/-! The engine's turn (R321, R322, R365): what its step is in each case, that every step answers a next state (R328), and that
whatever word runs is completed (R323). -/

open Sys2Proof.Claim

namespace Sys2Proof.Machine

/-! ### Every step answers -/

/-- A command never faults and is never refused (R328, R347). -/
theorem exec_answers (i : Instr) (s : State) : ∃ t, exec i s = .next t := by
  cases i with
  | nop | zeroize | gf8Xtime | gf8Mul | gf128Halve | gf128Mul => exact ⟨_, rfl⟩
  | expandKey => simp only [exec, execExpandKey]; split <;> exact ⟨_, rfl⟩
  | encryptBlock => simp only [exec, execEncryptBlock]; split <;> exact ⟨_, rfl⟩
  | ghash => simp only [exec, execGhash]; split <;> exact ⟨_, rfl⟩
  | sizeForCt => simp only [exec, execSizeForCt]; split <;> exact ⟨_, rfl⟩
  | sizeForPt => simp only [exec, execSizeForPt]; split <;> exact ⟨_, rfl⟩
  | ctr pol =>
    simp only [exec, execCtr]
    split; · exact ⟨_, rfl⟩
    split <;> exact ⟨_, rfl⟩
  | gcmEncrypt =>
    simp only [exec, execGcmEncrypt]
    split; · exact ⟨_, rfl⟩
    split <;> exact ⟨_, rfl⟩
  | gcmDecrypt =>
    simp only [exec, execGcmDecrypt]
    split; · exact ⟨_, rfl⟩
    split; · exact ⟨_, rfl⟩
    split <;> exact ⟨_, rfl⟩
  | envEncode slot =>
    simp only [exec, execEnvEncode]
    split; · exact ⟨_, rfl⟩
    split; · exact ⟨_, rfl⟩
    split <;> exact ⟨_, rfl⟩
  | envDecode =>
    simp only [exec, execEnvDecode]
    split; · exact ⟨_, rfl⟩
    split; · exact ⟨_, rfl⟩
    split; · exact ⟨_, rfl⟩
    split; · exact ⟨_, rfl⟩
    split <;> exact ⟨_, rfl⟩

theorem engineStep_of_idle {s : State} (hs : s.seq = .idle) : engineStep s = .next s := by
  simp only [engineStep, hs]

theorem engineStep_of_decode_ok {s : State} {w : Word} {i : Instr} (hs : s.seq = .running w)
    (hd : decode s.params.krSlots w = .ok i) : engineStep s = exec i s := by
  simp only [engineStep, hs, hd]

theorem engineStep_of_decode_error {s : State} {w : Word} {r : IllegalReason} (hs : s.seq = .running w)
    (hd : decode s.params.krSlots w = .error r) : engineStep s = .next s.illegal := by
  simp only [engineStep, hs, hd]

theorem engineStep_answers (s : State) : ∃ t, engineStep s = .next t := by
  cases hs : s.seq with
  | idle => exact ⟨s, engineStep_of_idle hs⟩
  | running w =>
    cases hd : decode s.params.krSlots w with
    | error r => exact ⟨_, engineStep_of_decode_error hs hd⟩
    | ok i => rw [engineStep_of_decode_ok hs hd]; exact exec_answers i s

/-- When it is the engine's turn, by its event or because no event is left, the step is the engine's, on a state that differs
in the schedule only. -/
theorem step_of_engine_turn {s s' : State}
    (h : (s.schedule = [] ∧ s' = s) ∨ ∃ rest, s.schedule = .engine :: rest ∧ s' = { s with schedule := rest }) :
    step s = engineStep s' ∧ s' = { s with schedule := s'.schedule } := by
  rcases h with ⟨hs, rfl⟩ | ⟨rest, hs, rfl⟩ <;> exact ⟨by simp only [step, hs], rfl⟩

/-- A step that begins with a reset event is the reset (R381). -/
theorem step_reset {s : State} {rest : List Event} (h : s.schedule = .reset :: rest) :
    step s = .next ({ s with schedule := rest } : State).resetPulse := by
  simp only [step, h]

/-- Settles O4, from the engine's step in its three cases. -/
theorem engineStepRunsTheDecodedCommand : Obligations.EngineStepRunsTheDecodedCommand := by
  intro s s' hturn
  obtain ⟨hstep, hs'⟩ := step_of_engine_turn hturn
  rw [hstep, hs']
  exact ⟨fun hidle => engineStep_of_idle hidle, fun w i hw hi => engineStep_of_decode_ok hw hi,
    fun w e hw he => engineStep_of_decode_error hw he⟩

/-- Settles O5: the engine's step answers, and a bus event and a reset are total. -/
theorem everyStepAnswersANextState : Obligations.EveryStepAnswersANextState := by
  intro s
  cases hs : s.schedule with
  | nil =>
    obtain ⟨hstep, -⟩ := step_of_engine_turn (.inl ⟨hs, rfl⟩)
    exact hstep ▸ engineStep_answers s
  | cons event rest =>
    cases event with
    | engine =>
      obtain ⟨hstep, -⟩ := step_of_engine_turn (.inr ⟨rest, hs, rfl⟩)
      exact hstep ▸ engineStep_answers _
    | bus x => exact ⟨_, step_bus hs⟩
    | reset => exact ⟨_, step_reset hs⟩

/-! ### Completion -/

/-- Every command ends with the sequencer idle, DONE set and a code in ERR (R323). -/
theorem exec_completes {s t : State} {i : Instr} (h : exec i s = .next t) :
    t.seq = .idle ∧ ∃ e, t.status = doneStatus s e := by
  rcases exec_cases h with ⟨u, e, hw, rfl⟩ | ⟨rfl, -⟩
  · obtain ⟨-, -, -, hstatus, -⟩ := hw.frame
    exact ⟨rfl, e, by rw [finish_status, hstatus]; rfl⟩
  · exact ⟨rfl, _, rfl⟩

/-- The engine's step on a running word completes it: a legal word as its command does, an illegal one with
ILLEGAL_COMMAND; CTRL and CMD stay. -/
theorem engineStep_completes {s t : State} {w : Word} (hs : s.seq = .running w) (h : engineStep s = .next t) :
    t.seq = .idle ∧ (∃ e, t.status = doneStatus s e) ∧ t.ctrl = s.ctrl ∧ t.cmd = s.cmd := by
  rcases engineStep_cases h with ⟨hidle, -⟩ | ⟨v, -, ⟨r, -, rfl⟩ | ⟨i, -, hexec⟩⟩
  · cases hs.symm.trans hidle
  · exact ⟨rfl, ⟨_, rfl⟩, rfl, rfl⟩
  · obtain ⟨hseq, hstatus⟩ := exec_completes hexec
    obtain ⟨-, hctrl, hcmd⟩ := exec_control hexec
    exact ⟨hseq, hstatus, hctrl, hcmd⟩

/-- Settles O6: the engine's step answers, and what it answers is a completion. -/
theorem engineStepCompletesTheCommand : Obligations.EngineStepCompletesTheCommand := by
  intro s w hs
  obtain ⟨t, ht⟩ := engineStep_answers s
  obtain ⟨hseq, ⟨e, hstatus⟩, hctrl, hcmd⟩ := engineStep_completes hs ht
  refine ⟨t, e, ht, hseq, ?_, hstatus, hcmd, ?_⟩
  · rw [State.busy, hseq]
  · rw [State.irq, hstatus, hctrl, doneStatus, Bool.true_and]

end Sys2Proof.Machine
end

section
/-! Acceptance of a command word (R320), and what a host access can change while a command runs (R322, R105). -/

namespace Sys2Proof.Machine

/-- Settles O7: CMD stands at 0x008, an idle core accepts the word and a busy one drops the write. -/
theorem cmdWriteIsAcceptedWhenIdle : Obligations.CmdWriteIsAcceptedWhenIdle := by
  intro s w
  have ht : accessTarget s.params 0x008 .bits32 = some .cmd := rfl
  exact ⟨fun hb => hostAccess_write_idle hb ht w, fun hb => hostAccess_write_busy hb ht (by decide) w⟩

/-- While a command runs a host access changes STATUS and the response only; ERR stays and DONE does not rise (R105,
R322). -/
theorem hostAccess_while_busy {s : State} (hb : s.busy = true) (off : Nat) (width : AccessWidth) (op : AccessOp) :
    ∃ status response, s.hostAccess off width op = { s with status := status, response := response } ∧
      status.err = s.status.err ∧ (status.done = true → s.status.done = true) := by
  rcases hostAccess_cases s off width op with
    ⟨-, ha⟩ | ⟨t, -, -, -, -, ⟨-, ha⟩ | ⟨w, -, ⟨-, -, ha⟩ | ⟨hperformed, ha⟩⟩⟩
  · exact ⟨_, _, ha, rfl, id⟩
  · exact ⟨_, _, ha, rfl, id⟩
  · exact ⟨_, _, ha, rfl, id⟩
  · obtain rfl : t = .status := hperformed.resolve_left (by rw [hb]; decide)
    exact ⟨_, _, ha, rfl, fun h => (Bool.and_eq_true_iff.mp h).1⟩

/-- Settles O8: a bus event is one host access or not this core's. -/
theorem onlyStatusCanChangeWhileACommandRuns : Obligations.OnlyStatusCanChangeWhileACommandRuns := by
  intro s x hb
  rcases busEvent_cases s x with h | ⟨off, -, -, h⟩
  · rw [h]
    exact ⟨rfl, rfl, id⟩
  · obtain ⟨status, response, ha, herr, hdone⟩ := hostAccess_while_busy hb off x.width x.op
    rw [h, ha]
    exact ⟨rfl, herr, hdone⟩

end Sys2Proof.Machine
end

section
/-! The housekeeping commands NOP and ZEROIZE (R324, R325). -/

namespace Sys2Proof.Machine

/-- Settles O27: NOP is not composite, so its exit only completes. -/
theorem nopChangesOnlyStatus : Obligations.NopChangesOnlyStatus := fun _ =>
  congrArg Host.Outcome.next (finish_plain (.inl rfl) .ok)

/-- What a byte reads as after some arrays have been written with zeros, one after the other. -/
theorem readByte_foldl_zeros (p : Params) (bufs : List Buf) (m : Memory) (a : Nat) :
    (bufs.foldl (fun m x => m.writeBytes x.base (zeros (x.size p))) m).readByte a =
      if ∃ x ∈ bufs, x.base ≤ a ∧ a < x.base + x.size p then 0 else m.readByte a := by
  induction bufs generalizing m with
  | nil => simp
  | cons x bufs ih =>
    rw [List.foldl_cons, ih, readByte_writeBytes, length_zeros, getD_zeros]
    by_cases hx : x.base ≤ a ∧ a < x.base + x.size p <;> simp [hx]

/-- ZEROIZE clears every byte of every array (R325). -/
theorem readByte_clearedArrays_inside {p : Params} {x : Buf} {a : Nat} (ha : x.base ≤ a ∧ a < x.base + x.size p)
    (m : Memory) : (clearedArrays p m).readByte a = 0 :=
  (readByte_foldl_zeros p _ m a).trans (if_pos ⟨x, by cases x <;> decide, ha⟩)

theorem readByte_clearedArrays_outside {p : Params} {a : Nat} (ha : ∀ x : Buf, ¬(x.base ≤ a ∧ a < x.base + x.size p))
    (m : Memory) : (clearedArrays p m).readByte a = m.readByte a :=
  (readByte_foldl_zeros p _ m a).trans (if_neg fun ⟨x, _, hx⟩ => ha x hx)

/-- A range of bytes that are all zero reads as zeros. -/
theorem readBytes_eq_zeros {m : Memory} {base n : Nat} (h : ∀ i < n, m.readByte (base + i) = 0) :
    m.readBytes base n = zeros n :=
  List.eq_replicate_iff.mpr ⟨length_readBytes m base n, fun b hb => by
    obtain ⟨i, hi, rfl⟩ := List.mem_map.mp hb
    exact h i (List.mem_range.mp hi)⟩

/-- Settles O40, from what a byte reads as after the five arrays are cleared. -/
theorem zeroizeClearsEverythingButControl : Obligations.ZeroizeClearsEverythingButControl := by
  intro s _
  refine ⟨_, congrArg Host.Outcome.next (finish_plain (.inl rfl) .ok), ?_, fun x => readBytes_eq_zeros fun i hi => ?_,
    fun a ha => readByte_clearedArrays_outside ha s.mem⟩
  · rw [← List.map_const']
    rfl
  · exact readByte_clearedArrays_inside (x := x) ⟨by omega, by omega⟩ s.mem

end Sys2Proof.Machine
end

section
/-! The error exit (R327, R343): what a failing command writes, by its class. -/

open Sys2Proof.Claim

namespace Sys2Proof.Machine

theorem onError_r (s : State) (i : Instr) :
    (s.onError i).r = if cmdClass i = .r ∨ cmdClass i = .out then 0 else s.r := by
  unfold State.onError; split <;> rename_i hclass <;> simp [hclass]

theorem onError_outLen (s : State) (i : Instr) :
    (s.onError i).outLen = if cmdClass i = .out then 0 else s.outLen := by
  unfold State.onError; split <;> rename_i hclass <;> simp [hclass]

theorem onError_result (s : State) (i : Instr) :
    (s.onError i).result = if cmdClass i = .size then 0 else s.result := by
  unfold State.onError; split <;> rename_i hclass <;> simp [hclass]

/-- The error exit makes the error writes of the class, and otherwise changes SCHED, SCHED_INFO, STATUS and the sequencer
only (R343, R326). -/
theorem raise_eq_with (s : State) (i : Instr) (e : ErrCode) : s.raise i e = { s with
    r := if cmdClass i = .r ∨ cmdClass i = .out then 0 else s.r
    outLen := if cmdClass i = .out then 0 else s.outLen
    result := if cmdClass i = .size then 0 else s.result
    mem := (s.raise i e).mem, schedInfo := (s.raise i e).schedInfo, seq := .idle, status := (s.raise i e).status } := by
  refine (finish_eq_with (s.onError i) i e).trans ?_
  simp [State.raise, doneStatus, onError_r, onError_outLen, onError_result]

/-- The error exit leaves every byte outside SCHED alone (R343). -/
theorem sameOutside_raise (s : State) (i : Instr) (e : ErrCode) : SameOutside s.mem (s.raise i e).mem 0x600 240 :=
  fun x hx => by rw [State.raise, readByte_finish _ i e hx, onError_mem]

/-- Without the hardening cleanup the error exit leaves SCHED and SCHED_INFO alone (R326). -/
theorem raise_keeps_schedule {s : State} {i : Instr} (h : isComposite i = false ∨ s.ctrl.harden = false) (e : ErrCode) :
    (s.raise i e).mem = s.mem ∧ (s.raise i e).schedInfo = s.schedInfo := by
  rw [State.raise, finish_plain (by rwa [onError_ctrl]), complete_mem, onError_mem, complete_schedInfo,
    onError_schedInfo]
  exact ⟨rfl, rfl⟩

/-- A well-formed command that fails has made the error writes, on its operands or, when the tag check of a composite command
failed, on the state with the schedule stored (R342, R343). -/
theorem exec_failed_cases {s t : State} {i : Instr} (hwf : i.wf s.params.krSlots = true) (h : exec i s = .next t)
    (herr : t.status.err ≠ .ok) :
    (∃ e, t = s.raise i e) ∨ isComposite i = true ∧ ∃ key, t = s.tagRefused i key := by
  rcases exec_cases h with ⟨u, e, hw, rfl⟩ | ⟨-, hbad⟩
  · rw [finish_status] at herr
    cases hw with
    | error e _ _ => exact .inl ⟨e, rfl⟩
    | tagMismatch key hi _ => exact .inr ⟨hi, key, rfl⟩
    | _ => exact absurd rfl herr
  · rw [hwf] at hbad; cases hbad

/-- The classes of R327. -/
theorem cmdClass_iff (i : Instr) :
    (cmdClass i = .r ↔
      i = .encryptBlock ∨ i = .gf8Xtime ∨ i = .gf8Mul ∨ i = .gf128Halve ∨ i = .gf128Mul ∨ i = .ghash) ∧
    (cmdClass i = .out ↔ (∃ pol, i = .ctr pol) ∨ isComposite i = true) ∧
    (cmdClass i = .size ↔ i = .sizeForCt ∨ i = .sizeForPt) := by
  cases i <;> simp [cmdClass, isComposite]

/-- Settles O42, from the two ways a command can fail. -/
theorem failingCommandsMakeOnlyTheErrorWrites : Obligations.FailingCommandsMakeOnlyTheErrorWrites := by
  refine ⟨cmdClass_iff, fun s t i hwf h herr => ?_⟩
  obtain ⟨hcleared, -⟩ := hardenClearsTheScheduleOfCompositeCommandsOnly.2 s t i hwf h
  rcases exec_failed_cases hwf h herr with ⟨e, rfl⟩ | ⟨hi, key, rfl⟩
  · exact ⟨raise_eq_with s i e, sameOutside_raise s i e, fun hi => raise_keeps_schedule (.inl hi) e, hcleared,
      fun _ hh _ => raise_keeps_schedule (.inr hh) e⟩
  · obtain ⟨-, -, hout⟩ := tagRefused_spec s hi key
    refine ⟨raise_eq_with (s.storeSchedule key.size (expandKey key)) i _, hout, fun hn => ?_, hcleared,
      fun _ _ hne => ?_⟩
    · cases hi.symm.trans hn
    · exact absurd (congrArg Status.err (raise_status _ i _)) hne

end Sys2Proof.Machine
end

section
/-! The order of a command's checks (R342, R344): what the commands answer when an earlier check fails, and that each command
reports the code of its first failing check. -/

open Sys2Proof.Claim

namespace Sys2Proof.Machine

/-! ### The checks before the key -/

theorem exec_gcmEncrypt_of_too_long {s : State} (hlen : s.aadTooLong ∨ s.inTooLong ∨ s.nonceTooLong) :
    exec .gcmEncrypt s = .next (s.raise .gcmEncrypt .lengthError) := if_pos hlen

theorem exec_gcmDecrypt_of_too_long {s : State} (hlen : s.aadTooLong ∨ s.inTooLong ∨ s.nonceTooLong) :
    exec .gcmDecrypt s = .next (s.raise .gcmDecrypt .lengthError) := if_pos hlen

theorem exec_envEncode_of_too_long {s : State} {slot : Fin 16} (hslot : ¬s.params.krSlots ≤ slot.val)
    (hlen : s.params.bufBytes - envOverhead < s.inLen.toNat) :
    exec (.envEncode slot) s = .next (s.raise (.envEncode slot) .lengthError) :=
  (if_neg hslot).trans (if_pos hlen)

theorem exec_envDecode_of_too_long {s : State} (hlong : s.inTooLong) :
    exec .envDecode s = .next (s.raise .envDecode .lengthError) := if_pos hlong

theorem exec_envDecode_of_too_short {s : State} (hlong : ¬s.inTooLong) (hshort : s.inLen.toNat < envOverhead) :
    exec .envDecode s = .next (s.raise .envDecode .malformedEnvelope) := (if_neg hlong).trans (if_pos hshort)

theorem exec_envDecode_of_no_slot {s : State} (hlong : ¬s.inTooLong) (hshort : ¬s.inLen.toNat < envOverhead)
    (hslot : lookupSlot s.ring (envTag s.inBytes) = none) :
    exec .envDecode s = .next (s.raise .envDecode .unknownKeyVersion) := by
  simp only [exec, execEnvDecode, if_neg hlong, if_neg hshort, hslot]

/-- There is a key where VALID is 1 and KEYLEN is not 3 (R44, R295). -/
theorem exists_keyOf {cfg : KeyCfg} (h : ¬(cfg.valid = false ∨ cfg.keylen = 3)) (words : Vector Word 8) :
    ∃ key, keyOf cfg words = some key :=
  Option.ne_none_iff_exists'.mp fun hnone => h ((keyOf_eq_none_iff cfg words).mp hnone)

/-! ### The code that a command reports -/

/-- Command `i` completes with DONE set, OVR as before and the code `e` (R323, R344). -/
def Reports (s : State) (i : Instr) (e : ErrCode) : Prop :=
  ∃ t, exec i s = .next t ∧ t.status = doneStatus s e

/-- A command reports the code it exits with (R323): nothing that it writes before its exit is STATUS. -/
theorem reports_of_finish {s u : State} {i : Instr} {e : ErrCode} (h : exec i s = .next (u.finish i e)) :
    Reports s i e := by
  obtain ⟨-, e', hstatus⟩ := exec_completes h
  have he : e = e' := (congrArg Status.err (finish_status u i e)).symm.trans (congrArg Status.err hstatus)
  exact ⟨_, h, he ▸ hstatus⟩

theorem reports_expandKey (s : State) : Reports s .expandKey (firstError s .expandKey) := by
  simp only [firstError]
  split
  case isTrue hkey => exact status_of_raise (exec_expandKey_of_no_key ((keyOf_eq_none_iff _ _).mpr hkey))
  case isFalse hkey =>
    obtain ⟨key, hkey⟩ := exists_keyOf hkey s.keyReg
    exact ⟨_, exec_expandKey_of_key hkey, rfl⟩

theorem reports_encryptBlock (s : State) : Reports s .encryptBlock (firstError s .encryptBlock) := by
  simp only [firstError]
  split
  case isTrue hsched => exact status_of_raise (exec_encryptBlock_of_no_schedule hsched)
  case isFalse hsched =>
    obtain ⟨k, hk⟩ := Option.ne_none_iff_exists'.mp hsched
    exact reports_of_finish (exec_encryptBlock_of_schedule hk)

theorem reports_ctr (s : State) (pol : CounterPolicy) : Reports s (.ctr pol) (firstError s (.ctr pol)) := by
  simp only [firstError]
  split_ifs with hlen hsched
  · exact status_of_raise (exec_ctr_of_too_long pol hlen)
  · exact status_of_raise (exec_ctr_of_no_schedule pol hlen hsched)
  · obtain ⟨k, hk⟩ := Option.ne_none_iff_exists'.mp hsched
    exact ⟨_, exec_ctr_of_schedule pol hlen hk, rfl⟩

theorem reports_ghash (s : State) : Reports s .ghash (firstError s .ghash) := by
  simp only [firstError]
  split
  case isTrue hlen => exact status_of_raise (exec_ghash_of_too_long hlen)
  case isFalse hlen =>
    obtain ⟨haad, hin⟩ := not_or.mp hlen
    exact reports_of_finish (exec_ghash_of_lengths haad hin)

theorem reports_gcmEncrypt (s : State) : Reports s .gcmEncrypt (firstError s .gcmEncrypt) := by
  simp only [firstError]
  split_ifs with hlen hkey
  · exact status_of_raise (exec_gcmEncrypt_of_too_long hlen)
  · exact status_of_raise (exec_gcmEncrypt_of_no_key hlen ((keyOf_eq_none_iff _ _).mpr hkey))
  · obtain ⟨key, hkey⟩ := exists_keyOf hkey s.keyReg
    exact reports_of_finish (exec_gcmEncrypt_of_key hlen hkey)

theorem reports_gcmDecrypt (s : State) : Reports s .gcmDecrypt (firstError s .gcmDecrypt) := by
  simp only [firstError]
  split
  case isTrue hlen => exact status_of_raise (exec_gcmDecrypt_of_too_long hlen)
  case isFalse hlen =>
    split
    next hkey => exact status_of_raise (exec_gcmDecrypt_of_no_key hlen hkey)
    next key hkey =>
      split
      case isTrue hrefused => exact reports_of_finish (exec_gcmDecrypt_of_refused hlen hkey hrefused)
      case isFalse hopened =>
        obtain ⟨pt, hpt⟩ := Option.ne_none_iff_exists'.mp hopened
        exact reports_of_finish (exec_gcmDecrypt_of_opened hlen hkey hpt)

theorem reports_envEncode {s : State} {slot : Fin 16} (hslot : slot.val < s.params.krSlots) :
    Reports s (.envEncode slot) (firstError s (.envEncode slot)) := by
  simp only [firstError]
  split_ifs with hlen hkey
  · exact status_of_raise (exec_envEncode_of_too_long (Nat.not_le.mpr hslot) hlen)
  · exact status_of_raise
      (exec_envEncode_of_no_key (Nat.not_le.mpr hslot) hlen ((keyOf_eq_none_iff _ _).mpr hkey))
  · obtain ⟨key, hkey⟩ := exists_keyOf hkey (s.slot slot.val).key
    exact reports_of_finish (exec_envEncode_of_key hslot (Nat.not_lt.mp hlen) hkey)

theorem reports_envDecode (s : State) : Reports s .envDecode (firstError s .envDecode) := by
  simp only [firstError]
  split_ifs with hlong hshort
  · exact status_of_raise (exec_envDecode_of_too_long hlong)
  · exact status_of_raise (exec_envDecode_of_too_short hlong hshort)
  · split
    next hslot => exact status_of_raise (exec_envDecode_of_no_slot hlong hshort hslot)
    next x hslot =>
      split
      next hkey => exact status_of_raise (exec_envDecode_of_no_key hlong hshort hslot hkey)
      next key hkey =>
        split
        case isTrue hrefused => exact reports_of_finish (exec_envDecode_of_refused hlong hshort hslot hkey hrefused)
        case isFalse hopened =>
          obtain ⟨pt, hpt⟩ := Option.ne_none_iff_exists'.mp hopened
          exact reports_of_finish (exec_envDecode_of_opened hlong hshort hslot hkey hpt)

theorem reports_sizeForCt (s : State) : Reports s .sizeForCt (firstError s .sizeForCt) := by
  simp only [firstError]
  split
  case isTrue h => exact status_of_raise (exec_sizeForCt_of_too_large h)
  case isFalse h => exact reports_of_finish (exec_sizeForCt_of_fits (Nat.not_lt.mp h))

theorem reports_sizeForPt (s : State) : Reports s .sizeForPt (firstError s .sizeForPt) := by
  simp only [firstError]
  split
  case isTrue h => exact status_of_raise (exec_sizeForPt_of_too_small h)
  case isFalse h => exact reports_of_finish (exec_sizeForPt_of_envelope (Nat.not_lt.mp h))

/-- Settles O41, command by command: each branch of `firstError` is the branch of the command that exits with that code. -/
theorem commandsReportTheFirstFailingCheck : Obligations.CommandsReportTheFirstFailingCheck := by
  intro s i hwf
  cases i with
  | nop | zeroize | gf8Xtime | gf8Mul | gf128Halve | gf128Mul => exact reports_of_finish rfl
  | expandKey => exact reports_expandKey s
  | encryptBlock => exact reports_encryptBlock s
  | ctr pol => exact reports_ctr s pol
  | ghash => exact reports_ghash s
  | gcmEncrypt => exact reports_gcmEncrypt s
  | gcmDecrypt => exact reports_gcmDecrypt s
  | envEncode slot => exact reports_envEncode (of_decide_eq_true hwf)
  | envDecode => exact reports_envDecode s
  | sizeForCt => exact reports_sizeForCt s
  | sizeForPt => exact reports_sizeForPt s

end Sys2Proof.Machine
end

section
/-! The interrupt output (R350): what each kind of step does to it, said once; and the statement of when it rises and
falls. -/

namespace Sys2Proof.Machine

/-- A performed host write keeps the interrupt, but for one to CTRL, CMD or STATUS (R350). -/
theorem writeTarget_irq (s : State) (w : Word) {t : Target} (hctrl : t ≠ .ctrl) (hcmd : t ≠ .cmd)
    (hstatus : t ≠ .status) : (s.writeTarget w t).irq = s.irq := by
  cases t with
  | ctrl => exact absurd rfl hctrl
  | cmd => exact absurd rfl hcmd
  | status => exact absurd rfl hstatus
  | buf x n => cases x <;> rfl
  | _ => rfl

/-- What a host write of `w` at window offset `off` can do to the interrupt, `irq'` being the interrupt after it (R350): a
write to CTRL while no command runs sets or clears IRQ_EN, one to CMD while no command runs is accepted and clears DONE, and
one to STATUS with a 1 in bit 1 clears DONE. -/
def WroteIrq (s : State) (off : Nat) (w : Word) (irq' : Bool) : Prop :=
  (off = 0x004 ∧ s.busy = false ∧ irq' = (s.status.done && w.getLsbD 0)) ∨
  (off = 0x008 ∧ s.busy = false ∧ irq' = false) ∨
  (off = 0x00C ∧ irq' = (s.irq && !w.getLsbD 1))

/-- A host access keeps the interrupt or is one of the three writes (R350). -/
theorem hostAccess_irq (s : State) (off : Nat) (width : AccessWidth) (op : AccessOp) :
    (s.hostAccess off width op).irq = s.irq ∨
      ∃ w, op = .write w ∧ WroteIrq s off w (s.hostAccess off width op).irq := by
  rcases hostAccess_cases s off width op with
    ⟨-, ha⟩ | ⟨t, -, -, -, hoff, ⟨-, ha⟩ | ⟨w, hop, ⟨-, -, ha⟩ | ⟨hperformed, ha⟩⟩⟩ <;> rw [ha]
  · exact .inl rfl
  · exact .inl rfl
  · exact .inl rfl
  · by_cases hctrl : t = .ctrl
    · subst hctrl; cases hoff
      exact .inr ⟨w, hop, .inl ⟨rfl, hperformed.resolve_right (by decide), rfl⟩⟩
    by_cases hcmd : t = .cmd
    · subst hcmd; cases hoff
      exact .inr ⟨w, hop, .inr (.inl ⟨rfl, hperformed.resolve_right (by decide), rfl⟩)⟩
    by_cases hstatus : t = .status
    · subst hstatus; cases hoff
      exact .inr ⟨w, hop, .inr (.inr ⟨rfl, Bool.and_right_comm _ _ _⟩)⟩
    exact .inl (writeTarget_irq s w hctrl hcmd hstatus)

/-- The engine's step keeps the interrupt, or completes a command, which sets it to IRQ_EN (R323, R350). -/
theorem engineStep_irq {s t : State} (h : engineStep s = .next t) :
    t.irq = s.irq ∨ (s.busy = true ∧ t.busy = false ∧ t.irq = s.ctrl.irqEn) := by
  cases hs : s.seq with
  | idle =>
    obtain rfl : s = t := Host.Outcome.next.inj ((engineStep_of_idle hs).symm.trans h)
    exact .inl rfl
  | running w =>
    obtain ⟨t', e, ht', -, hidle, -, -, hirq⟩ := engineStepCompletesTheCommand s w hs
    obtain rfl : t' = t := Host.Outcome.next.inj (ht'.symm.trans h)
    exact .inr ⟨by rw [State.busy, hs], hidle, hirq⟩

/-- What a step can do to the interrupt (R350): nothing, a completion, a reset, or one of the three host writes. -/
theorem step_irq {s t : State} (h : step s = .next t) :
    t.irq = s.irq ∨ (s.busy = true ∧ t.busy = false ∧ t.irq = s.ctrl.irqEn) ∨
      ((∃ rest, s.schedule = .reset :: rest) ∧ t.irq = false) ∨
      ∃ x rest w off, s.schedule = .bus x :: rest ∧ x.op = .write w ∧ x.addr = s.params.base + off ∧
        WroteIrq s off w t.irq := by
  rcases step_cases h with ⟨-, he⟩ | ⟨rest, ⟨-, he⟩ | ⟨x, hx, rfl⟩ | ⟨hr, rfl⟩⟩
  · exact (engineStep_irq he).imp_right .inl
  · exact (engineStep_irq he).imp_right .inl
  · rcases busEvent_cases { s with schedule := rest } x with hkeep | ⟨off, haddr, -, hacc⟩
    · rw [hkeep]
      exact .inl rfl
    · rw [hacc]
      rcases hostAccess_irq { s with schedule := rest } off x.width x.op with hkeep | ⟨w, hop, hw⟩
      · exact .inl hkeep
      · exact .inr (.inr (.inr ⟨x, rest, w, off, hx, hop, haddr, hw⟩))
  · exact .inr (.inr (.inl ⟨⟨rest, hr⟩, rfl⟩))

/-- Settles O23, from what a step can do to the interrupt. -/
theorem interruptRisesAndFallsOnlyAsTheRuleSays : Obligations.InterruptRisesAndFallsOnlyAsTheRuleSays := by
  refine ⟨fun _ => rfl, fun s t hstep => ⟨fun hs ht => ?_, fun hs ht => ?_⟩⟩
  · rcases step_irq hstep with hkeep | ⟨hb, hb', hirq⟩ | ⟨-, hirq⟩ | ⟨x, rest, w, off, hx, hop, haddr, hw⟩
    · simp [hkeep, hs] at ht
    · exact .inl ⟨hb, hb', hirq.symm.trans ht⟩
    · simp [hirq] at ht
    · rcases hw with ⟨rfl, hb, hirq⟩ | ⟨-, -, hirq⟩ | ⟨-, hirq⟩
      · obtain ⟨hdone, hbit⟩ := Bool.and_eq_true_iff.mp (hirq.symm.trans ht)
        exact .inr ⟨hb, hdone, x, rest, w, hx, haddr, hop, hbit⟩
      · simp [hirq] at ht
      · simp [hirq, hs] at ht
  · obtain ⟨hdone, hen⟩ := Bool.and_eq_true_iff.mp hs
    rcases step_irq hstep with hkeep | ⟨-, -, hirq⟩ | ⟨hreset, -⟩ | ⟨x, rest, w, off, hx, hop, haddr, hw⟩
    · simp [hkeep, hs] at ht
    · simp [hirq, hen] at ht
    · exact .inl hreset
    · refine .inr ⟨x, rest, w, hx, hop, ?_⟩
      rcases hw with ⟨rfl, -, hirq⟩ | ⟨rfl, hb, -⟩ | ⟨rfl, hirq⟩
      · exact .inr (.inr ⟨haddr, by simpa [hirq, hdone] using ht⟩)
      · exact .inr (.inl ⟨haddr, hb⟩)
      · exact .inl ⟨haddr, by simpa [hirq, hs] using ht⟩

end Sys2Proof.Machine
end

section
/-! The write-only key registers (R360): what the core answers to a host does not depend on the key bytes. -/

open Sys2Proof.Claim

namespace Sys2Proof.Machine

/-- A slot whose key bytes are replaced keeps its tag and its configuration (R54). -/
theorem slot_withKeys {s : State} {keys : List (Vector Word 8)} (hlen : keys.length = s.ring.length)
    (keyReg : Vector Word 8) (n : Nat) : ∃ k, (withKeys s keyReg keys).slot n = { s.slot n with key := k } := by
  simp only [State.slot, withKeys, List.getD_eq_getElem?_getD]
  by_cases hn : n < s.ring.length
  · exact ⟨keys[n], by simp [hn, hlen]⟩
  · exact ⟨Slot.zero.key, by simp [hn]⟩

/-- No target reads differently when the key bytes are replaced: KEY and KR_KEY read 0, and no other shows them (R43, R54,
R360). -/
theorem readTarget_withKeys {s : State} {keys : List (Vector Word 8)} (hlen : keys.length = s.ring.length)
    (keyReg : Vector Word 8) (t : Target) : (withKeys s keyReg keys).readTarget t = s.readTarget t := by
  cases t with
  | krTag n | krCfg n =>
    obtain ⟨k, hk⟩ := slot_withKeys hlen keyReg n
    simp only [State.readTarget, hk]
  | _ => rfl

/-- Nor does a host read, the busy-time rule having nothing to do with the keys (R105). -/
theorem hostRead_withKeys {s : State} {keys : List (Vector Word 8)} (hlen : keys.length = s.ring.length)
    (keyReg : Vector Word 8) (t : Target) : (withKeys s keyReg keys).hostRead t = s.hostRead t := by
  simp only [State.hostRead, readTarget_withKeys hlen]
  rfl

/-- A write of a mapped target is answered as written, whether it is performed or dropped (R59, R105). -/
theorem response_hostAccess_write {s : State} {off : Nat} {width : AccessWidth} {t : Target}
    (ht : accessTarget s.params off width = some t) (w : Word) :
    (s.hostAccess off width (.write w)).response = some .written := by
  simp only [State.hostAccess, ht]

/-- Settles O16: which target an access reaches does not depend on the keys, nor does the answer for a target. -/
theorem keyBytesAreNeverReadableThroughTheBus : Obligations.KeyBytesAreNeverReadableThroughTheBus := by
  intro s keyReg keys off width op hlen
  cases ht : accessTarget s.params off width with
  | none => rw [hostAccess_busError ht, hostAccess_busError (s := withKeys s keyReg keys) ht]
  | some t =>
    cases op with
    | read =>
      rw [hostAccess_read ht, hostAccess_read (s := withKeys s keyReg keys) ht]
      exact congrArg (some <| BusResult.value ·) (hostRead_withKeys hlen keyReg t)
    | write w => rw [response_hostAccess_write ht, response_hostAccess_write (s := withKeys s keyReg keys) ht]

end Sys2Proof.Machine
end

section
/-! Reset (R380, R381): the reset values as the host reads them, and the reset of a running machine. -/

namespace Sys2Proof.Machine

/-- Settles O10: the step is the reset pulse, which keeps only what is the environment's. -/
theorem resetEndsARunningCommand : Obligations.ResetEndsARunningCommand :=
  fun _ _ h => ⟨_, step_reset h, rfl, rfl, rfl⟩

/-- PARAMS as a number, for legal parameters (R49): no field overflows into the next. -/
theorem toNat_paramsWord {p : Params} (hp : p.legal) :
    (paramsWord p).toNat = p.bufBytes + p.krSlots * 2 ^ 16 + 64 * 2 ^ 24 := by
  obtain ⟨-, -, hbuf, -, hslots, -⟩ := hp
  have hfields : (paramsWord p).toNat = (64 <<< 8 ||| p.krSlots) <<< 16 ||| p.bufBytes := by
    simp only [paramsWord, BitVec.toNat_append, BitVec.toNat_ofNat]
    rw [Nat.mod_eq_of_lt (a := p.krSlots) (by omega), Nat.mod_eq_of_lt (a := p.bufBytes) (by omega)]
  rw [hfields, ← Nat.shiftLeft_add_eq_or_of_lt (by omega), ← Nat.shiftLeft_add_eq_or_of_lt (by omega)]
  omega

/-- Every byte of every array reads 0 after reset (R380). -/
theorem memRead_resetWith (p : Params) (x : Buf) (off n : Nat) :
    (State.resetWith p).memRead x off n = zeros n := readBytes_eq_zeros fun _ _ => rfl

/-- Every slot is absent after reset (R380). -/
theorem slot_resetWith (p : Params) (n : Nat) : (State.resetWith p).slot n = Slot.zero := by
  simp only [State.slot, State.resetWith, List.getD_eq_getElem?_getD, List.getElem?_replicate]
  split <;> rfl

theorem ctrlWord_resetWith (p : Params) : (State.resetWith p).ctrl.toWord = 0x00000006 := by
  simp only [State.resetWith]
  decide

theorem statusWord_resetWith (p : Params) : (State.resetWith p).statusWord = 0 := by
  simp only [State.statusWord, State.resetWith, State.busy]
  decide

theorem keyCfgWord_zero : KeyCfg.zero.toWord = 0 := by decide

theorem keyWordBytes_zero : keyWordBytes (Vector.replicate 8 0) = zeros 32 := by decide

/-- Settles O24, register by register; the slots and the arrays from the lemmas above. -/
theorem resetStateHasTheResetValues : Obligations.ResetStateHasTheResetValues := by
  refine ⟨⟨rfl, rfl, rfl⟩, fun p hp => ⟨_, rfl, rfl, rfl, toNat_paramsWord hp, ctrlWord_resetWith p, rfl,
    statusWord_resetWith p, keyCfgWord_zero, keyWordBytes_zero, rfl, rfl, rfl, rfl, rfl, rfl, rfl, rfl, rfl, rfl,
    fun x => memRead_resetWith p x 0 _, List.length_replicate, fun n _ => ?_, rfl, rfl⟩⟩
  simp only [State.readTarget, slot_resetWith]
  exact ⟨rfl, keyCfgWord_zero, keyWordBytes_zero⟩

end Sys2Proof.Machine
end
